-- ==== Sys2Proof/Word.lean ====
section
/-! DEFINITION. The widths the spec uses: bytes, 16-bit words, 32-bit descriptor words and the 128-bit
request descriptor (spec/00_scope.md R9, spec/30_encoding.md R100). -/

namespace Sys2Proof

/-- An 8-bit value: a payload byte, a command byte, a pin index read as s8 (R9, R11). -/
abbrev Byte := BitVec 8

/-- A 16-bit value: a pixel word or a 16-bit command (R11). -/
abbrev Half := BitVec 16

/-- A 32-bit value: one word of a descriptor, a count, a register mask (R100). -/
abbrev Word := BitVec 32

/-- A 128-bit request descriptor, `HDR` in its bits 31:0 (R50, R100). -/
abbrev Desc := BitVec 128

end Sys2Proof
end

