-- ==== Sys2Proof/Config.lean ====
section
/-! DEFINITION. What an implementation fixes: the parameters of spec/00_scope.md R8, as one record of
plain data, and the free values of the spec, as constants without a body. Log entries 2, 8, 9. -/

namespace Sys2Proof

/-- The two chip-select register banks, a closed two-valued enumeration (R33, R142). -/
inductive Bank where
  | low
  | high
  deriving DecidableEq, Repr

/-- Lanes used by one phase: 1 or 4 (R8 `LANES`). -/
inductive LaneCount where
  | one
  | four
  deriving DecidableEq, Repr

/-- The lanes of the three phases of a framed transaction (R8 `LANES`, R115). -/
structure PhaseLanes where
  command : LaneCount
  address : LaneCount
  data : LaneCount
  deriving DecidableEq, Repr

/-- `LANES(cmdValue, phase)`: one row for each of the two opcodes the block emits (R8, R112, log 18). -/
structure LaneTable where
  cmd02 : PhaseLanes
  cmd32 : PhaseLanes
  deriving DecidableEq, Repr

/-- `CAP` with its bound `1 <= CAP <= 2^30` (R8). -/
abbrev Capacity := { n : Nat // 1 ≤ n ∧ n ≤ 2 ^ 30 }

/-- `QUEUE_DEPTH`, at least 1 (R8). -/
abbrev QueueDepth := { n : Nat // 1 ≤ n }

/-- The OPEN parameters of R8. They are arguments of the model: constant through every run. -/
structure Params where
  /-- `CAP`, the TransferBuffer's capacity in 16-bit words. -/
  cap : Capacity
  /-- `ADDR_W`, the width of host addresses and of the chip-select register addresses (D17). -/
  addrW : Nat
  /-- `CS_BANK_THRESHOLD`, the first pin index of bank HIGH. -/
  bankThreshold : Nat
  /-- `SET_ADDR[LOW]`. -/
  setLow : BitVec addrW
  /-- `CLR_ADDR[LOW]`. -/
  clrLow : BitVec addrW
  /-- `SET_ADDR[HIGH]`. -/
  setHigh : BitVec addrW
  /-- `CLR_ADDR[HIGH]`. -/
  clrHigh : BitVec addrW
  /-- `NUM_PINS`. -/
  numPins : Nat
  /-- `CS_ACTIVE_LOW`. -/
  csActiveLow : Bool
  /-- `DEFAULT_CLOCK`, s32. -/
  defaultClock : Word
  /-- `DEFAULT_SPI_MODE`, s8. -/
  defaultSpiMode : Byte
  /-- `QUEUE_DEPTH`. -/
  queueDepth : QueueDepth
  /-- `BUS_FLAGS`, passed through unchanged. -/
  busFlags : Nat
  /-- `LANES`. -/
  lanes : LaneTable
  deriving DecidableEq, Repr

namespace Config

/-- `SET_ADDR[LOW]` of the implementation at hand: OPEN (R8, D17), so without a body; its width is the
reference `ADDR_W`. -/
opaque setLow : BitVec 32
/-- `CLR_ADDR[LOW]`: OPEN (R8, D17). -/
opaque clrLow : BitVec 32
/-- `SET_ADDR[HIGH]`: OPEN (R8, D17). -/
opaque setHigh : BitVec 32
/-- `CLR_ADDR[HIGH]`: OPEN (R8, D17). -/
opaque clrHigh : BitVec 32
/-- `DEFAULT_CLOCK`: OPEN (R8, D21). -/
opaque defaultClock : Word
/-- `DEFAULT_SPI_MODE`: OPEN (R8, D21). -/
opaque defaultSpiMode : Byte
/-- One less than `QUEUE_DEPTH`: OPEN (R8, D22). -/
opaque queueDepthPred : Nat
/-- `BUS_FLAGS`: OPEN and opaque (R8, D8). -/
opaque busFlags : Nat

/-- Free value: byte `j` of the TransferBuffer right after allocation (R40, D34: "Unspecified (any
value)"; log 8). -/
opaque freshBufByte (j : Nat) : Byte

/-- Free value: the bus driver's retained framing after a submission that answered Err
(spec/93_implementation_defined.md U20: `any value`; log 9). The argument is a fresh number. -/
opaque retainedAfterErr (n : Nat) : Option LaneCount

/-- Free value: `payloadBitLength` of a payload of `n` bytes whose bit count `8 * n` does not fit the
field's 32 bits (R110 states `8 * len(payload)` and the width 32; with a `CAP` of `2^28` or more both
cannot hold; log 25). -/
opaque longBitLength (n : Nat) : Word

/-- The recommended lane use of D14: command and address on 1 lane, the data of `0x32` on 4, the data
of `0x02` on 1. DESIGN CHOICE at reset only (log 2). -/
def recommendedLanes : LaneTable where
  cmd02 := { command := .one, address := .one, data := .one }
  cmd32 := { command := .one, address := .one, data := .four }

/-- The parameters `State.reset` starts with: the reference values of R8 where it gives one (`CAP`,
`ADDR_W`), the recommended ones where it recommends (`CS_BANK_THRESHOLD`, `NUM_PINS`, `CS_ACTIVE_LOW`,
`LANES`), and the constants without a body for the rest. DESIGN CHOICE, unsafe (log 2). -/
def reference : Params where
  cap := ⟨4096, by decide⟩
  addrW := 32
  bankThreshold := 32
  setLow := setLow
  clrLow := clrLow
  setHigh := setHigh
  clrHigh := clrHigh
  numPins := 49
  csActiveLow := true
  defaultClock := defaultClock
  defaultSpiMode := defaultSpiMode
  queueDepth := ⟨queueDepthPred + 1, Nat.succ_pos _⟩
  busFlags := busFlags
  lanes := recommendedLanes

end Config
end Sys2Proof
end

