-- ==== Sys2Proof/Syntax.lean ====
section
/-! DEFINITION. The abstract syntax of requests: one constructor for each row of spec/opcode_table.json
(spec/30_encoding.md R104), with the operands of R102 at their widths. -/

namespace Sys2Proof

/-- A decoded request. Operands are taken unchanged from their fields (R102); `ptr` is the `PTR` word,
whose bits at and above `ADDR_W` a well-formed request has zero (R105). -/
inductive Instr where
  /-- `open` (OP 0x0, R140). -/
  | openEngine
  /-- `writeCommand c` (OP 0x1, R170). -/
  | writeCommand (c : Byte)
  /-- `writeCommand16 w` (OP 0x2, R171). -/
  | writeCommand16 (w : Half)
  /-- `writeByte b` (OP 0x3, R172). -/
  | writeByte (b : Byte)
  /-- `writeWord w` (OP 0x4, R173). -/
  | writeWord (w : Half)
  /-- `writeCommandWithBytes c, b` (OP 0x5, R174). -/
  | writeCommandWithBytes (c : Byte) (b : Byte)
  /-- `writeCommandWithWords c, w1, w2` (OP 0x6, R175). -/
  | writeCommandWithWords (c : Byte) (w1 : Half) (w2 : Half)
  /-- `writeRepeated value, count`, `count` in words (OP 0x7, R210). -/
  | writeRepeated (value : Half) (count : Word)
  /-- `writePixelStream ptr, count`, `count` in words (OP 0x8, R220). -/
  | writePixelStream (ptr : Word) (count : Word)
  /-- `writeByteStream ptr, count`, `count` in bytes (OP 0x9, R230). -/
  | writeByteStream (ptr : Word) (count : Word)
  /-- `writePattern ptr, patternLen, repeatCount` (OP 0xA, R235). -/
  | writePattern (ptr : Word) (patternLen : Word) (repeatCount : Word)
  /-- The table's row OP 0xB, reserved and illegal (R106); `low` is `HDR[27:0]` (log 14). -/
  | reservedB (low : BitVec 28)
  /-- The table's row OP 0xC to 0xF, reserved and illegal (R106); `low` is `HDR[29:0]` (log 14). -/
  | reservedCtoF (low : BitVec 30)
  deriving DecidableEq, Repr

end Sys2Proof
end

