-- ==== Sys2Proof/Machine/State.lean ====
section
/-! DEFINITION. The state of the machine as plain data: every register of spec/10_state.md, the ports'
values, the two outside parties whose state the rules act on (the bus driver's retained framing, the
chip-select registers), and the environment's inputs; the event trace of R60; the reasons a step can
stop; and the state after reset (R61, R290). -/

namespace Sys2Proof.Machine

/-! ### Small enumerations -/

/-- `mode` (R32). -/
inductive Mode where
  | uninit
  | ready
  | failed
  deriving DecidableEq, Repr

/-- `seq` (R41). -/
inductive Seq where
  | idle
  | busy
  | halted
  deriving DecidableEq, Repr

/-- `csAsserted`, the logical level of chip select (R34). -/
inductive CsLevel where
  | undriven
  | deasserted
  | asserted
  deriving DecidableEq, Repr

/-- `framing` (R42). -/
inductive Framing where
  | framed
  | continuation
  deriving DecidableEq, Repr

/-- The model faults of R266. They are effects of a request (log 12), not reasons of `Fault` below. -/
inductive FaultCode where
  | illegalRequest
  | notReady
  | reopen
  | badPin
  | srcMisaligned
  | srcAlias
  deriving DecidableEq, Repr

/-- The response statuses that are produced (R260). -/
inductive Status where
  | ok
  | initError
  | transportError
  deriving DecidableEq, Repr

/-- The causes of InitError (R261). -/
inductive InitCause where
  | csPinInvalid
  | busInitFailed
  | allocFailed
  | deviceRegFailed
  deriving DecidableEq, Repr

/-- What a BUSY engine waits for between steps: nothing, the answer of the bus driver (R263), or a
source read that host memory does not admit (R267). The model's own (log 26). -/
inductive Waiting where
  | nothing
  | busDriver
  | hostMemory
  deriving DecidableEq, Repr

/-! ### Records -/

/-- PinBinding (R33). The two addresses are numbers below `2^ADDR_W`, by the machine's invariant (log 15). -/
structure PinBinding where
  csPin : Byte
  sckPin : Byte
  d0Pin : Byte
  d1Pin : Byte
  d2Pin : Byte
  d3Pin : Byte
  csBank : Bank
  csMask : Word
  csSetAddr : Nat
  csClrAddr : Nat
  deriving DecidableEq, Repr

/-- TransferConfig (R35): `clockSpeed` s32, `spiMode` s8. -/
structure TransferConfig where
  clockSpeed : Word
  spiMode : Byte
  deriving DecidableEq, Repr

/-- DeviceFraming (R36), the constant record handed to `registerDevice`. -/
structure DeviceFraming where
  cmdBits : Byte
  addrBits : Byte
  halfDuplex : Bool
  queueDepth : Nat
  deriving DecidableEq, Repr

/-- The planner registers (R43). -/
structure Planner where
  remaining : Word
  srcAddr : Nat
  chunk : Word
  filled : Word
  txDone : Word
  repDone : Word
  deriving DecidableEq, Repr

/-- The Transaction record (R110); its last two fields are the block's flags (R47). -/
structure Transaction where
  commandBits : Byte
  commandValue : Half
  addressBits : Byte
  addressValue : Word
  dummyBits : Byte
  payload : List Byte
  payloadBitLength : Word
  isFirstInSequence : Bool
  reuseFraming : Bool
  deriving DecidableEq, Repr

/-- The response port and its registers (R45, R51). -/
structure Response where
  valid : Bool
  status : BitVec 2
  info0 : Word
  info1 : Word
  deriving DecidableEq, Repr

/-- The configuration inputs (R52): the pins and the mode s8, the clock s32. -/
structure CfgInputs where
  cs : Byte
  sck : Byte
  d0 : Byte
  d1 : Byte
  d2 : Byte
  d3 : Byte
  clock : Word
  mode : Byte
  deriving DecidableEq, Repr

/-- The output banks behind the chip-select set and clear registers (R275): one bit per pin. -/
structure Platform where
  low : Word
  high : Word
  deriving DecidableEq, Repr

/-- Host memory: the admitted bytes, addresses strictly rising. An address that is not listed is not
admitted (R72, R267; log 5). -/
abbrev Memory := List Host.Cell

/-- The answer of `submitTransaction` (R54): Ok, or Err with the number of transaction bits that had
reached the display, which R78 makes a draw (log 10). -/
inductive SubmitAnswer where
  | ok
  | err (delivered : Nat)
  deriving DecidableEq, Repr

/-- The environment: what the host, the bus driver, the allocator and host memory hold ready for the
engine (R7, R54, D33). The engine takes from it and never adds to it (logs 3, 4, 5, 22). -/
structure Env where
  /-- The descriptors the host will present on the request port, in order (R50). -/
  requests : List Desc
  /-- The draw of `initializeBus`: a context, or Err. -/
  busInit : Option Nat
  /-- The draw of `allocDMA`: an address, read as a value of `ADDR_W` bits (log 15), or Err. -/
  alloc : Option Nat
  /-- The draw of `registerDevice`: a handle, or Err. -/
  devReg : Option Nat
  /-- The draws of `submitTransaction`, in order; when none is left the driver never answers (R263). -/
  submits : List SubmitAnswer
  /-- Host memory. -/
  mem : Memory
  deriving DecidableEq, Repr

/-- The arguments of `BUS_INIT` (R54): the five pins, `maxTransferSize`, `flags`, and the resolved
TransferConfig passed with them. -/
structure BusInitArgs where
  sckPin : Byte
  d0Pin : Byte
  d1Pin : Byte
  d2Pin : Byte
  d3Pin : Byte
  maxTransferSize : Nat
  flags : Nat
  clockSpeed : Word
  spiMode : Byte
  deriving DecidableEq, Repr

/-- The events of the trace (R60). A draw that an event carries stands in the event (log 20); `txn T none`
is a submission that is not answered. -/
inductive Event where
  | accept (desc : Desc)
  | pinCfg (pin : Byte)
  | regWrite (addr : Nat) (mask : Word)
  | cs (level : CsLevel)
  | busInit (args : BusInitArgs) (answer : Option Nat)
  | alloc (bytes : Nat) (answer : Option Nat)
  | devReg (framing : DeviceFraming) (answer : Option Nat)
  | txn (t : Transaction) (answer : Option SubmitAnswer)
  | rsp (status : BitVec 2) (info0 : Word) (info1 : Word)
  | fault (code : BitVec 3)
  deriving DecidableEq, Repr

/-! ### The state -/

/-- The machine's state. -/
structure State where
  /-- The implementation's parameters (R8), constant through every run (log 2). -/
  params : Params
  /-- The configuration inputs (R52), held by the host. -/
  cfg : CfgInputs
  /-- The environment's inputs and host memory. -/
  env : Env
  /-- `mode` (R32). -/
  mode : Mode
  /-- `seq` (R41). -/
  seq : Seq
  /-- `fault`, the sticky model-fault register (R46); `fault_out` (R56). -/
  fault : BitVec 3
  /-- `csAsserted` (R34). -/
  cs : CsLevel
  /-- PinBinding (R33). -/
  pins : PinBinding
  /-- TransferConfig (R35). -/
  xfer : TransferConfig
  /-- `busContext` (R37). -/
  busContext : Option Nat
  /-- `deviceHandle` (R37). -/
  deviceHandle : Option Nat
  /-- `bufBase` (R38), a number below `2^ADDR_W` by the machine's invariant (log 15). -/
  bufBase : Nat
  /-- `bufAllocated` (R38). -/
  bufAllocated : Bool
  /-- The TransferBuffer as its byte view `BufB` (R40); `[]` while it is not allocated. -/
  buf : List Byte
  /-- `framing` (R42). -/
  framing : Framing
  /-- The planner registers (R43). -/
  plan : Planner
  /-- The Transaction register `T` (R44). -/
  txn : Transaction
  /-- The response registers and `rsp_valid` (R45, R51). -/
  rsp : Response
  /-- The descriptor latched at acceptance (R50). -/
  desc : Desc
  /-- The data-phase lane mode the bus driver retains (R57). -/
  retained : Option LaneCount
  /-- The platform's chip-select register banks (R275). -/
  platform : Platform
  /-- The event trace (R60), oldest event first. -/
  trace : List Event
  /-- What a BUSY engine waits for (log 26). -/
  waiting : Waiting
  /-- The number of free values drawn so far (log 9). -/
  frees : Nat
  deriving DecidableEq, Repr

/-! ### Reasons to stop -/

/-- Why a step cannot be taken. The spec gives the engine no step in these states; raised by `step`
alone, never by a request's meaning. -/
inductive Fault where
  /-- `seq = HALTED`: "No later step exists" (R41, R266). Raised by `step`; safe, the spec's own stop. -/
  | halted
  /-- BUSY in a `Submit` the bus driver has not answered: a hang (R263). Raised by `step`; safe. -/
  | noAnswer
  /-- BUSY at a source read host memory does not admit: stuck (R267). Raised by `step`; safe. -/
  | sourceNotAdmitted
  /-- BUSY with nothing to wait for. No step leaves the engine so (a step performs a request to its
  end or to a wait, log 1); raised by `step` on such a state; safe. -/
  | midRequest
  deriving DecidableEq, Repr

/-- Why an instruction has no meaning. -/
inductive Refusal where
  /-- The instruction of that mnemonic has no meaning yet. Raised by `exec`'s arms only; safe. This
  model has no such arm. -/
  | notModelled (mnemonic : String)
  deriving DecidableEq, Repr

/-! ### Reset -/

/-- The planner registers at reset: all 0 (R43, R61). -/
def Planner.reset : Planner :=
  { remaining := 0, srcAddr := 0, chunk := 0, filled := 0, txDone := 0, repDone := 0 }

/-- PinBinding at reset: unspecified in R61; the values are the model's (DESIGN CHOICE, log 6). -/
def PinBinding.reset : PinBinding :=
  { csPin := 0, sckPin := 0, d0Pin := 0, d1Pin := 0, d2Pin := 0, d3Pin := 0, csBank := .low,
    csMask := 0, csSetAddr := 0, csClrAddr := 0 }

/-- `T` at reset: unspecified in R61; the values are the model's (DESIGN CHOICE, log 7). -/
def Transaction.reset : Transaction :=
  { commandBits := 0, commandValue := 0, addressBits := 0, addressValue := 0, dummyBits := 0,
    payload := [], payloadBitLength := 0, isFirstInSequence := false, reuseFraming := false }

/-- The configuration inputs at reset: the host's; the values are the model's (DESIGN CHOICE, log 23). -/
def CfgInputs.reset : CfgInputs :=
  { cs := 0, sck := 0, d0 := 0, d1 := 0, d2 := 0, d3 := 0, clock := 0, mode := 0 }

/-- The environment at reset: nothing placed yet, and the three draws of `open` Ok with 0 (DESIGN
CHOICE, logs 3, 4, 5, 22). -/
def Env.reset : Env :=
  { requests := [], busInit := some 0, alloc := some 0, devReg := some 0, submits := [], mem := [] }

/-- Power-on reset (R61, R290). What R61 leaves unspecified has the value the log names. -/
def State.reset : State where
  params := Config.reference
  cfg := CfgInputs.reset
  env := Env.reset
  mode := .uninit
  seq := .idle
  fault := 0
  cs := .undriven
  pins := PinBinding.reset
  xfer := { clockSpeed := 0, spiMode := 0 }
  busContext := none
  deviceHandle := none
  bufBase := 0
  bufAllocated := false
  buf := []
  framing := .framed
  plan := Planner.reset
  txn := Transaction.reset
  rsp := { valid := false, status := 0, info0 := 0, info1 := 0 }
  desc := 0
  retained := none
  platform := { low := 0, high := 0 }
  trace := []
  waiting := .nothing
  frees := 0

end Sys2Proof.Machine
end

