-- ==== Sys2Proof/Machine/Operands.lean ====
section
/-! DEFINITION. The operand forms: bytes of a 16-bit word, the big-endian pair, the Byte-Order Normalizer,
the address values of commands, and the fixed values of spec/00_scope.md R8 (R11, R70, R74, R170 to
R175, R240 to R244). -/

namespace Sys2Proof.Machine

/-! ### Fixed values (R3, R8) -/

/-- `OPC_CMD`: the command/address-only opcode `0x02`. -/
def opcCmd : Byte := 0x02
/-- `OPC_DATA`: the data-write opcode `0x32`. -/
def opcData : Byte := 0x32
/-- `ADDR_SINGLE`: the sentinel address of single data writes. -/
def addrSingle : BitVec 24 := 0x002C00
/-- `ADDR_STREAM`: the sentinel address of streamed data writes. -/
def addrStream : BitVec 24 := 0x003C00
/-- `CMD_BITS`: the command phase's width. -/
def cmdBitsFixed : Byte := 8
/-- `ADDR_BITS`: the address phase's width. -/
def addrBitsFixed : Byte := 24

/-! ### Bytes of a 16-bit word (R11) -/

/-- `hi(w) = w[15:8]`. -/
def hiByte (w : Half) : Byte := w.extractLsb' 8 8
/-- `lo(w) = w[7:0]`. -/
def loByte (w : Half) : Byte := w.extractLsb' 0 8
/-- `be16(w) = [hi(w), lo(w)]`, the wire order of a 16-bit value (R11, R70). -/
def be16 (w : Half) : List Byte := [hiByte w, loByte w]
/-- The two bytes of a 16-bit word at ascending offsets on the little-endian host (R40, R71). -/
def le16 (w : Half) : List Byte := [loByte w, hiByte w]
/-- The 16-bit value `M[a] | (M[a+1] << 8)` of its two bytes (R72). -/
def half (b0 b1 : Byte) : Half := b0.setWidth 16 ||| (b1.setWidth 16 <<< 8)

/-- `normalize(v) = (v >> 8) | ((v & 0xFF) << 8)` (R240). -/
def normalize (v : Half) : Half := (v >>> 8) ||| ((v &&& 0xFF) <<< 8)

/-- The bytes of a list of words, each as the host stores it (R40, R71). -/
def wordsLE (ws : List Half) : List Byte := ws.flatMap le16

/-! ### Address values (R74, R81) -/

/-- `zext_24(c) << 8`: the address value that carries a command byte (R170). -/
def cmdAddr8 (c : Byte) : BitVec 24 := c.setWidth 24 <<< 8
/-- `zext_24(w)`: the address value that carries a 16-bit command (R171). -/
def cmdAddr16 (w : Half) : BitVec 24 := w.setWidth 24

/-! ### Configuration values read as signed (R52, R141, R144) -/

/-- An s8 configuration input is negative. -/
def negative8 (v : Byte) : Bool := decide (v.toInt < 0)
/-- An s32 configuration input is negative. -/
def negative32 (v : Word) : Bool := decide (v.toInt < 0)

/-! ### Capacities (R8, R200) -/

/-- `CAP` in 16-bit words. -/
def capWords (p : Params) : Nat := p.cap.val
/-- `CAP_BYTES = 2 * CAP`. -/
def capBytes (p : Params) : Nat := 2 * p.cap.val

end Sys2Proof.Machine
end

