-- ==== Sys2Proof/Machine/Flags.lean ====
section
/-! DEFINITION. The block's flags are the two one-bit fields of the Transaction record,
`isFirstInSequence` and `reuseFraming` (spec/10_state.md R47); the block has no condition codes (R48).
They are computed here, with the three forms of record that carry them (spec/30_encoding.md R112). -/

namespace Sys2Proof.Machine

/-- `isFirstInSequence`: 1 for a framed or single-shot transaction, 0 for a continuation (R110). -/
def firstFlag (f : Framing) : Bool := f == .framed

/-- `reuseFraming = 1 - isFirstInSequence` (R47, R111). -/
def reuseFlag (f : Framing) : Bool := !firstFlag f

/-- `payloadBitLength = 8 * len(payload)` in 32 bits (R110); a free value where that number needs more
(log 25). -/
def bitLength (n : Nat) : Word :=
  if 8 * n < 2 ^ 32 then BitVec.ofNat 32 (8 * n) else Config.longBitLength n

/-- A framed record: the command form with `0x02`, the data form with `0x32` (R112, R176, R201). -/
def framedTxn (cv : Byte) (av : BitVec 24) (p : List Byte) : Transaction where
  commandBits := cmdBitsFixed
  commandValue := cv.setWidth 16
  addressBits := addrBitsFixed
  addressValue := av.setWidth 32
  dummyBits := 0
  payload := p
  payloadBitLength := bitLength p.length
  isFirstInSequence := firstFlag .framed
  reuseFraming := reuseFlag .framed

/-- A continuation record (R112, R202). -/
def continuationTxn (p : List Byte) : Transaction where
  commandBits := 0
  commandValue := 0
  addressBits := 0
  addressValue := 0
  dummyBits := 0
  payload := p
  payloadBitLength := bitLength p.length
  isFirstInSequence := firstFlag .continuation
  reuseFraming := reuseFlag .continuation

/-- The record of a streamed chunk: framed data form while `framing = FRAMED`, a continuation after
(R200, R201, R202). -/
def chunkTxn (f : Framing) (p : List Byte) : Transaction :=
  match f with
  | .framed => framedTxn opcData addrStream p
  | .continuation => continuationTxn p

end Sys2Proof.Machine
end

