-- ==== Sys2Proof/Machine/Ops.lean ====
section
/-! DEFINITION. The named operations over the state that every request's meaning is built from: the event
trace, acceptance, responses, model faults (entry; the block has no return from one), chip select, the
bracket's opening, host memory reads, the TransferBuffer, and the submission of a transaction. -/

namespace Sys2Proof.Machine

/-! ### Trace and host port -/

/-- `emit(e)` appends an event to the trace (R12, R60). -/
def State.emit (s : State) (e : Event) : State := { s with trace := s.trace ++ [e] }

/-- `req_ready`, equal to `seq = IDLE` (R50). -/
def State.reqReady (s : State) : Bool := s.seq == .idle

/-- `fault_out` equals the `fault` register (R56). -/
def State.faultOut (s : State) : BitVec 3 := s.fault

/-- Acceptance of the descriptor `d` that stands on the request port, `rest` being what the host
presents after it (R41, R50): latch it, emit ACCEPT, `seq <- BUSY`; `rsp_valid` is a pulse (R51). -/
def State.accept (s : State) (d : Desc) (rest : List Desc) : State :=
  { s with
    env := { s.env with requests := rest }
    desc := d
    seq := .busy
    waiting := .nothing
    rsp := { s.rsp with valid := false }
    trace := s.trace ++ [.accept d] }

/-! ### Responses and faults (R260, R261, R266, R268) -/

/-- The fault codes of R266. -/
def FaultCode.code (c : FaultCode) : BitVec 3 :=
  match c with
  | .illegalRequest => 1
  | .notReady => 2
  | .reopen => 3
  | .badPin => 4
  | .srcMisaligned => 5
  | .srcAlias => 6

/-- The status codes of R260. -/
def Status.code (c : Status) : BitVec 2 :=
  match c with
  | .ok => 0
  | .initError => 1
  | .transportError => 2

/-- The cause codes of R261. -/
def InitCause.code (c : InitCause) : Word :=
  match c with
  | .csPinInvalid => 1
  | .busInitFailed => 2
  | .allocFailed => 3
  | .deviceRegFailed => 4

/-- `raise Fault(code)`, the one way the block takes an exception (R266, R268): record the code in the
sticky register, emit FAULT, `seq <- HALTED`, no response. Nothing is saved and nothing else changes;
there is no vector and no return (R268, R269). -/
def State.raiseFault (s : State) (c : FaultCode) : State :=
  { s with fault := c.code, seq := .halted, trace := s.trace ++ [.fault c.code] }

/-- The response's event: write the response registers, emit RSP (R45, R51, R60). -/
def State.giveResponse (s : State) (st : Status) (i0 i1 : Word) : State :=
  { s with
    rsp := { valid := true, status := st.code, info0 := i0, info1 := i1 }
    trace := s.trace ++ [.rsp st.code i0 i1] }

/-- The end of an answered request: `seq <- IDLE` (R31, R41). It leaves `rsp_valid` as the response set it.
DESIGN CHOICE (log 19): in the one-event machine the pulse lasts until the next ACCEPT. -/
def State.returnIdle (s : State) : State := { s with seq := .idle }

/-- `return Status(s, i0, i1)` (R12): the response, then `seq <- IDLE`. R41 says that the response sets
`seq <- IDLE`, R31 that the step after a request's last event returns it to IDLE. DESIGN CHOICE (log 1):
both are read as one response in two moments, RSP first and `seq <- IDLE` after it. A request's meaning,
and so `step`, takes both together; in the one-event machine they are two ticks, with `seq` still BUSY in
between. -/
def State.respond (s : State) (st : Status) (i0 i1 : Word) : State :=
  (s.giveResponse st i0 i1).returnIdle

/-- The response of an `open` that fails: `mode <- FAILED` for good, and RSP with its cause (R149, R261). -/
def State.giveInitError (s : State) (c : InitCause) : State :=
  ({ s with mode := .failed }).giveResponse .initError c.code 0

/-- An InitError of `open`, whole (R149, R261). -/
def State.initError (s : State) (c : InitCause) : State := (s.giveInitError c).returnIdle

/-! ### Chip select (R143, R150, R151, R275) -/

/-- `SET_ADDR[bank]` (R8), the number of an `ADDR_W`-bit address (log 15). -/
def setAddr (p : Params) (b : Bank) : Nat :=
  match b with
  | .low => p.setLow.toNat
  | .high => p.setHigh.toNat

/-- `CLR_ADDR[bank]` (R8), the number of an `ADDR_W`-bit address (log 15). -/
def clrAddr (p : Params) (b : Bank) : Nat :=
  match b with
  | .low => p.clrLow.toNat
  | .high => p.clrHigh.toNat

/-- One bank under a register write: write-one-to-set at `sa`, write-one-to-clear at `ca` (R79, R275). -/
def bankWrite (sa ca addr : Nat) (mask bank : Word) : Word :=
  let afterSet := if addr = sa then bank ||| mask else bank
  if addr = ca then afterSet &&& ~~~mask else afterSet

/-- The platform's answer to `regWrite32(addr, mask)` (R55, R79, R275; log 11). -/
def Platform.regWrite (pl : Platform) (p : Params) (addr : Nat) (mask : Word) : Platform :=
  { low := bankWrite (setAddr p .low) (clrAddr p .low) addr mask pl.low
    high := bankWrite (setAddr p .high) (clrAddr p .high) addr mask pl.high }

/-- `regWrite32(addr, mask)` and its event (R12, R55). -/
def State.regWrite32 (s : State) (addr : Nat) (mask : Word) : State :=
  { s with
    platform := s.platform.regWrite s.params addr mask
    trace := s.trace ++ [.regWrite addr mask] }

/-- The register that drives chip select active: the clear register when `CS_ACTIVE_LOW` (R150). -/
def State.assertAddr (s : State) : Nat :=
  if s.params.csActiveLow then s.pins.csClrAddr else s.pins.csSetAddr

/-- The register that drives chip select inactive: the set register when `CS_ACTIVE_LOW` (R151). -/
def State.deassertAddr (s : State) : Nat :=
  if s.params.csActiveLow then s.pins.csSetAddr else s.pins.csClrAddr

/-- The logical level of chip select changes, with its event (R34, R60). -/
def State.setLevel (s : State) (level : CsLevel) : State := ({ s with cs := level }).emit (.cs level)

/-- The register write of a chip-select primitive, and the level after it (R150, R151). -/
def State.driveSelect (s : State) (addr : Nat) (level : CsLevel) : State :=
  (s.regWrite32 addr s.pins.csMask).setLevel level

/-- `AssertSelect()` (R150). -/
def State.assertSelect (s : State) : State := s.driveSelect s.assertAddr .asserted

/-- `DeassertSelect()` (R151). -/
def State.deassertSelect (s : State) : State := s.driveSelect s.deassertAddr .deasserted

/-- The opening of a bracket: `AssertSelect()`, `framing <- FRAMED`, `txDone <- 0` (R152). -/
def State.enterBracket (s : State) : State :=
  { s.assertSelect with framing := .framed, plan := { s.plan with txDone := 0 } }

/-! ### Host memory (R53, R72) -/

/-- The byte a memory lists at an address; none when it lists none. -/
def Memory.lookup (m : Memory) (a : Nat) : Option Byte :=
  match m with
  | [] => none
  | (x, b) :: rest => if x = a then some b else Memory.lookup rest a

/-- The canonical form: addresses strictly rising. An unlisted address reads as no value, so no entry
equals what an unlisted address reads as. -/
def Memory.wf (m : Memory) : Bool :=
  match m with
  | [] => true
  | (x, _) :: rest => (match rest with | [] => true | (y, _) :: _ => decide (x < y)) && Memory.wf rest

/-- Memory with the byte at one address set: how the host places its source (the block itself never
writes host memory, R53). -/
def Memory.store (m : Memory) (a : Nat) (b : Byte) : Memory :=
  match m with
  | [] => [(a, b)]
  | (x, c) :: rest =>
    if a < x then (a, b) :: (x, c) :: rest
    else if a = x then (a, b) :: rest
    else (x, c) :: Memory.store rest a b

/-- `MemRead(a, 1)` (R72): the byte at `a`; none when host memory does not admit the read, which every
address of `2^ADDR_W` or more is not. -/
def Memory.read8 (m : Memory) (addrW a : Nat) : Option Byte :=
  if a < 2 ^ addrW then Memory.lookup m a else none

/-- `MemRead(a, 2) = M[a] | (M[a+1] << 8)` (R72), admitted when both bytes are. -/
def Memory.read16 (m : Memory) (addrW a : Nat) : Option Half :=
  match Memory.read8 m addrW a, Memory.read8 m addrW (a + 1) with
  | some b0, some b1 => some (half b0 b1)
  | _, _ => none

/-- The bytes `MemRead(a + j, 1)` for `j` in `0 .. n-1`, in ascending order, up to the first that is not
admitted (R231). -/
def Memory.bytesFrom (m : Memory) (addrW a n : Nat) : List Byte :=
  match n with
  | 0 => []
  | k + 1 =>
    match Memory.read8 m addrW a with
    | none => []
    | some b => b :: Memory.bytesFrom m addrW (a + 1) k

/-- The words `MemRead(a + 2*i, 2)` for `i` in `0 .. n-1`, in ascending order, up to the first that is
not admitted (R221). -/
def Memory.wordsFrom (m : Memory) (addrW a n : Nat) : List Half :=
  match n with
  | 0 => []
  | k + 1 =>
    match Memory.read16 m addrW a with
    | none => []
    | some w => w :: Memory.wordsFrom m addrW (a + 2) k

/-! ### The TransferBuffer (R40) -/

/-- The `n` bytes of a fresh buffer from offset `j`: free values (R40, D34; log 8). -/
def freshBuf (j n : Nat) : List Byte :=
  match n with
  | 0 => []
  | k + 1 => Config.freshBufByte j :: freshBuf (j + 1) k

/-- The buffer after its bytes `0 .. bs.length-1` are written with `bs`. -/
def overwrite (buf bs : List Byte) : List Byte := bs ++ buf.drop bs.length

/-- `BufB(n)`, the list of the buffer's bytes `0 .. n-1` (R12). -/
def State.bufB (s : State) (n : Nat) : List Byte := s.buf.take n

/-- `Buf[i]`, whose bits 7:0 are `BufB[2i]` and bits 15:8 `BufB[2i+1]` (R40); none outside the buffer. -/
def State.bufWord (s : State) (i : Nat) : Option Half :=
  match s.buf[2 * i]?, s.buf[2 * i + 1]? with
  | some b0, some b1 => some (half b0 b1)
  | _, _ => none

/-! ### Runs of a body -/

/-- How far a body of a bracket, or the bracket itself, has come: ended Ok, ended Err, or waiting for
ever inside (a hang, R263, or a source read that is not admitted, R267). -/
inductive Run where
  | ok (s : State)
  | err (s : State)
  | blocked (s : State)
  deriving DecidableEq, Repr

/-- The state a run has reached. -/
def Run.state (r : Run) : State :=
  match r with
  | .ok s => s
  | .err s => s
  | .blocked s => s

/-! ### Submission (R12, R57, R263) -/

/-- The data-phase lane mode of a framed transaction (R57, R8 `LANES`; D13). -/
def dataLanes (p : Params) (commandValue : Half) : LaneCount :=
  if commandValue = opcData.setWidth 16 then p.lanes.cmd32.data else p.lanes.cmd02.data

/-- What the bus driver retains once a record is submitted: a framed one replaces it, a continuation
leaves it (R57). -/
def retainedAfter (p : Params) (t : Transaction) (before : Option LaneCount) : Option LaneCount :=
  if t.isFirstInSequence then some (dataLanes p t.commandValue) else before

/-- `Submit(T)` (R12, R263): hand the record to the bus driver, emit TXN, and wait for the draw. After
an Err what the driver retains is a free value (93 U20, log 9); with no draw left it never answers. -/
def State.submit (s : State) : Run :=
  let held := retainedAfter s.params s.txn s.retained
  match s.env.submits with
  | [] =>
    .blocked ({ s with retained := held, waiting := .busDriver }.emit (.txn s.txn none))
  | .ok :: rest =>
    .ok ({ s with retained := held, env := { s.env with submits := rest } }.emit (.txn s.txn (some .ok)))
  | .err n :: rest =>
    .err ({ s with
        retained := Config.retainedAfterErr s.frees
        frees := s.frees + 1
        env := { s.env with submits := rest } }.emit (.txn s.txn (some (.err n))))

/-! ### Admission of the write operations (R265) -/

/-- A write operation runs in mode READY and raises NOT_READY in any other (R265). -/
def whenReady (s : State) (run : State → State) : Host.Outcome State Fault Refusal :=
  if s.mode = .ready then .next (run s) else .next (s.raiseFault .notReady)

/-- The source checks of R206 on the `len` bytes at `ptr`: none for an empty range; alignment first, for
`writePixelStream` alone; then overlap with the TransferBuffer. -/
def State.sourceFault (s : State) (aligned : Bool) (ptr : Word) (len : Nat) : Option FaultCode :=
  if len = 0 then none
  else if aligned && ptr.getLsbD 0 then some .srcMisaligned
  else if ptr.toNat < s.bufBase + capBytes s.params ∧ s.bufBase < ptr.toNat + len then some .srcAlias
  else none

end Sys2Proof.Machine
end

