-- ==== Sys2Proof/Machine/Stream.lean ====
section
/-! DEFINITION. The chunk loop shared by the streamed operations (spec/42_chunked_planner.md R200 to R208)
and the three buffer fills (R211, R221, R231). -/

namespace Sys2Proof.Machine

/-- The buffer fill of a streamed operation: `writeRepeated` fills once before its loop and skips here
(R210); `PixelFill` (R221); `ByteFill` (R231). -/
inductive Fill where
  | reuse
  | pixel
  | byte
  deriving DecidableEq, Repr

/-- `capElems`: `CAP` for word streams, `CAP_BYTES` for byte streams (R200). -/
def Fill.capElems (f : Fill) (p : Params) : Nat :=
  match f with
  | .reuse => capWords p
  | .pixel => capWords p
  | .byte => capBytes p

/-- `elemBytes`: 2 for word streams, 1 for byte streams (R200). -/
def Fill.elemBytes (f : Fill) : Nat :=
  match f with
  | .reuse => 2
  | .pixel => 2
  | .byte => 1

/-- The bytes a fill of `n` elements writes from offset 0 of the buffer: the normalized words or the raw
bytes of the source, up to the first read that is not admitted (R221, R231, R241). -/
def Fill.sourceBytes (f : Fill) (s : State) (n : Nat) : List Byte :=
  match f with
  | .reuse => []
  | .pixel => wordsLE ((s.env.mem.wordsFrom s.params.addrW s.plan.srcAddr n).map normalize)
  | .byte => s.env.mem.bytesFrom s.params.addrW s.plan.srcAddr n

/-- A source fill: write what could be read; when all `n` elements could, advance `srcAddr`; else the
engine is stuck at the read that was not admitted, with the words before it written (R221, R231, R267;
log 16). -/
def Fill.fromSource (f : Fill) (s : State) (n : Nat) : Run :=
  let bs := f.sourceBytes s n
  let written := { s with buf := overwrite s.buf bs }
  if bs.length = n * f.elemBytes then
    .ok { written with plan := { s.plan with srcAddr := s.plan.srcAddr + n * f.elemBytes } }
  else .blocked { written with waiting := .hostMemory }

/-- `fill(n)` of R200. -/
def Fill.run (f : Fill) (s : State) (n : Nat) : Run :=
  match f with
  | .reuse => .ok s
  | .pixel => Fill.fromSource .pixel s n
  | .byte => Fill.fromSource .byte s n

/-- `T <- Framed(p)` or `Continuation(p)` with `p = BufB(n * elemBytes)` (R200). -/
def State.loadChunk (s : State) (f : Fill) (n : Nat) : State :=
  { s with txn := chunkTxn s.framing (s.bufB (n * f.elemBytes)) }

/-- What an Ok answer does in the loop: `txDone`, `framing`, `remaining` (R200). -/
def State.chunkDone (s : State) : State :=
  { s with
    framing := .continuation
    plan := { s.plan with
      txDone := s.plan.txDone + 1
      remaining := s.plan.remaining - s.plan.chunk } }

/-- `chunk <- min(remaining, capElems)` (R200). -/
def State.setChunk (s : State) (f : Fill) : State :=
  { s with plan := { s.plan with
      chunk := BitVec.ofNat 32 (min s.plan.remaining.toNat (f.capElems s.params)) } }

/-- The `while remaining > 0` loop of R200. The first argument bounds the iterations; since every one
takes at least one element, `remaining` itself is bound enough (R205; log 25). -/
def streamLoop (f : Fill) : Nat → State → Run
  | 0, s => .ok s
  | bound + 1, s =>
    if s.plan.remaining = 0 then .ok s
    else
      match f.run (s.setChunk f) (s.setChunk f).plan.chunk.toNat with
      | .ok filled =>
        match (filled.loadChunk f filled.plan.chunk.toNat).submit with
        | .ok answered => streamLoop f bound answered.chunkDone
        | .err answered => .err answered
        | .blocked waiting => .blocked waiting
      | .err filled => .err filled
      | .blocked stuck => .blocked stuck

/-- `Stream(total, capElems, elemBytes, fill)` (R200). -/
def stream (f : Fill) (total : Word) (s : State) : Run :=
  streamLoop f total.toNat { s with plan := { s.plan with remaining := total } }

/-- `filled <- min(count, CAP)` and the one fill of `writeRepeated` (R210, R211): words
`0 .. filled-1` of the buffer hold `normalize(value)`. -/
def State.fillRepeated (s : State) (value : Half) (count : Word) : State :=
  let filled := min count.toNat (capWords s.params)
  { s with
    plan := { s.plan with filled := BitVec.ofNat 32 filled }
    buf := overwrite s.buf (wordsLE (List.replicate filled (normalize value))) }

/-- `srcAddr <- ptr` (R220, R230, R235). -/
def State.setSource (s : State) (ptr : Word) : State :=
  { s with plan := { s.plan with srcAddr := ptr.toNat } }

end Sys2Proof.Machine
end

