-- ==== Sys2Proof/Machine/Bracket.lean ====
section
/-! DEFINITION. The session bracket every write runs its body inside (spec/40_bus_session.md R152 to R157),
the bodies themselves, and the response of a bracketed operation. -/

namespace Sys2Proof.Machine

/-- The body of a bracket: one single-shot transaction (R176) or one stream (R210, R220, R230). One
bracket carries the transactions of one operation (R237). -/
inductive Body where
  | single (cv : Byte) (av : BitVec 24) (payload : List Byte)
  | repeated (value : Half) (count : Word)
  | pixels (ptr : Word) (count : Word)
  | bytes (ptr : Word) (count : Word)
  deriving DecidableEq, Repr

/-- `if r = Ok: txDone <- 1` of the single-shot body (R176). -/
def State.singleDone (s : State) : State := { s with plan := { s.plan with txDone := 1 } }

/-- `body()` (R152): what the operation does between the two chip-select edges. -/
def Body.run (b : Body) (s : State) : Run :=
  match b with
  | .single cv av payload =>
    match ({ s with txn := framedTxn cv av payload }).submit with
    | .ok answered => .ok answered.singleDone
    | .err answered => .err answered
    | .blocked waiting => .blocked waiting
  | .repeated value count => stream .reuse count (s.fillRepeated value count)
  | .pixels ptr count => stream .pixel count (s.setSource ptr)
  | .bytes ptr count => stream .byte count (s.setSource ptr)

/-- `Bracket(body)` (R152): chip select is deasserted whether the body ends Ok or Err; a body that
blocks for ever leaves it asserted (R154). -/
def bracket (b : Body) (s : State) : Run :=
  match b.run s.enterBracket with
  | .ok ended => .ok ended.deassertSelect
  | .err ended => .err ended.deassertSelect
  | .blocked waiting => .blocked waiting

/-- The response of a bracketed operation whose body ended Ok or Err (R157, R207). -/
def State.giveWriteResponse (s : State) (ok : Bool) : State :=
  if ok then s.giveResponse .ok 0 0 else s.giveResponse .transportError s.plan.txDone 0

/-- The end of a bracketed operation, after `DeassertSelect()` (R157, R207, R268). -/
def finishWrite (r : Run) : State :=
  match r with
  | .ok s => (s.giveWriteResponse true).returnIdle
  | .err s => (s.giveWriteResponse false).returnIdle
  | .blocked s => s

end Sys2Proof.Machine
end

