-- ==== Sys2Proof/Machine/Encoder.lean ====
section
/-! DEFINITION. The Command Encoder's single-shot operations (spec/41_command_encoder.md R170 to R179):
each is one call of `SingleShot` with its own command value, address value and payload. -/

namespace Sys2Proof.Machine

/-- `SingleShot(cv, av, p)` (R176), in mode READY (R265). -/
def singleShot (cv : Byte) (av : BitVec 24) (payload : List Byte) (s : State) :
    Host.Outcome State Fault Refusal :=
  whenReady s fun s => finishWrite (bracket (.single cv av payload) s)

/-- `writeCommand(c)` (R170). -/
def execWriteCommand (c : Byte) (s : State) : Host.Outcome State Fault Refusal :=
  singleShot opcCmd (cmdAddr8 c) [] s

/-- `writeCommand16(w)` (R171). -/
def execWriteCommand16 (w : Half) (s : State) : Host.Outcome State Fault Refusal :=
  singleShot opcCmd (cmdAddr16 w) [] s

/-- `writeByte(b)` (R172). -/
def execWriteByte (b : Byte) (s : State) : Host.Outcome State Fault Refusal :=
  singleShot opcData addrSingle [b] s

/-- `writeWord(w)` (R173). -/
def execWriteWord (w : Half) (s : State) : Host.Outcome State Fault Refusal :=
  singleShot opcData addrSingle (be16 w) s

/-- `writeCommandWithBytes(c, b)` (R174). -/
def execWriteCommandWithBytes (c b : Byte) (s : State) : Host.Outcome State Fault Refusal :=
  singleShot opcCmd (cmdAddr8 c) [b] s

/-- `writeCommandWithWords(c, w1, w2)` (R175). -/
def execWriteCommandWithWords (c : Byte) (w1 w2 : Half) (s : State) :
    Host.Outcome State Fault Refusal :=
  singleShot opcCmd (cmdAddr8 c) (be16 w1 ++ be16 w2) s

end Sys2Proof.Machine
end

