-- ==== Sys2Proof/Machine/Illegal.lean ====
section
/-! DEFINITION. The opcode table's reserved rows and every descriptor the decoder refuses: the fault
ILLEGAL_REQUEST with no other effect, in any mode (spec/30_encoding.md R105, R106;
spec/60_exceptions.md R265, R266). -/

namespace Sys2Proof.Machine

/-- A refused descriptor (R105). -/
def refuseRequest (s : State) : Host.Outcome State Fault Refusal :=
  .next (s.raiseFault .illegalRequest)

/-- The row OP 0xB (R106). The header's other bits change nothing. -/
def execReservedB (_low : BitVec 28) (s : State) : Host.Outcome State Fault Refusal := refuseRequest s

/-- The row OP 0xC to 0xF (R106). The header's other bits change nothing. -/
def execReservedCtoF (_low : BitVec 30) (s : State) : Host.Outcome State Fault Refusal := refuseRequest s

end Sys2Proof.Machine
end

