-- ==== Sys2Proof/Machine/Planner.lean ====
section
/-! DEFINITION. The Chunked Transfer Planner's operations (spec/42_chunked_planner.md R204, R206, R210 to
R237). -/

namespace Sys2Proof.Machine

/-- `writeRepeated(value, count)` (R210). -/
def execWriteRepeated (value : Half) (count : Word) (s : State) : Host.Outcome State Fault Refusal :=
  whenReady s fun s =>
    if count = 0 then s.respond .ok 0 0
    else finishWrite (bracket (.repeated value count) s)

/-- `writePixelStream(ptr, count)` (R220). -/
def execWritePixelStream (ptr count : Word) (s : State) : Host.Outcome State Fault Refusal :=
  whenReady s fun s =>
    if count = 0 then s.respond .ok 0 0
    else
      match s.sourceFault true ptr (2 * count.toNat) with
      | some c => s.raiseFault c
      | none => finishWrite (bracket (.pixels ptr count) s)

/-- `writeByteStream(ptr, count)` (R230). -/
def execWriteByteStream (ptr count : Word) (s : State) : Host.Outcome State Fault Refusal :=
  whenReady s fun s =>
    if count = 0 then s.respond .ok 0 0
    else
      match s.sourceFault false ptr count.toNat with
      | some c => s.raiseFault c
      | none => finishWrite (bracket (.bytes ptr count) s)

/-- `repDone <- repDone + 1` (R235). -/
def State.repetitionDone (s : State) : State :=
  { s with plan := { s.plan with repDone := s.plan.repDone + 1 } }

/-- The repetitions of `writePattern`: each is the bracket of `writeByteStream(ptr, patternLen)`, and
none starts after an Err (R235, R236). -/
def patternLoop (ptr patternLen : Word) : Nat → State → Run
  | 0, s => .ok s
  | left + 1, s =>
    match bracket (.bytes ptr patternLen) s with
    | .ok ended => patternLoop ptr patternLen left ended.repetitionDone
    | .err ended => .err ended
    | .blocked waiting => .blocked waiting

/-- The single response of `writePattern`, with the repetitions done (R235, R260). -/
def State.givePatternResponse (s : State) (ok : Bool) : State :=
  if ok then s.giveResponse .ok 0 s.plan.repDone
  else s.giveResponse .transportError s.plan.txDone s.plan.repDone

/-- The end of `writePattern`, after its last `DeassertSelect()` (R235). -/
def finishPattern (r : Run) : State :=
  match r with
  | .ok s => (s.givePatternResponse true).returnIdle
  | .err s => (s.givePatternResponse false).returnIdle
  | .blocked s => s

/-- `writePattern(ptr, patternLen, repeatCount)` (R235). -/
def execWritePattern (ptr patternLen repeatCount : Word) (s : State) :
    Host.Outcome State Fault Refusal :=
  whenReady s fun s =>
    if repeatCount = 0 ∨ patternLen = 0 then s.respond .ok 0 repeatCount
    else
      match s.sourceFault false ptr patternLen.toNat with
      | some c => s.raiseFault c
      | none =>
        finishPattern (patternLoop ptr patternLen repeatCount.toNat
          { s with plan := { s.plan with repDone := 0 } })

end Sys2Proof.Machine
end

