-- ==== Sys2Proof/Machine/Session.lean ====
section
/-! DEFINITION. `open`, the one system operation, in its seven steps (spec/40_bus_session.md R140 to
R149). -/

namespace Sys2Proof.Machine

/-- The register bank a chip-select pin selects (R142). -/
def pinBank (p : Params) (cs : Nat) : Bank := if cs < p.bankThreshold then .low else .high

/-- The first pin index of a bank, the `base` of R142. -/
def bankBase (p : Params) (b : Bank) : Nat :=
  match b with
  | .low => 0
  | .high => p.bankThreshold

/-- The bit of the chip-select pin in its bank, `cs - base` (R142). -/
def pinBit (p : Params) (cs : Nat) : Nat := cs - bankBase p (pinBank p cs)

/-- The second step of `open`: PinBinding (R142). -/
def State.bindPins (s : State) : State :=
  { s with pins :=
    { csPin := s.cfg.cs
      sckPin := s.cfg.sck
      d0Pin := s.cfg.d0
      d1Pin := s.cfg.d1
      d2Pin := s.cfg.d2
      d3Pin := s.cfg.d3
      csBank := pinBank s.params s.cfg.cs.toNat
      csMask := 1 <<< pinBit s.params s.cfg.cs.toNat
      csSetAddr := setAddr s.params (pinBank s.params s.cfg.cs.toNat)
      csClrAddr := clrAddr s.params (pinBank s.params s.cfg.cs.toNat) } }

/-- The third step: the CS pin becomes an output and is driven deasserted, by the register write and the
level change that `DeassertSelect()` makes too (R143, R151). -/
def State.configureCsPin (s : State) : State :=
  (s.emit (.pinCfg s.pins.csPin)).deassertSelect

/-- The fourth step: a negative configuration value means the default (R144). -/
def State.resolveTransferConfig (s : State) : State :=
  { s with xfer :=
    { clockSpeed := if negative32 s.cfg.clock then s.params.defaultClock else s.cfg.clock
      spiMode := if negative8 s.cfg.mode then s.params.defaultSpiMode else s.cfg.mode } }

/-- DeviceFraming (R36). -/
def deviceFraming (p : Params) : DeviceFraming where
  cmdBits := cmdBitsFixed
  addrBits := addrBitsFixed
  halfDuplex := true
  queueDepth := p.queueDepth.val

/-- The arguments of `initializeBus` (R54, R145). -/
def State.busInitArgs (s : State) : BusInitArgs where
  sckPin := s.pins.sckPin
  d0Pin := s.pins.d0Pin
  d1Pin := s.pins.d1Pin
  d2Pin := s.pins.d2Pin
  d3Pin := s.pins.d3Pin
  maxTransferSize := capBytes s.params
  flags := s.params.busFlags
  clockSpeed := s.xfer.clockSpeed
  spiMode := s.xfer.spiMode

/-- The seventh step and the completion: `registerDevice`, then `mode <- READY` (R147, R148). -/
def State.openDevice (s : State) : State :=
  let told := s.emit (.devReg (deviceFraming s.params) s.env.devReg)
  match s.env.devReg with
  | none => told.initError .deviceRegFailed
  | some handle => ({ told with deviceHandle := some handle, mode := .ready }).respond .ok 0 0

/-- The allocator's answer: an address is `ADDR_W` bits wide (R8, R38, R54), so a number drawn for one is
read modulo `2^ADDR_W` (log 15). -/
def State.allocAnswer (s : State) : Option Nat := s.env.alloc.map (· % 2 ^ s.params.addrW)

/-- The buffer the allocator gave, its contents unspecified (R38, R40, R146, D34). -/
def State.holdBuffer (s : State) (base : Nat) : State :=
  { s with bufBase := base, bufAllocated := true, buf := freshBuf 0 (capBytes s.params) }

/-- The sixth step: the TransferBuffer is allocated (R146). -/
def State.openBuffer (s : State) : State :=
  let told := s.emit (.alloc (capBytes s.params) s.allocAnswer)
  match s.allocAnswer with
  | none => told.initError .allocFailed
  | some base => State.openDevice (told.holdBuffer base)

/-- The fifth step: `initializeBus` (R145). -/
def State.openBus (s : State) : State :=
  let told := s.emit (.busInit s.busInitArgs s.env.busInit)
  match s.env.busInit with
  | none => told.initError .busInitFailed
  | some ctx => State.openBuffer { told with busContext := some ctx }

/-- `open` (R140): the mode check, the validation of the chip-select pin (R141), then the steps. -/
def execOpen (s : State) : Host.Outcome State Fault Refusal :=
  if s.mode ≠ .uninit then .next (s.raiseFault .reopen)
  else if negative8 s.cfg.cs then .next (s.initError .csPinInvalid)
  else if s.params.numPins ≤ s.cfg.cs.toNat ∨ 32 ≤ pinBit s.params s.cfg.cs.toNat then
    .next (s.raiseFault .badPin)
  else .next s.bindPins.configureCsPin.resolveTransferConfig.openBus

end Sys2Proof.Machine
end

