-- ==== Sys2Proof/Machine/Dispatch.lean ====
section
/-! DEFINITION. One arm for each constructor of `Instr`. -/

namespace Sys2Proof.Machine

def exec (i : Instr) (s : State) : Host.Outcome State Fault Refusal :=
  match i with
  | .openEngine => Sys2Proof.Machine.execOpen s
  | .writeCommand c => Sys2Proof.Machine.execWriteCommand c s
  | .writeCommand16 w => Sys2Proof.Machine.execWriteCommand16 w s
  | .writeByte b => Sys2Proof.Machine.execWriteByte b s
  | .writeWord w => Sys2Proof.Machine.execWriteWord w s
  | .writeCommandWithBytes c b => Sys2Proof.Machine.execWriteCommandWithBytes c b s
  | .writeCommandWithWords c w1 w2 => Sys2Proof.Machine.execWriteCommandWithWords c w1 w2 s
  | .writeRepeated value count => Sys2Proof.Machine.execWriteRepeated value count s
  | .writePixelStream ptr count => Sys2Proof.Machine.execWritePixelStream ptr count s
  | .writeByteStream ptr count => Sys2Proof.Machine.execWriteByteStream ptr count s
  | .writePattern ptr len reps => Sys2Proof.Machine.execWritePattern ptr len reps s
  | .reservedB low => Sys2Proof.Machine.execReservedB low s
  | .reservedCtoF low => Sys2Proof.Machine.execReservedCtoF low s

end Sys2Proof.Machine
end

