-- ==== Sys2Proof/WellFormed.lean ====
section
/-! DEFINITION. Which requests are well formed: every operand fits its field by its type, and the pointer
of the three source operations fits `ADDR_W` bits (spec/30_encoding.md R102, R105). -/

namespace Sys2Proof

/-- `PTR[31:ADDR_W] = 0`, which R105 asks of OP 0x8, 0x9 and 0xA (for `ADDR_W >= 32` it holds of every
word). -/
abbrev fitsAddr (addrW : Nat) (ptr : Word) : Prop := ptr.toNat < 2 ^ addrW

/-- The well-formed requests of an implementation with `ADDR_W = addrW`. -/
def Instr.WellFormed (addrW : Nat) (i : Instr) : Bool :=
  match i with
  | .openEngine => true
  | .writeCommand _ => true
  | .writeCommand16 _ => true
  | .writeByte _ => true
  | .writeWord _ => true
  | .writeCommandWithBytes _ _ => true
  | .writeCommandWithWords _ _ _ => true
  | .writeRepeated _ _ => true
  | .writePixelStream ptr _ => decide (fitsAddr addrW ptr)
  | .writeByteStream ptr _ => decide (fitsAddr addrW ptr)
  | .writePattern ptr _ _ => decide (fitsAddr addrW ptr)
  | .reservedB _ => true
  | .reservedCtoF _ => true

end Sys2Proof
end

