-- ==== Sys2Proof/Decode.lean ====
section
/-! DEFINITION. The request descriptor and its decoder (spec/30_encoding.md R100 to R106), then the encoder
written from the same layout (R101, R104, R130) and the opcode table's rows. -/

namespace Sys2Proof

/-! ### The descriptor's words and the header's fields (R100, R101) -/

/-- Word 0, bits 31:0 (R100). -/
def hdr (d : Desc) : Word := d.extractLsb' 0 32
/-- Word 1, bits 63:32 (R100). -/
def arg1 (d : Desc) : Word := d.extractLsb' 32 32
/-- Word 2, bits 95:64 (R100). -/
def ptrWord (d : Desc) : Word := d.extractLsb' 64 32
/-- Word 3, bits 127:96 (R100). -/
def arg2 (d : Desc) : Word := d.extractLsb' 96 32

/-- The descriptor of four words (R50, R100). -/
def descOf (h a1 p a2 : Word) : Desc := a2 ++ p ++ a1 ++ h

/-- `OP = HDR[31:28]` (R101). -/
def opField (h : Word) : BitVec 4 := h.extractLsb' 28 4
/-- `RSV = HDR[27:24]` (R101). -/
def rsvField (h : Word) : BitVec 4 := h.extractLsb' 24 4
/-- `C8 = HDR[23:16]` (R101). -/
def c8Field (h : Word) : Byte := h.extractLsb' 16 8
/-- `V16 = HDR[15:0]` (R101). -/
def v16Field (h : Word) : Half := h.extractLsb' 0 16
/-- `HDR[15:8]`, the high byte of `V16` (R105). -/
def v16High (h : Word) : Byte := h.extractLsb' 8 8
/-- `HDR[7:0]`, the low byte of `V16` (R102). -/
def v16Low (h : Word) : Byte := h.extractLsb' 0 8

/-- The header of its four fields (R101). -/
def hdrOf (op rsv : BitVec 4) (c8 : Byte) (v16 : Half) : Word := op ++ rsv ++ c8 ++ v16

/-! ### Decoding (R105) -/

/-- Why R105 refuses a descriptor. Every one of them raises ILLEGAL_REQUEST (R266). -/
inductive Reject where
  /-- `HDR[27:24] != 0`. -/
  | reservedField
  /-- `PTR[31:ADDR_W] != 0` for an operation with a source pointer. -/
  | pointerTooWide
  /-- A header bit that the operation does not use is set. -/
  | unusedHeaderBits
  /-- `ARG1[31:16] != 0` for `writeCommandWithWords`. -/
  | arg1HighHalf
  deriving DecidableEq, Repr

/-- The answer of the decoder: one request, or a named rejection. -/
inductive Decoded where
  | request (i : Instr)
  | rejected (why : Reject)
  deriving DecidableEq, Repr

/-- One `if <bits> != 0: refuse` of R105. -/
def refuseUnless (ok : Bool) (why : Reject) (i : Instr) : Decoded :=
  if ok then .request i else .rejected why

/-- The `case op of` of R105, after the checks on `HDR[27:24]` and on the pointer. -/
def decodeOp (h a1 p a2 : Word) : Decoded :=
  match (opField h).toNat with
  | 0x0 => refuseUnless (c8Field h == 0 && v16Field h == 0) .unusedHeaderBits .openEngine
  | 0x1 => refuseUnless (v16Field h == 0) .unusedHeaderBits (.writeCommand (c8Field h))
  | 0x2 => refuseUnless (c8Field h == 0) .unusedHeaderBits (.writeCommand16 (v16Field h))
  | 0x3 => refuseUnless (c8Field h == 0 && v16High h == 0) .unusedHeaderBits (.writeByte (v16Low h))
  | 0x4 => refuseUnless (c8Field h == 0) .unusedHeaderBits (.writeWord (v16Field h))
  | 0x5 => refuseUnless (v16High h == 0) .unusedHeaderBits (.writeCommandWithBytes (c8Field h) (v16Low h))
  | 0x6 => refuseUnless (a1.extractLsb' 16 16 == 0) .arg1HighHalf
      (.writeCommandWithWords (c8Field h) (v16Field h) (a1.extractLsb' 0 16))
  | 0x7 => refuseUnless (c8Field h == 0) .unusedHeaderBits (.writeRepeated (v16Field h) a1)
  | 0x8 => refuseUnless (c8Field h == 0 && v16Field h == 0) .unusedHeaderBits (.writePixelStream p a1)
  | 0x9 => refuseUnless (c8Field h == 0 && v16Field h == 0) .unusedHeaderBits (.writeByteStream p a1)
  | 0xA => refuseUnless (c8Field h == 0 && v16Field h == 0) .unusedHeaderBits (.writePattern p a1 a2)
  | 0xB => .request (.reservedB (h.extractLsb' 0 28))
  | _ => .request (.reservedCtoF (h.extractLsb' 0 30))

/-- The operations that carry a source pointer (R105: `op in {0x8, 0x9, 0xA}`). -/
def hasPointer (op : BitVec 4) : Bool := op == 0x8 || op == 0x9 || op == 0xA

/-- The decoder of R105, total on every 128-bit value. The two reserved rows of the opcode table (R106)
decode to constructors of their own, whose meaning is the fault ILLEGAL_REQUEST; R105's test of
`HDR[27:24]` comes first for every other operation (log 14). -/
def decode (addrW : Nat) (d : Desc) : Decoded :=
  if (opField (hdr d)).toNat < 0xB ∧ rsvField (hdr d) ≠ 0 then .rejected .reservedField
  else if hasPointer (opField (hdr d)) ∧ ¬ fitsAddr addrW (ptrWord d) then .rejected .pointerTooWide
  else decodeOp (hdr d) (arg1 d) (ptrWord d) (arg2 d)

/-! ### Encoding (R101, R104, R130) -/

/-- The descriptor of a request; words and header bits the request does not use are 0 (R130). -/
def encode (i : Instr) : Desc :=
  match i with
  | .openEngine => descOf (hdrOf 0x0 0 0 0) 0 0 0
  | .writeCommand c => descOf (hdrOf 0x1 0 c 0) 0 0 0
  | .writeCommand16 w => descOf (hdrOf 0x2 0 0 w) 0 0 0
  | .writeByte b => descOf (hdrOf 0x3 0 0 (b.setWidth 16)) 0 0 0
  | .writeWord w => descOf (hdrOf 0x4 0 0 w) 0 0 0
  | .writeCommandWithBytes c b => descOf (hdrOf 0x5 0 c (b.setWidth 16)) 0 0 0
  | .writeCommandWithWords c w1 w2 => descOf (hdrOf 0x6 0 c w1) (w2.setWidth 32) 0 0
  | .writeRepeated value count => descOf (hdrOf 0x7 0 0 value) count 0 0
  | .writePixelStream ptr count => descOf (hdrOf 0x8 0 0 0) count ptr 0
  | .writeByteStream ptr count => descOf (hdrOf 0x9 0 0 0) count ptr 0
  | .writePattern ptr patternLen repeatCount => descOf (hdrOf 0xA 0 0 0) patternLen ptr repeatCount
  | .reservedB low => descOf ((0xB : BitVec 4) ++ low) 0 0 0
  | .reservedCtoF low => descOf ((0x3 : BitVec 2) ++ low) 0 0 0

/-! ### The opcode table (spec/opcode_table.json) -/

/-- One row of the table: `HDR & mask = value` (R104). -/
structure OpcodeRow where
  value : Word
  mask : Word
  deriving DecidableEq, Repr

/-- The row of the table that a request's constructor stands for. -/
def opcodeRow (i : Instr) : OpcodeRow :=
  match i with
  | .openEngine => ⟨0x00000000, 0xFFFFFFFF⟩
  | .writeCommand _ => ⟨0x10000000, 0xFF00FFFF⟩
  | .writeCommand16 _ => ⟨0x20000000, 0xFFFF0000⟩
  | .writeByte _ => ⟨0x30000000, 0xFFFFFF00⟩
  | .writeWord _ => ⟨0x40000000, 0xFFFF0000⟩
  | .writeCommandWithBytes _ _ => ⟨0x50000000, 0xFF00FF00⟩
  | .writeCommandWithWords _ _ _ => ⟨0x60000000, 0xFF000000⟩
  | .writeRepeated _ _ => ⟨0x70000000, 0xFFFF0000⟩
  | .writePixelStream _ _ => ⟨0x80000000, 0xFFFFFFFF⟩
  | .writeByteStream _ _ => ⟨0x90000000, 0xFFFFFFFF⟩
  | .writePattern _ _ _ => ⟨0xA0000000, 0xFFFFFFFF⟩
  | .reservedB _ => ⟨0xB0000000, 0xF0000000⟩
  | .reservedCtoF _ => ⟨0xC0000000, 0xC0000000⟩

/-- A header lies in a row. -/
def OpcodeRow.covers (r : OpcodeRow) (h : Word) : Bool := h &&& r.mask == r.value

/-- The descriptor whose low `nbits` bits are those of `w` and whose other bits are 0. -/
def descOfBits (nbits w : Nat) : Desc := BitVec.ofNat 128 (w % 2 ^ nbits)

/-- What the decoder reads from a request whose bits are `w`, `req_desc[0]` the least significant
(R50), for the reference `ADDR_W` of R8. -/
def decodeTableWord (nbits w : Nat) : Option Instr :=
  match decode Config.reference.addrW (descOfBits nbits w) with
  | .request i => some i
  | .rejected _ => none

end Sys2Proof
end

