-- ==== Sys2Proof/Machine/Fetch.lean ====
section
/-! DEFINITION. How the engine takes its next request: the descriptor on the request port, and what
stands there when a test places one (spec/10_state.md R31, R50). The block fetches no instructions. -/

namespace Sys2Proof.Machine

/-- What a step finds at the request port (R41, R50). -/
inductive Fetched where
  | nothing
  | descriptor (d : Desc) (rest : List Desc)
  deriving DecidableEq, Repr

/-- `req_valid` and `req_desc`: the first descriptor the host still presents (R50; log 3). -/
def State.fetch (s : State) : Fetched :=
  match s.env.requests with
  | [] => .nothing
  | d :: rest => .descriptor d rest

/-- The decoder on a latched descriptor, at the implementation's `ADDR_W` (R105). -/
def State.decodeDesc (s : State) (d : Desc) : Decoded := decode s.params.addrW d

/-- A step in which no request is accepted: the pulse of `rsp_valid` ends, nothing else changes (R51,
R290; log 19). -/
def State.idleStep (s : State) : State := { s with rsp := { s.rsp with valid := false } }

/-- A request placed first on the request port, in a state ready to accept it. -/
def State.withRequest (s : State) (d : Desc) : State :=
  { s with env := { s.env with requests := d :: s.env.requests }, seq := .idle }

/-- Why a BUSY engine has no step (R263, R267). -/
def busyFault (w : Waiting) : Fault :=
  match w with
  | .busDriver => .noAnswer
  | .hostMemory => .sourceNotAdmitted
  | .nothing => .midRequest

end Sys2Proof.Machine
end

