-- ==== Sys2Proof/Machine/Step.lean ====
section
/-! DEFINITION. One step of the machine: in IDLE, accept the request that stands on the port, decode it and
perform it (spec/10_state.md R31, R41, R50; log 1); with no request, wait. HALTED and BUSY have no
step. -/

namespace Sys2Proof.Machine

/-- An accepted descriptor: performed when it decodes, refused with ILLEGAL_REQUEST when it does not
(R105). -/
def perform (d : Desc) (s : State) : Host.Outcome State Fault Refusal :=
  match s.decodeDesc d with
  | .request i => exec i s
  | .rejected _ => refuseRequest s

/-- One step. -/
def step (s : State) : Host.Outcome State Fault Refusal :=
  match s.seq with
  | .halted => .fault .halted
  | .busy => .fault (busyFault s.waiting)
  | .idle =>
    match s.fetch with
    | .nothing => .next s.idleStep
    | .descriptor d rest => perform d (s.accept d rest)

/-- `s` with the request whose bits are `w` standing on the request port, so that the next step accepts
and performs it. -/
def State.withFetchWord (s : State) (nbits w : Nat) : State := s.withRequest (descOfBits nbits w)

end Sys2Proof.Machine
end

