-- ==== Sys2Proof/Machine/Asm.lean ====
section
/-! DEFINITION. The spec's textual syntax for requests (spec/30_encoding.md R130): one request a line,
mnemonic then comma-separated operands, decimal or `0x` numbers, `;` starts a comment (log 21). -/

namespace Sys2Proof.Machine

/-- What a line assembles to. -/
inductive AsmLine where
  /-- Nothing stands on the line but blanks and a comment. -/
  | blank
  | request (d : Desc)
  /-- An unknown mnemonic, a wrong number of operands, a bad number, or an operand that does not fit. -/
  | error
  deriving DecidableEq, Repr

/-- Blanks between tokens. -/
def isBlank (c : Char) : Bool := c == ' ' || c == '\t'

/-- The line without its comment (R130). -/
def stripComment (cs : List Char) : List Char := cs.takeWhile (· != ';')

/-- Without blanks at either end. -/
def trimBlanks (cs : List Char) : List Char :=
  ((cs.dropWhile isBlank).reverse.dropWhile isBlank).reverse

/-- The operands' texts: the parts between commas. -/
def splitCommas : List Char → List (List Char)
  | [] => [[]]
  | c :: cs =>
    if c = ',' then [] :: splitCommas cs
    else
      match splitCommas cs with
      | [] => [[c]]
      | part :: parts => (c :: part) :: parts

/-- The value of one digit; none when it is no hexadecimal digit. -/
def digitValue (c : Char) : Option Nat :=
  if '0' ≤ c ∧ c ≤ '9' then some (c.toNat - '0'.toNat)
  else if 'a' ≤ c ∧ c ≤ 'f' then some (c.toNat - 'a'.toNat + 10)
  else if 'A' ≤ c ∧ c ≤ 'F' then some (c.toNat - 'A'.toNat + 10)
  else none

/-- Digits to a number in a base. -/
def digitsValue (base acc : Nat) : List Char → Option Nat
  | [] => some acc
  | c :: cs =>
    match digitValue c with
    | some v => if v < base then digitsValue base (base * acc + v) cs else none
    | none => none

/-- A number in decimal or `0x` hexadecimal (R130). -/
def numberOf (cs : List Char) : Option Nat :=
  match cs with
  | [] => none
  | '0' :: 'x' :: [] => none
  | '0' :: 'x' :: digits => digitsValue 16 0 digits
  | digits => digitsValue 10 0 digits

/-- Every text as a number, or none. -/
def numbersOf : List (List Char) → Option (List Nat)
  | [] => some []
  | t :: ts =>
    match numberOf (trimBlanks t), numbersOf ts with
    | some n, some ns => some (n :: ns)
    | _, _ => none

/-- The request, when the operands fit their fields (R130). -/
def whenFits (fits : Bool) (i : Instr) : AsmLine := if fits then .request (encode i) else .error

/-- A line's mnemonic and operands (R130's table). -/
def assembleRequest (mnemonic : List Char) (ops : List Nat) : AsmLine :=
  if mnemonic = "open".toList then
    match ops with
    | [] => .request (encode .openEngine)
    | _ => .error
  else if mnemonic = "writeCommand".toList then
    match ops with
    | [c] => whenFits (c < 2 ^ 8) (.writeCommand (BitVec.ofNat 8 c))
    | _ => .error
  else if mnemonic = "writeCommand16".toList then
    match ops with
    | [w] => whenFits (w < 2 ^ 16) (.writeCommand16 (BitVec.ofNat 16 w))
    | _ => .error
  else if mnemonic = "writeByte".toList then
    match ops with
    | [b] => whenFits (b < 2 ^ 8) (.writeByte (BitVec.ofNat 8 b))
    | _ => .error
  else if mnemonic = "writeWord".toList then
    match ops with
    | [w] => whenFits (w < 2 ^ 16) (.writeWord (BitVec.ofNat 16 w))
    | _ => .error
  else if mnemonic = "writeCommandWithBytes".toList then
    match ops with
    | [c, b] => whenFits (c < 2 ^ 8 && b < 2 ^ 8)
        (.writeCommandWithBytes (BitVec.ofNat 8 c) (BitVec.ofNat 8 b))
    | _ => .error
  else if mnemonic = "writeCommandWithWords".toList then
    match ops with
    | [c, w1, w2] => whenFits (c < 2 ^ 8 && w1 < 2 ^ 16 && w2 < 2 ^ 16)
        (.writeCommandWithWords (BitVec.ofNat 8 c) (BitVec.ofNat 16 w1) (BitVec.ofNat 16 w2))
    | _ => .error
  else if mnemonic = "writeRepeated".toList then
    match ops with
    | [value, count] => whenFits (value < 2 ^ 16 && count < 2 ^ 32)
        (.writeRepeated (BitVec.ofNat 16 value) (BitVec.ofNat 32 count))
    | _ => .error
  else if mnemonic = "writePixelStream".toList then
    match ops with
    | [ptr, count] => whenFits (ptr < 2 ^ 32 && count < 2 ^ 32)
        (.writePixelStream (BitVec.ofNat 32 ptr) (BitVec.ofNat 32 count))
    | _ => .error
  else if mnemonic = "writeByteStream".toList then
    match ops with
    | [ptr, count] => whenFits (ptr < 2 ^ 32 && count < 2 ^ 32)
        (.writeByteStream (BitVec.ofNat 32 ptr) (BitVec.ofNat 32 count))
    | _ => .error
  else if mnemonic = "writePattern".toList then
    match ops with
    | [ptr, patternLen, repeatCount] =>
      whenFits (ptr < 2 ^ 32 && patternLen < 2 ^ 32 && repeatCount < 2 ^ 32)
        (.writePattern (BitVec.ofNat 32 ptr) (BitVec.ofNat 32 patternLen) (BitVec.ofNat 32 repeatCount))
    | _ => .error
  else .error

/-- One line of the textual syntax (R130). -/
def assembleLine (line : List Char) : AsmLine :=
  let text := trimBlanks (stripComment line)
  let mnemonic := text.takeWhile (fun c => !isBlank c)
  let operands := trimBlanks (text.dropWhile (fun c => !isBlank c))
  if text = [] then .blank
  else if operands = [] then assembleRequest mnemonic []
  else
    match numbersOf (splitCommas operands) with
    | some ns => assembleRequest mnemonic ns
    | none => .error

end Sys2Proof.Machine
end

