-- ==== Sys2Proof/Machine/Frame.lean ====
section
/-! DEFINITION. What a Transaction record stands for on the wire: its phases, their lanes and their bits
(spec/30_encoding.md R115, R116, spec/20_memory.md R78). The order of bits and the lanes lie below the
block's observable boundary; they are the spec's recommendation (D14, D15; log 18). -/

namespace Sys2Proof.Machine

/-- The three phases of a frame (R115). -/
inductive PhaseKind where
  | command
  | address
  | data
  deriving DecidableEq, Repr

/-- One phase on the wire: what it is, on how many lanes (none when the driver retains no mode), and its
bits in transmission order. -/
structure WirePhase where
  kind : PhaseKind
  lanes : Option LaneCount
  bits : List Bool
  deriving DecidableEq, Repr

/-- The bits of a value, most significant first (R115, D15). -/
def bitsOf {w : Nat} (v : BitVec w) : List Bool := (List.range w).map v.getMsbD

/-- The bits of a payload: bytes in list order, bits 7 down to 0 of each (R70, R115). -/
def payloadBits (p : List Byte) : List Bool := p.flatMap bitsOf

/-- The row of `LANES` for an opcode (R8). -/
def phaseLanes (p : Params) (commandValue : Half) : PhaseLanes :=
  if commandValue = opcData.setWidth 16 then p.lanes.cmd32 else p.lanes.cmd02

/-- The data phase of a record; absent when the payload is empty (R115). -/
def dataPhase (lanes : Option LaneCount) (t : Transaction) : List WirePhase :=
  if t.payload = [] then [] else [{ kind := .data, lanes := lanes, bits := payloadBits t.payload }]

/-- The phases of a record: command, address and data for a framed one (R115); the data phase alone, in
the mode the driver retains, for a continuation (R116). -/
def wirePhases (p : Params) (retained : Option LaneCount) (t : Transaction) : List WirePhase :=
  if t.isFirstInSequence then
    [ { kind := .command, lanes := some (phaseLanes p t.commandValue).command,
        bits := bitsOf (t.commandValue.extractLsb' 0 8) },
      { kind := .address, lanes := some (phaseLanes p t.commandValue).address,
        bits := bitsOf (t.addressValue.extractLsb' 0 24) } ]
      ++ dataPhase (some (phaseLanes p t.commandValue).data) t
  else dataPhase retained t

/-- The bits of a record, numbered from the start of the transaction (R115, R116). -/
def wireBits (t : Transaction) : List Bool :=
  if t.isFirstInSequence then
    bitsOf (t.commandValue.extractLsb' 0 8) ++ bitsOf (t.addressValue.extractLsb' 0 24)
      ++ payloadBits t.payload
  else payloadBits t.payload

/-- The bits of a record that reached the display: all of them after Ok; after Err as many as the draw
says (R78; log 10). -/
def deliveredBits (t : Transaction) (answer : SubmitAnswer) : List Bool :=
  match answer with
  | .ok => wireBits t
  | .err n => (wireBits t).take n

end Sys2Proof.Machine
end

