-- ==== Sys2Proof/Machine/Sequencer.lean ====
section
/-! DEFINITION. The one-event-a-step machine of spec/10_state.md R31: the same requests as `step`, with
the engine's position inside a request held as data, each tick performing at most one external
interaction (spec/20_memory.md R85). Only the two events of a chip-select primitive share a tick (R150,
R151). After the response one more tick, without an event, returns `seq` to IDLE (R31; log 1). `step`
performs a whole request in one step (log 1); this machine shows the states in between, and goes on when
an answer arrives while it waits (R263). -/

namespace Sys2Proof.Machine

/-- A bracketed request under way: one bracket, or the repetitions of `writePattern` with the number
still to start after the one at hand. -/
inductive Job where
  | once (b : Body)
  | pattern (ptr patternLen : Word) (left : Nat)
  deriving DecidableEq, Repr

/-- The body of the bracket at hand. -/
def Job.body (j : Job) : Body :=
  match j with
  | .once b => b
  | .pattern ptr patternLen _ => .bytes ptr patternLen

/-- The engine's position (R31). -/
inductive Pos where
  /-- Between requests. -/
  | idle
  /-- Accepted and decoded; the checks and the first event come next. -/
  | begin (i : Instr)
  /-- Accepted and refused by decoding; FAULT comes next (R105). -/
  | illegal
  /-- `open`: the CS pin's first register write, to the inactive level, comes next (R143). -/
  | openPin
  /-- `open`: the CS pin's first level comes next (R143). -/
  | openLevel
  /-- `open`: `initializeBus` comes next (R145). -/
  | openBus
  /-- `open`: the allocator comes next (R146). -/
  | openBuffer
  /-- `open`: `registerDevice` comes next (R147). -/
  | openDevice
  /-- `open`: the OK response comes next (R148). -/
  | openDone
  /-- `open`: the InitError response comes next (R149). -/
  | openFailed (c : InitCause)
  /-- `AssertSelect()` comes next (R152). -/
  | select (j : Job)
  /-- `k` elements of the chunk are in the buffer; the next read, or the submission, comes next. -/
  | fill (j : Job) (k : Nat)
  /-- Submitted; the answer comes next (R263). -/
  | answer (j : Job)
  /-- `DeassertSelect()` comes next, after an Ok or an Err end (R152). -/
  | deselect (j : Job) (ok : Bool)
  /-- The response comes next (R157). -/
  | reply (j : Job) (ok : Bool)
  /-- The response was given; `seq` returns to IDLE next (R31; log 1). -/
  | done
  deriving DecidableEq, Repr

/-- The one-event-a-step machine's state. -/
structure Micro where
  st : State
  pos : Pos
  deriving DecidableEq, Repr

/-- The fill of a body's chunks; a single-shot body has none. -/
def Body.fill (b : Body) : Option Fill :=
  match b with
  | .single _ _ _ => none
  | .repeated _ _ => some .reuse
  | .pixels _ _ => some .pixel
  | .bytes _ _ => some .byte

/-- `remaining <- total` and the first `chunk` (R200). -/
def State.beginStream (s : State) (f : Fill) (total : Word) : State :=
  ({ s with plan := { s.plan with remaining := total } }).setChunk f

/-- What a body does before its first read or submission (R176, R200, R210, R220, R230). -/
def Body.start (b : Body) (s : State) : State :=
  match b with
  | .single _ _ _ => s
  | .repeated value count => (s.fillRepeated value count).beginStream .reuse count
  | .pixels ptr count => (s.setSource ptr).beginStream .pixel count
  | .bytes ptr count => (s.setSource ptr).beginStream .byte count

/-- The buffer after its bytes from offset `offset` are written with `bs`. -/
def overwriteAt (buf : List Byte) (offset : Nat) (bs : List Byte) : List Byte :=
  buf.take offset ++ bs ++ buf.drop (offset + bs.length)

/-- The bytes element `k` of a chunk puts into the buffer: one read of the source (R221, R231); none when
host memory does not admit it. -/
def Fill.element (f : Fill) (s : State) (k : Nat) : Option (List Byte) :=
  match f with
  | .reuse => none
  | .pixel => (s.env.mem.read16 s.params.addrW (s.plan.srcAddr + 2 * k)).map fun w => le16 (normalize w)
  | .byte => (s.env.mem.read8 s.params.addrW (s.plan.srcAddr + k)).map fun b => [b]

/-- The end of a fill of `n` elements: `srcAddr` moves on (R221, R231); `writeRepeated` has none. -/
def Fill.finish (f : Fill) (s : State) (n : Nat) : State :=
  match f with
  | .reuse => s
  | .pixel => { s with plan := { s.plan with srcAddr := s.plan.srcAddr + n * 2 } }
  | .byte => { s with plan := { s.plan with srcAddr := s.plan.srcAddr + n } }

/-- The first half of `Submit(T)`: the record is handed over and TXN has no answer yet (R263). -/
def State.handOver (s : State) : State :=
  ({ s with retained := retainedAfter s.params s.txn s.retained }).emit (.txn s.txn none)

/-- The second half of `Submit(T)`: the event receives its answer (R60). -/
def State.answered (s : State) (rest : List SubmitAnswer) (a : SubmitAnswer) : State :=
  { s with
    env := { s.env with submits := rest }
    trace := s.trace.dropLast ++ [.txn s.txn (some a)] }

/-- After an Err, what the driver retains is a free value (93 U20; log 9). -/
def State.driverFailed (s : State) : State :=
  { s with retained := Config.retainedAfterErr s.frees, frees := s.frees + 1 }

/-- After an Ok answer: the next chunk, or the end of the body (R176, R200). -/
def afterOk (j : Job) (s : State) : Micro :=
  match j.body.fill with
  | none => ⟨s.singleDone, .deselect j true⟩
  | some f =>
    if s.chunkDone.plan.remaining = 0 then ⟨s.chunkDone, .deselect j true⟩
    else ⟨s.chunkDone.setChunk f, .fill j 0⟩

/-- One tick at `fill`: read one element, or submit when the chunk is whole. -/
def fillTick (j : Job) (k : Nat) (s : State) : Option Micro :=
  match j.body with
  | .single cv av payload => some ⟨({ s with txn := framedTxn cv av payload }).handOver, .answer j⟩
  | .repeated _ _ => some ⟨(s.loadChunk .reuse s.plan.chunk.toNat).handOver, .answer j⟩
  | .pixels _ _ => sourceTick .pixel
  | .bytes _ _ => sourceTick .byte
where
  /-- A source fill's tick. -/
  sourceTick (f : Fill) : Option Micro :=
    if k = s.plan.chunk.toNat then
      some ⟨((f.finish s k).loadChunk f k).handOver, .answer j⟩
    else
      (f.element s k).map fun bs =>
        ⟨{ s with buf := overwriteAt s.buf (k * f.elemBytes) bs }, .fill j (k + 1)⟩

/-- One tick at `answer`: none while the driver has not answered (R263). -/
def answerTick (j : Job) (s : State) : Option Micro :=
  match s.env.submits with
  | [] => none
  | .ok :: rest => some (afterOk j (s.answered rest .ok))
  | .err n :: rest => some ⟨(s.answered rest (.err n)).driverFailed, .deselect j false⟩

/-- Where a bracket's end leads: the response, or the next repetition of `writePattern` (R235). -/
def afterBracket (j : Job) (ok : Bool) (s : State) : Micro :=
  match j, ok with
  | .pattern ptr patternLen (left + 1), true => ⟨s.repetitionDone, .select (.pattern ptr patternLen left)⟩
  | .pattern _ _ 0, true => ⟨s.repetitionDone, .reply j true⟩
  | _, _ => ⟨s, .reply j ok⟩

/-- The response of a bracketed request (R157, R235). -/
def Job.reply (j : Job) (ok : Bool) (s : State) : State :=
  match j with
  | .once _ => s.giveWriteResponse ok
  | .pattern _ _ _ => s.givePatternResponse ok

/-- The first tick of a write operation, in mode READY (R265): the bracket is about to open. -/
def beginWrite (s : State) (run : State → Micro) : Micro :=
  if s.mode = .ready then run s else ⟨s.raiseFault .notReady, .idle⟩

/-- The first tick of a streamed operation with a source (R204, R206). -/
def beginSource (s : State) (empty : Bool) (reps : Word) (aligned : Bool) (ptr : Word) (len : Nat)
    (go : State → Micro) : Micro :=
  if empty then ⟨s.giveResponse .ok 0 reps, .done⟩
  else
    match s.sourceFault aligned ptr len with
    | some c => ⟨s.raiseFault c, .idle⟩
    | none => go s

/-- `AssertSelect()` and what the body does before its first read or submission (R152). -/
def selectTick (j : Job) (s : State) : Micro := ⟨j.body.start s.enterBracket, .fill j 0⟩

/-- The first tick of a single-shot operation. -/
def beginSingle (s : State) (cv : Byte) (av : BitVec 24) (payload : List Byte) : Micro :=
  beginWrite s fun s => selectTick (.once (.single cv av payload)) s

/-- The first tick of `open`: the checks, then PIN_CFG (R140 to R143). -/
def beginOpen (s : State) : Micro :=
  if s.mode ≠ .uninit then ⟨s.raiseFault .reopen, .idle⟩
  else if negative8 s.cfg.cs then ⟨s.giveInitError .csPinInvalid, .done⟩
  else if s.params.numPins ≤ s.cfg.cs.toNat ∨ 32 ≤ pinBit s.params s.cfg.cs.toNat then
    ⟨s.raiseFault .badPin, .idle⟩
  else ⟨s.bindPins.emit (.pinCfg s.bindPins.pins.csPin), .openPin⟩

/-- The first tick of a decoded request: its checks and its first event (R265). -/
def beginTick (i : Instr) (s : State) : Micro :=
  match i with
  | .openEngine => beginOpen s
  | .writeCommand c => beginSingle s opcCmd (cmdAddr8 c) []
  | .writeCommand16 w => beginSingle s opcCmd (cmdAddr16 w) []
  | .writeByte b => beginSingle s opcData addrSingle [b]
  | .writeWord w => beginSingle s opcData addrSingle (be16 w)
  | .writeCommandWithBytes c b => beginSingle s opcCmd (cmdAddr8 c) [b]
  | .writeCommandWithWords c w1 w2 => beginSingle s opcCmd (cmdAddr8 c) (be16 w1 ++ be16 w2)
  | .writeRepeated value count => beginWrite s fun s =>
      if count = 0 then ⟨s.giveResponse .ok 0 0, .done⟩ else selectTick (.once (.repeated value count)) s
  | .writePixelStream ptr count => beginWrite s fun s =>
      beginSource s (count == 0) 0 true ptr (2 * count.toNat) (selectTick (.once (.pixels ptr count)))
  | .writeByteStream ptr count => beginWrite s fun s =>
      beginSource s (count == 0) 0 false ptr count.toNat (selectTick (.once (.bytes ptr count)))
  | .writePattern ptr patternLen repeatCount => beginWrite s fun s =>
      beginSource s (repeatCount == 0 || patternLen == 0) repeatCount false ptr patternLen.toNat fun s =>
        selectTick (.pattern ptr patternLen (repeatCount.toNat - 1))
          { s with plan := { s.plan with repDone := 0 } }
  | .reservedB _ => ⟨s.raiseFault .illegalRequest, .idle⟩
  | .reservedCtoF _ => ⟨s.raiseFault .illegalRequest, .idle⟩

/-- One tick of `open`'s external calls (R145 to R147). -/
def openBusTick (s : State) : Micro :=
  let told := s.emit (.busInit s.busInitArgs s.env.busInit)
  match s.env.busInit with
  | none => ⟨told, .openFailed .busInitFailed⟩
  | some ctx => ⟨{ told with busContext := some ctx }, .openBuffer⟩

/-- The allocator's tick (R146). -/
def openBufferTick (s : State) : Micro :=
  let told := s.emit (.alloc (capBytes s.params) s.allocAnswer)
  match s.allocAnswer with
  | none => ⟨told, .openFailed .allocFailed⟩
  | some base => ⟨told.holdBuffer base, .openDevice⟩

/-- `registerDevice`'s tick (R147). -/
def openDeviceTick (s : State) : Micro :=
  let told := s.emit (.devReg (deviceFraming s.params) s.env.devReg)
  match s.env.devReg with
  | none => ⟨told, .openFailed .deviceRegFailed⟩
  | some handle => ⟨{ told with deviceHandle := some handle }, .openDone⟩

/-- Acceptance (R41, R50): none when the engine is not IDLE or no request stands on the port. It ends the
pulse of `rsp_valid`; with no request on the port there is no tick, and the pulse stands. DESIGN CHOICE
(log 19): R51 gives the pulse no length. -/
def acceptTick (s : State) : Option Micro :=
  if s.seq = .idle then
    match s.fetch with
    | .nothing => none
    | .descriptor d rest =>
      match s.decodeDesc d with
      | .request i => some ⟨s.accept d rest, .begin i⟩
      | .rejected _ => some ⟨s.accept d rest, .illegal⟩
  else none

/-- One tick; none where the engine has no step. -/
def tick (m : Micro) : Option Micro :=
  match m.pos with
  | .idle => acceptTick m.st
  | .begin i => some (beginTick i m.st)
  | .illegal => some ⟨m.st.raiseFault .illegalRequest, .idle⟩
  | .openPin => some ⟨m.st.regWrite32 m.st.deassertAddr m.st.pins.csMask, .openLevel⟩
  | .openLevel => some ⟨(m.st.setLevel .deasserted).resolveTransferConfig, .openBus⟩
  | .openBus => some (openBusTick m.st)
  | .openBuffer => some (openBufferTick m.st)
  | .openDevice => some (openDeviceTick m.st)
  | .openDone => some ⟨({ m.st with mode := .ready }).giveResponse .ok 0 0, .done⟩
  | .openFailed c => some ⟨m.st.giveInitError c, .done⟩
  | .select j => some (selectTick j m.st)
  | .fill j k => fillTick j k m.st
  | .answer j => answerTick j m.st
  | .deselect j ok => some (afterBracket j ok m.st.deassertSelect)
  | .reply j ok => some ⟨j.reply ok m.st, .done⟩
  | .done => some ⟨m.st.returnIdle, .idle⟩

/-- `n` ticks, if there are so many. -/
def ticks : Nat → Micro → Option Micro
  | 0, m => some m
  | n + 1, m => (tick m).bind (ticks n)

/-- What an engine at a position waits for, in `step`'s terms (log 26). -/
def Pos.waiting (p : Pos) : Waiting :=
  match p with
  | .answer _ => .busDriver
  | .fill _ _ => .hostMemory
  | _ => .nothing

/-- A micro state as `step` leaves it. -/
def Micro.settled (m : Micro) : State := { m.st with waiting := m.pos.waiting }

end Sys2Proof.Machine
end

