-- ==== Sys2Proof/Safety.lean ====
section
/-! DEFINITION. What counts as a safe run, in the terms the statements use: legal Transaction records
(spec/30_encoding.md R111), the bus protocol a trace must obey (spec/20_memory.md R88,
spec/30_encoding.md R117, spec/42_chunked_planner.md R207, spec/60_exceptions.md R264), how a run has
ended (spec/10_state.md R60), and the machine's invariant. -/

namespace Sys2Proof.Machine

/-- A payload's length is at most `CAP_BYTES` (R111, R203); the one exception is the 4 bytes of
`writeCommandWithWords`, a record of the command form, in a block with `CAP = 1` (R175; log 13). -/
def Transaction.fits (p : Params) (t : Transaction) : Bool :=
  decide (t.payload.length ≤ capBytes p)
    || (p.cap.val == 1 && t.commandValue == 0x0002 && t.payload.length == 4)

/-- A Transaction record the block may submit (R47, R81, R111, R112). -/
def Transaction.legal (p : Params) (t : Transaction) : Bool :=
  ((t.commandBits == 8 && t.addressBits == 24 && (t.commandValue == 0x0002 || t.commandValue == 0x0032))
      || (t.commandBits == 0 && t.addressBits == 0 && t.commandValue == 0 && t.addressValue == 0))
    && t.dummyBits == 0
    && t.payloadBitLength == bitLength t.payload.length
    && t.fits p
    && t.isFirstInSequence == (t.commandBits == 8)
    && t.reuseFraming == !t.isFirstInSequence
    && t.addressValue.extractLsb' 16 16 == 0

/-- A record opens a streamed bracket: the data form with the stream's sentinel address (R117, R201). -/
def Transaction.opensStream (t : Transaction) : Bool :=
  t.isFirstInSequence && t.commandValue == 0x32 && t.addressValue == 0x003C00

/-- What an observer of the trace knows. -/
structure Monitor where
  /-- The last chip-select level. -/
  level : CsLevel
  /-- Transactions of the bracket at hand. -/
  sent : Nat
  /-- The bracket at hand is a stream. -/
  streaming : Bool
  /-- A transaction of the bracket at hand answered Err, or not at all. -/
  failed : Bool
  /-- Nothing the protocol forbids has happened. -/
  good : Bool
  deriving DecidableEq, Repr

/-- The observer of an empty trace. -/
def Monitor.start : Monitor :=
  { level := .undriven, sent := 0, streaming := false, failed := false, good := true }

/-- One event of the trace under the bus protocol: chip select alternates; a transaction is legal, lies
inside a bracket, follows no failed one of it, is framed exactly when it is the bracket's first, and is
not the bracket's first only in a stream; acceptances, responses and faults lie outside brackets. -/
def Monitor.next (p : Params) (m : Monitor) (e : Event) : Monitor :=
  match e with
  | .cs .asserted =>
    { level := .asserted, sent := 0, streaming := false, failed := false,
      good := m.good && m.level == .deasserted }
  | .cs .deasserted => { m with level := .deasserted, good := m.good && m.level != .deasserted }
  | .cs .undriven => { m with good := false }
  | .txn t answer =>
    { m with
      sent := m.sent + 1
      streaming := m.streaming || t.opensStream
      failed := answer != some .ok
      good := m.good && m.level == .asserted && !m.failed && t.legal p
        && t.isFirstInSequence == (m.sent == 0) && (m.sent == 0 || m.streaming) }
  | .accept _ => { m with good := m.good && m.level != .asserted }
  | .rsp _ _ _ => { m with good := m.good && m.level != .asserted }
  | .fault _ => { m with good := m.good && m.level != .asserted }
  | .pinCfg _ => m
  | .regWrite _ _ => m
  | .busInit _ _ => { m with good := m.good && m.level == .deasserted }
  | .alloc _ _ => { m with good := m.good && m.level == .deasserted }
  | .devReg _ _ => { m with good := m.good && m.level == .deasserted }

/-- The observer after a whole trace. -/
def Monitor.run (p : Params) (trace : List Event) : Monitor := trace.foldl (Monitor.next p) Monitor.start

/-- How a run stands (R60, R266, R267). -/
inductive RunStatus where
  /-- `seq = IDLE` and the host presents nothing: a completed run. -/
  | complete
  /-- A request stands on the port. -/
  | pending
  /-- The last event is a TXN with no answer. -/
  | hang
  /-- A source read that host memory does not admit. -/
  | stuck
  /-- `seq = HALTED`. -/
  | faulted
  deriving DecidableEq, Repr

/-- How the run that led to a state stands (R60). -/
def State.runStatus (s : State) : RunStatus :=
  match s.seq, s.waiting with
  | .halted, _ => .faulted
  | .busy, .busDriver => .hang
  | .busy, _ => .stuck
  | .idle, _ => if s.env.requests = [] then .complete else .pending

/-- What an engine in mode READY has (R33, R37, R38, R40, R294). -/
def State.ReadyInv (s : State) : Prop :=
  s.bufAllocated = true ∧ s.buf.length = capBytes s.params ∧ s.busContext.isSome = true ∧
    s.deviceHandle.isSome = true ∧ (∃ k < 32, s.pins.csMask = 1 <<< k) ∧
    s.pins.csSetAddr = setAddr s.params s.pins.csBank ∧ s.pins.csClrAddr = clrAddr s.params s.pins.csBank

/-- The machine's invariant. -/
structure State.Inv (s : State) : Prop where
  /-- The trace obeys the bus protocol. -/
  protocol : (Monitor.run s.params s.trace).good = true
  /-- `csAsserted` is the level the trace shows (R34). -/
  level : (Monitor.run s.params s.trace).level = s.cs
  /-- Chip select is never left asserted between requests, nor by a fault (R152, R264). -/
  released : s.seq ≠ .busy → s.cs ≠ .asserted
  /-- Chip select is undriven until `open` configures it (R34). -/
  undriven : s.mode = .uninit → s.cs = .undriven
  /-- `seq = HALTED` exactly when a fault is recorded (R41, R46). -/
  halted : s.seq = .halted ↔ s.fault ≠ 0
  /-- The fault register holds 0 or a code of R266. -/
  faultCode : s.fault.toNat ≤ 6
  /-- `rsp_status = 3` is never produced (R260). -/
  status : s.rsp.status ≠ 3
  /-- In mode READY the engine is bound, the buffer allocated and its size `CAP_BYTES`, and chip select
  driven (R294). -/
  ready : s.mode = .ready → s.ReadyInv ∧ s.cs ≠ .undriven
  /-- The registers that hold addresses hold `ADDR_W` bits (R33, R38; log 15). -/
  widths : s.pins.csSetAddr < 2 ^ s.params.addrW ∧ s.pins.csClrAddr < 2 ^ s.params.addrW ∧
    s.bufBase < 2 ^ s.params.addrW
  /-- Host memory is in canonical form. -/
  memory : s.env.mem.wf = true

end Sys2Proof.Machine
end

