-- ==== Sys2Proof/Certificates/Slice0/Obligations.lean ====
section
/-! DEFINITION. The statements for the provers, and the few functions they are written with: what the
spec's rules say of a trace, spelled in the spec's own terms and not in the model's. -/

namespace Sys2Proof.Statements

open Sys2Proof.Machine

/-! ### Chip select -/

/-- The two events of `AssertSelect()` (R150). -/
def selectEvents (s : State) : List Event :=
  [.regWrite (if s.params.csActiveLow then s.pins.csClrAddr else s.pins.csSetAddr) s.pins.csMask,
    .cs .asserted]

/-- The two events of `DeassertSelect()` (R151). -/
def deselectEvents (s : State) : List Event :=
  [.regWrite (if s.params.csActiveLow then s.pins.csSetAddr else s.pins.csClrAddr) s.pins.csMask,
    .cs .deasserted]

/-- The platform's banks after the register write of `AssertSelect()`. -/
def selectedPlatform (s : State) : Platform :=
  s.platform.regWrite s.params (if s.params.csActiveLow then s.pins.csClrAddr else s.pins.csSetAddr)
    s.pins.csMask

/-- The platform's banks after one whole bracket. -/
def toggledPlatform (s : State) : Platform :=
  (selectedPlatform s).regWrite s.params
    (if s.params.csActiveLow then s.pins.csSetAddr else s.pins.csClrAddr) s.pins.csMask

/-- The response registers after `return Status(code, i0, i1)` (R45, R51). -/
def response (code : BitVec 2) (i0 i1 : Word) : Response :=
  { valid := true, status := code, info0 := i0, info1 := i1 }

/-! ### Single-shot operations -/

/-- Command value, address value and payload of each single-shot operation (R113), with the address
written byte by byte and the payload bit by bit. -/
def singleShotOf (i : Instr) : Option (Half × Word × List Byte) :=
  match i with
  | .writeCommand c => some (0x0002, (0 : Byte) ++ (0 : Byte) ++ c ++ (0 : Byte), [])
  | .writeCommand16 w => some (0x0002, (0 : Half) ++ w, [])
  | .writeByte b => some (0x0032, 0x00002C00, [b])
  | .writeWord w => some (0x0032, 0x00002C00, [w.extractLsb' 8 8, w.extractLsb' 0 8])
  | .writeCommandWithBytes c b => some (0x0002, (0 : Byte) ++ (0 : Byte) ++ c ++ (0 : Byte), [b])
  | .writeCommandWithWords c w1 w2 =>
    some (0x0002, (0 : Byte) ++ (0 : Byte) ++ c ++ (0 : Byte),
      [w1.extractLsb' 8 8, w1.extractLsb' 0 8, w2.extractLsb' 8 8, w2.extractLsb' 0 8])
  | _ => none

/-- `payloadBitLength = 8 * len` (R110, R111), in the 32 bits R110 gives it; where that number needs more,
which takes a `CAP` of `2^28` or more, a free value (log 25). -/
def lengthField (len : Nat) : Word :=
  if 8 * len < 2 ^ 32 then BitVec.ofNat 32 (8 * len) else Config.longBitLength len

/-- A framed record (R112, R176, R201). -/
def framedRecord (cv : Half) (av : Word) (p : List Byte) : Transaction :=
  { commandBits := 8, commandValue := cv, addressBits := 24, addressValue := av, dummyBits := 0,
    payload := p, payloadBitLength := lengthField p.length, isFirstInSequence := true,
    reuseFraming := false }

/-- A continuation record (R202). -/
def continuationRecord (p : List Byte) : Transaction :=
  { commandBits := 0, commandValue := 0, addressBits := 0, addressValue := 0, dummyBits := 0,
    payload := p, payloadBitLength := lengthField p.length, isFirstInSequence := false,
    reuseFraming := true }

/-- The data-phase lane mode the driver retains after a framed record of that opcode (R57). -/
def heldLanes (s : State) (cv : Half) : LaneCount :=
  if cv = 0x0032 then s.params.lanes.cmd32.data else s.params.lanes.cmd02.data

/-! ### Streamed operations -/

/-- `ceil_div(a, b)` (R10). -/
def ceilDiv (a b : Nat) : Nat := (a + b - 1) / b

/-- Payload `k` of a stream of bytes cut into chunks of `size` bytes: chunks before the last hold `size`
bytes, the last one the rest (R205). -/
def payloadAt (size : Nat) (bytes : List Byte) (k : Nat) : List Byte :=
  (bytes.drop (k * size)).take size

/-- Record `k` of a streamed bracket: the first framed with `0x32` and `0x003C00`, every later one a
continuation (R201, R202). -/
def recordAt (size : Nat) (bytes : List Byte) (k : Nat) : Transaction :=
  if k = 0 then framedRecord 0x0032 0x00003C00 (payloadAt size bytes 0)
  else continuationRecord (payloadAt size bytes k)

/-- The events of the first `n` transactions of a stream, each answered Ok. -/
def okEvents (size : Nat) (bytes : List Byte) (n : Nat) : List Event :=
  (List.range n).map fun k => .txn (recordAt size bytes k) (some .ok)

/-- `n` Ok draws. -/
def oks (n : Nat) : List SubmitAnswer := List.replicate n .ok

/-- The source range `[ptr, ptr + len)` passes the checks of R206. -/
def SourceAdmitted (s : State) (ptr : Word) (len : Nat) : Prop :=
  s.bufBase + capBytes s.params ≤ ptr.toNat ∨ ptr.toNat + len ≤ s.bufBase

/-- `bytes` are the wire bytes of the first `n` elements of a streamed request in `s`, and the request is
one that runs so far: a positive count, a source range that passes R206, and host memory that admits the
first `n` elements. `writeRepeated` sends `be16(value)` again and again (R210), `writePixelStream` the
source's words high byte first (R220), `writeByteStream` the source's bytes (R230). -/
def StreamsUpTo (i : Instr) (s : State) (n : Nat) (bytes : List Byte) : Prop :=
  match i with
  | .writeRepeated value count =>
    count ≠ 0 ∧ bytes = (List.replicate n [value.extractLsb' 8 8, value.extractLsb' 0 8]).flatten
  | .writePixelStream ptr count =>
    count ≠ 0 ∧ ptr.toNat % 2 = 0 ∧ SourceAdmitted s ptr (2 * count.toNat) ∧ bytes.length = 2 * n ∧
      ∀ k < n,
        bytes[2 * k + 1]? = s.env.mem.read8 s.params.addrW (ptr.toNat + 2 * k) ∧
        bytes[2 * k]? = s.env.mem.read8 s.params.addrW (ptr.toNat + 2 * k + 1)
  | .writeByteStream ptr count =>
    count ≠ 0 ∧ SourceAdmitted s ptr count.toNat ∧ bytes.length = n ∧
      ∀ k < n, bytes[k]? = s.env.mem.read8 s.params.addrW (ptr.toNat + k)
  | _ => False

/-- The number of elements of a streamed request, and its chunk capacity in elements (R200). -/
def elements (i : Instr) (s : State) : Nat × Nat :=
  match i with
  | .writeRepeated _ count => (count.toNat, s.params.cap.val)
  | .writePixelStream _ count => (count.toNat, s.params.cap.val)
  | .writeByteStream _ count => (count.toNat, 2 * s.params.cap.val)
  | _ => (0, 1)

/-- `bytes` are the wire bytes of a whole streamed request, all of its source admitted. -/
def Streams (i : Instr) (s : State) (bytes : List Byte) : Prop :=
  StreamsUpTo i s (elements i s).1 bytes

/-- The elements of the chunks `0 .. j` of a streamed request (R200, R205): what is read before submission
`j`. -/
def elementsThrough (i : Instr) (s : State) (j : Nat) : Nat :=
  min (elements i s).1 ((j + 1) * (elements i s).2)

/-- The transactions of a streamed request when every one is answered Ok: `ceil_div(count, CAP)` or
`ceil_div(count, CAP_BYTES)` (R208). -/
def transactions (i : Instr) (s : State) : Nat := ceilDiv (elements i s).1 (elements i s).2

/-- What no write operation changes, however far it comes (R33, R35, R37, R38, R52, R53): the parameters,
the inputs, the binding, host memory, the requests still to come, `mode`, `fault` and the latched
descriptor. That every host memory byte stays rests on log 17, by which the TransferBuffer's bytes, the
ones R53 lets the block write, are the field `buf` and no bytes of host memory's list. -/
structure WriteFrame (s t : State) : Prop where
  params : t.params = s.params
  cfg : t.cfg = s.cfg
  requests : t.env.requests = s.env.requests
  busInit : t.env.busInit = s.env.busInit
  alloc : t.env.alloc = s.env.alloc
  devReg : t.env.devReg = s.env.devReg
  memory : ∀ a, t.env.mem.read8 t.params.addrW a = s.env.mem.read8 s.params.addrW a
  mode : t.mode = s.mode
  fault : t.fault = s.fault
  pins : t.pins = s.pins
  xfer : t.xfer = s.xfer
  busContext : t.busContext = s.busContext
  deviceHandle : t.deviceHandle = s.deviceHandle
  bufBase : t.bufBase = s.bufBase
  bufAllocated : t.bufAllocated = s.bufAllocated
  desc : t.desc = s.desc

/-- The planner's registers `filled`, `srcAddr` and `repDone` after a streamed request of one bracket:
`writeRepeated` leaves `srcAddr`, the others leave `filled`, none touches `repDone`; `done` elements were
read (R210, R221, R231). -/
def PlanAfter (i : Instr) (s t : State) (done : Nat) : Prop :=
  t.plan.repDone = s.plan.repDone ∧
    match i with
    | .writeRepeated _ count =>
      t.plan.filled = BitVec.ofNat 32 (min count.toNat s.params.cap.val) ∧ t.plan.srcAddr = s.plan.srcAddr
    | .writePixelStream ptr _ => t.plan.filled = s.plan.filled ∧ t.plan.srcAddr = ptr.toNat + 2 * done
    | .writeByteStream ptr _ => t.plan.filled = s.plan.filled ∧ t.plan.srcAddr = ptr.toNat + done
    | _ => False

/-- The buffer after the chunks `0 .. last` of a stream were put into it: chunk `last` at its front, behind
it what the chunk before left, and every byte beyond both as before (R207, R210, R221, R231). -/
def BufferAfter (s t : State) (bytes : List Byte) (last : Nat) : Prop :=
  let size := capBytes s.params
  ∀ k, t.buf[k]? =
    if k < (payloadAt size bytes last).length then bytes[last * size + k]?
    else if k < min bytes.length size then bytes[(last - 1) * size + k]?
    else s.buf[k]?

/-- The bytes a source range holds, all of them admitted. -/
def SourceBytes (s : State) (ptr : Word) (bytes : List Byte) : Prop :=
  ∀ k < bytes.length, s.env.mem.read8 s.params.addrW (ptr.toNat + k) = bytes[k]?

/-- The bytes of a pattern that are read before submission `j` of repetition `m`: in the first repetition
those of the chunks `0 .. j`, in a later one all of them (R231, R235). -/
def patternThrough (s : State) (len : Word) (m j : Nat) : Nat :=
  if m = 0 then min len.toNat ((j + 1) * capBytes s.params) else len.toNat

/-- The write operations (R265). -/
def isWrite (i : Instr) : Bool :=
  match i with
  | .openEngine => false
  | .reservedB _ => false
  | .reservedCtoF _ => false
  | _ => true

/-- Which operand words a request reads (R104). -/
def usesArg1 (i : Instr) : Bool :=
  match i with
  | .writeCommandWithWords _ _ _ => true
  | .writeRepeated _ _ => true
  | .writePixelStream _ _ => true
  | .writeByteStream _ _ => true
  | .writePattern _ _ _ => true
  | _ => false

/-- The requests with a source pointer (R104). -/
def usesPtr (i : Instr) : Bool :=
  match i with
  | .writePixelStream _ _ => true
  | .writeByteStream _ _ => true
  | .writePattern _ _ _ => true
  | _ => false

/-- The request with a repeat count (R104). -/
def usesArg2 (i : Instr) : Bool :=
  match i with
  | .writePattern _ _ _ => true
  | _ => false

/-- The number of RSP events of a trace. -/
def responses (trace : List Event) : Nat :=
  trace.countP fun e => match e with
    | .rsp _ _ _ => true
    | _ => false

/-- The number of `CS(level)` events of a trace. -/
def edges (level : CsLevel) (trace : List Event) : Nat :=
  trace.countP fun e => decide (e = .cs level)

/-- The number of TXN events of a trace. -/
def submissions (trace : List Event) : Nat :=
  trace.countP fun e => match e with
    | .txn _ _ => true
    | _ => false

end Sys2Proof.Statements

open Sys2Proof Sys2Proof.Machine Sys2Proof.Statements

/-! ### Encodings -/

/-- Decoding the descriptor of a well-formed request gives it back, with every operand at every value its
field admits (R101, R102, R104, R105). -/
def Obligations.DecodeEncodeGivesTheRequestBack : Prop :=
  ∀ (addrW : Nat) (i : Instr), i.WellFormed addrW = true → decode addrW (encode i) = .request i

/-- What decodes is well formed, and its encoding is the descriptor with the operand words the request
does not use set to 0: no other bit is dropped (R104, R105). -/
def Obligations.EncodeGivesTheUsedWordsBack : Prop :=
  ∀ (addrW : Nat) (d : Desc) (i : Instr), decode addrW d = .request i →
    i.WellFormed addrW = true ∧
      encode i = descOf (hdr d) (if usesArg1 i then arg1 d else 0) (if usesPtr i then ptrWord d else 0)
        (if usesArg2 i then arg2 d else 0)

/-- A header that decodes lies in its request's row of the opcode table (R104). -/
def Obligations.DecodedHeaderLiesInItsRow : Prop :=
  ∀ (addrW : Nat) (d : Desc) (i : Instr), decode addrW d = .request i →
    (opcodeRow i).covers (hdr d) = true

/-- No header lies in two rows of the opcode table (R104, R106). -/
def Obligations.OpcodeRowsAreDisjoint : Prop :=
  ∀ (i j : Instr) (h : Word), (opcodeRow i).covers h = true → (opcodeRow j).covers h = true →
    opcodeRow i = opcodeRow j

/-- A descriptor whose header sets a reserved or unused bit does not decode (R105, R106): for every
operation the bits outside the table's used fields must be 0. -/
def Obligations.HeaderOutsideEveryRowIsRejected : Prop :=
  ∀ (addrW : Nat) (d : Desc), (∀ i : Instr, (opcodeRow i).covers (hdr d) = false) →
    ∃ why, decode addrW d = .rejected why

/-- Words written out from R104 and R105 decode to the requests they stand for. -/
def Obligations.WrittenOutWordsDecode : Prop :=
  decode 32 (descOf 0x10290000 0 0 0) = .request (.writeCommand 0x29) ∧
  decode 32 (descOf 0x20001234 0 0 0) = .request (.writeCommand16 0x1234) ∧
  decode 32 (descOf 0x602A0000 0x0000013F 0 0) = .request (.writeCommandWithWords 0x2A 0x0000 0x013F) ∧
  decode 32 (descOf 0x7000F800 5 0xDEADBEEF 7) = .request (.writeRepeated 0xF800 5) ∧
  decode 32 (descOf 0xA0000000 3 0x20000100 2) = .request (.writePattern 0x20000100 3 2) ∧
  decode 32 (descOf 0x01000000 0 0 0) = .rejected .reservedField ∧
  decode 32 (descOf 0x602A0000 0x0001013F 0 0) = .rejected .arg1HighHalf

/-- The assembler's table of R130: each request's header as the sum the rule writes. That a pointer operand
assembles whenever it fits the 32-bit PTR word, one of `2^ADDR_W` or more among them, is the model's choice
(log 21): R102 gives `ptr` `ADDR_W` bits, and here the decoder, not the assembler, refuses a wider one. -/
def Obligations.AssembledHeadersAreTheTablesSums : Prop :=
  ∀ (c b : Byte) (w w1 w2 : Half) (ptr n m : Word),
    assembleRequest "open".toList [] = .request (descOf 0x00000000 0 0 0) ∧
    assembleRequest "writeCommand".toList [c.toNat]
      = .request (descOf (0x10000000 + (c.setWidth 32 <<< 16)) 0 0 0) ∧
    assembleRequest "writeCommand16".toList [w.toNat]
      = .request (descOf (0x20000000 + w.setWidth 32) 0 0 0) ∧
    assembleRequest "writeByte".toList [b.toNat] = .request (descOf (0x30000000 + b.setWidth 32) 0 0 0) ∧
    assembleRequest "writeWord".toList [w.toNat] = .request (descOf (0x40000000 + w.setWidth 32) 0 0 0) ∧
    assembleRequest "writeCommandWithBytes".toList [c.toNat, b.toNat]
      = .request (descOf (0x50000000 + (c.setWidth 32 <<< 16) + b.setWidth 32) 0 0 0) ∧
    assembleRequest "writeCommandWithWords".toList [c.toNat, w1.toNat, w2.toNat]
      = .request (descOf (0x60000000 + (c.setWidth 32 <<< 16) + w1.setWidth 32) (w2.setWidth 32) 0 0) ∧
    assembleRequest "writeRepeated".toList [w.toNat, n.toNat]
      = .request (descOf (0x70000000 + w.setWidth 32) n 0 0) ∧
    assembleRequest "writePixelStream".toList [ptr.toNat, n.toNat]
      = .request (descOf 0x80000000 n ptr 0) ∧
    assembleRequest "writeByteStream".toList [ptr.toNat, n.toNat]
      = .request (descOf 0x90000000 n ptr 0) ∧
    assembleRequest "writePattern".toList [ptr.toNat, n.toNat, m.toNat]
      = .request (descOf 0xA0000000 n ptr m)

/-! ### The step -/

/-- In IDLE, a step whose request decodes to `i` is `exec i` on the state right after acceptance: the
descriptor latched and taken from the port, `seq` BUSY, `rsp_valid` low, ACCEPT in the trace (R41, R50,
R51, R60). That one step performs the whole request is the model's choice (log 1), and so is the end of
the `rsp_valid` pulse at that step (log 19). -/
def Obligations.StepPerformsTheDecodedRequest : Prop :=
  ∀ (s : State) (d : Desc) (rest : List Desc) (i : Instr), s.seq = .idle →
    s.env.requests = d :: rest → decode s.params.addrW d = .request i →
    step s = exec i { s with
      env := { s.env with requests := rest }, desc := d, seq := .busy, waiting := .nothing,
      rsp := { s.rsp with valid := false }, trace := s.trace ++ [.accept d] }

/-- A descriptor that decoding refuses raises ILLEGAL_REQUEST, in every mode, with no other effect than
its acceptance (R105, R265, R266; that `rsp_valid` falls with it is log 19, the fault as a next state log
12). -/
def Obligations.RefusedDescriptorRaisesIllegalRequest : Prop :=
  ∀ (s : State) (d : Desc) (rest : List Desc) (why : Reject), s.seq = .idle →
    s.env.requests = d :: rest → decode s.params.addrW d = .rejected why →
    step s = .next { s with
      env := { s.env with requests := rest }, desc := d, seq := .halted, waiting := .nothing, fault := 1,
      rsp := { s.rsp with valid := false }, trace := s.trace ++ [.accept d, .fault 1] }

/-- With no request on the port the engine waits: nothing changes but the end of the `rsp_valid` pulse
(R51, R290; the pulse's length in steps is the model's choice, log 19). -/
def Obligations.IdleStepOnlyEndsTheResponsePulse : Prop :=
  ∀ s : State, s.seq = .idle → s.env.requests = [] →
    step s = .next { s with rsp := { s.rsp with valid := false } }

/-- No step exists after a model fault, in a hang, or at a source read that is not admitted (R41, R263,
R266, R267). -/
def Obligations.NoStepWhenHaltedHungOrStuck : Prop :=
  ∀ s : State, (s.seq = .halted → step s = .fault .halted) ∧
    (s.seq = .busy → s.waiting = .busDriver → step s = .fault .noAnswer) ∧
    (s.seq = .busy → s.waiting = .hostMemory → step s = .fault .sourceNotAdmitted)

/-! ### Illegal rows -/

/-- The opcode table's reserved rows take the fault ILLEGAL_REQUEST in every mode: code 1 in the sticky
register, FAULT in the trace, `seq` HALTED, nothing else (R106, R266). -/
def Obligations.ReservedRowsTakeIllegalRequest : Prop :=
  ∀ (s : State) (lowB : BitVec 28) (lowC : BitVec 30),
    exec (.reservedB lowB) s
      = .next { s with fault := 1, seq := .halted, trace := s.trace ++ [.fault 1] } ∧
    exec (.reservedCtoF lowC) s
      = .next { s with fault := 1, seq := .halted, trace := s.trace ++ [.fault 1] }

/-- A write request in any mode but READY takes NOT_READY, before every other check and with no other
effect (R265, R266). -/
def Obligations.WriteOutsideReadyTakesNotReady : Prop :=
  ∀ (i : Instr) (s : State), isWrite i = true → s.mode ≠ .ready →
    exec i s = .next { s with fault := 2, seq := .halted, trace := s.trace ++ [.fault 2] }

/-! ### open -/

/-- `open` in mode READY or FAILED takes REOPEN, with no other effect (R265, R266). -/
def Obligations.SecondOpenTakesReopen : Prop :=
  ∀ s : State, s.mode ≠ .uninit →
    exec .openEngine s = .next { s with fault := 3, seq := .halted, trace := s.trace ++ [.fault 3] }

/-- Validation of the chip-select pin: a negative one answers InitError CS_PIN_INVALID with no other event
and `mode` FAILED; one at or above `NUM_PINS` takes BAD_PIN (R141). -/
def Obligations.OpenValidatesTheChipSelectPin : Prop :=
  ∀ s : State, s.mode = .uninit →
    (s.cfg.cs.toInt < 0 →
      exec .openEngine s = .next { s with
        mode := .failed, seq := .idle, rsp := response 1 1 0, trace := s.trace ++ [.rsp 1 1 0] }) ∧
    (0 ≤ s.cfg.cs.toInt → s.params.numPins ≤ s.cfg.cs.toNat →
      exec .openEngine s = .next { s with fault := 4, seq := .halted, trace := s.trace ++ [.fault 4] })

/-- A chip-select pin whose bit does not fit its bank's 32-bit mask takes BAD_PIN, with no other effect
(R142, R266). -/
def Obligations.OpenRefusesAPinBeyondItsBank : Prop :=
  ∀ s : State, s.mode = .uninit → 0 ≤ s.cfg.cs.toInt → s.cfg.cs.toNat < s.params.numPins →
    (s.cfg.cs.toNat < s.params.bankThreshold ∧ 32 ≤ s.cfg.cs.toNat ∨
      s.params.bankThreshold ≤ s.cfg.cs.toNat ∧ 32 ≤ s.cfg.cs.toNat - s.params.bankThreshold) →
    exec .openEngine s = .next { s with fault := 4, seq := .halted, trace := s.trace ++ [.fault 4] }

namespace Sys2Proof.Statements

/-- The chip-select pin `open` accepts, with the bank it selects and its bit there (R141, R142). -/
def GoodPin (s : State) (b : Bank) (bit : Nat) : Prop :=
  s.mode = .uninit ∧ 0 ≤ s.cfg.cs.toInt ∧ s.cfg.cs.toNat < s.params.numPins ∧ bit < 32 ∧
    (b = .low ∧ s.cfg.cs.toNat < s.params.bankThreshold ∧ bit = s.cfg.cs.toNat ∨
      b = .high ∧ s.params.bankThreshold ≤ s.cfg.cs.toNat ∧
        bit = s.cfg.cs.toNat - s.params.bankThreshold)

/-- The set and clear registers of a bank (R8). -/
def bankRegisters (p : Params) (b : Bank) : Nat × Nat :=
  match b with
  | .low => (p.setLow.toNat, p.clrLow.toNat)
  | .high => (p.setHigh.toNat, p.clrHigh.toNat)

/-- The register that drives chip select inactive (R143). -/
def inactiveRegister (p : Params) (b : Bank) : Nat :=
  if p.csActiveLow then (bankRegisters p b).1 else (bankRegisters p b).2

/-- PinBinding after `open` (R142). -/
def boundPins (s : State) (b : Bank) (bit : Nat) : PinBinding :=
  { csPin := s.cfg.cs, sckPin := s.cfg.sck, d0Pin := s.cfg.d0, d1Pin := s.cfg.d1, d2Pin := s.cfg.d2,
    d3Pin := s.cfg.d3, csBank := b, csMask := 1 <<< bit, csSetAddr := (bankRegisters s.params b).1,
    csClrAddr := (bankRegisters s.params b).2 }

/-- TransferConfig after `open` (R144). -/
def resolvedXfer (s : State) : TransferConfig :=
  { clockSpeed := if s.cfg.clock.toInt < 0 then s.params.defaultClock else s.cfg.clock
    spiMode := if s.cfg.mode.toInt < 0 then s.params.defaultSpiMode else s.cfg.mode }

/-- The events of `open` up to the configured CS pin, in order (R143). -/
def pinEvents (s : State) (b : Bank) (bit : Nat) : List Event :=
  [.pinCfg s.cfg.cs, .regWrite (inactiveRegister s.params b) (1 <<< bit), .cs .deasserted]

/-- The event of `initializeBus` (R54, R145). -/
def busEvent (s : State) : Event :=
  .busInit { sckPin := s.cfg.sck, d0Pin := s.cfg.d0, d1Pin := s.cfg.d1, d2Pin := s.cfg.d2,
             d3Pin := s.cfg.d3, maxTransferSize := 2 * s.params.cap.val, flags := s.params.busFlags,
             clockSpeed := (resolvedXfer s).clockSpeed, spiMode := (resolvedXfer s).spiMode }
    s.env.busInit

/-- The address an allocator's number stands for: `ADDR_W` bits (R8, R38; that a larger number is read
modulo `2^ADDR_W` is log 15). -/
def bufferAddress (s : State) (base : Nat) : Nat := base % 2 ^ s.params.addrW

/-- The event of the allocator (R146). -/
def allocEvent (s : State) : Event := .alloc (2 * s.params.cap.val) (s.env.alloc.map (bufferAddress s))

/-- The event of `registerDevice` (R36, R147). -/
def deviceEvent (s : State) : Event :=
  .devReg { cmdBits := 8, addrBits := 24, halfDuplex := true, queueDepth := s.params.queueDepth.val }
    s.env.devReg

/-- The state once the CS pin is configured and TransferConfig resolved, with the rest of `open`'s events
after the pin's (R142 to R144). -/
def openedTo (s : State) (b : Bank) (bit : Nat) (events : List Event) : State :=
  { s with
    pins := boundPins s b bit
    xfer := resolvedXfer s
    cs := .deasserted
    platform := s.platform.regWrite s.params (inactiveRegister s.params b) (1 <<< bit)
    trace := s.trace ++ pinEvents s b bit ++ events }

end Sys2Proof.Statements

/-- `open` with a good pin and every draw Ok: the binding, the resolved configuration, the handles, the
allocated buffer with free contents, `mode` READY, chip select deasserted, the seven events, the OK
response, and nothing else (R140 to R148, R294; the buffer's bytes are free values, log 8, the select
banks are log 11, and an allocator's number beyond `ADDR_W` bits is log 15). -/
def Obligations.OpenBindsAndBecomesReady : Prop :=
  ∀ (s : State) (b : Bank) (bit ctx base handle : Nat), GoodPin s b bit →
    s.env.busInit = some ctx → s.env.alloc = some base → s.env.devReg = some handle →
    exec .openEngine s = .next
      { openedTo s b bit [busEvent s, allocEvent s, deviceEvent s, .rsp 0 0 0] with
        busContext := some ctx
        bufBase := bufferAddress s base
        bufAllocated := true
        buf := (List.range (2 * s.params.cap.val)).map Config.freshBufByte
        deviceHandle := some handle
        mode := .ready
        seq := .idle
        rsp := response 0 0 0 }

/-- `open` at the first external call that answers Err: InitError with its cause, `mode` FAILED, what the
steps before it acquired kept, the later steps not made (R145 to R147, R149, R261, R265; an allocator's
number beyond `ADDR_W` bits is log 15). -/
def Obligations.OpenStopsAtTheFirstFailedCall : Prop :=
  ∀ (s : State) (b : Bank) (bit : Nat), GoodPin s b bit →
    (s.env.busInit = none →
      exec .openEngine s = .next { openedTo s b bit [busEvent s, .rsp 1 2 0] with
        mode := .failed, seq := .idle, rsp := response 1 2 0 }) ∧
    (∀ ctx, s.env.busInit = some ctx → s.env.alloc = none →
      exec .openEngine s = .next { openedTo s b bit [busEvent s, allocEvent s, .rsp 1 3 0] with
        busContext := some ctx, mode := .failed, seq := .idle, rsp := response 1 3 0 }) ∧
    (∀ ctx base, s.env.busInit = some ctx → s.env.alloc = some base → s.env.devReg = none →
      exec .openEngine s = .next
        { openedTo s b bit [busEvent s, allocEvent s, deviceEvent s, .rsp 1 4 0] with
          busContext := some ctx
          bufBase := bufferAddress s base
          bufAllocated := true
          buf := (List.range (2 * s.params.cap.val)).map Config.freshBufByte
          mode := .failed
          seq := .idle
          rsp := response 1 4 0 })

/-! ### Single-shot operations -/

/-- A single-shot operation whose submission answers Ok: one bracket with one framed transaction of the
opcode, address and payload of R113, `txDone` 1, `framing` FRAMED, the OK response, and nothing else: no
buffer byte, no host memory byte, no other register (R152, R157, R170 to R176, R179). -/
def Obligations.SingleShotSendsItsOneTransaction : Prop :=
  ∀ (i : Instr) (s : State) (cv : Half) (av : Word) (p : List Byte) (rest : List SubmitAnswer),
    singleShotOf i = some (cv, av, p) → s.mode = .ready → s.env.submits = .ok :: rest →
    exec i s = .next { s with
      env := { s.env with submits := rest }
      cs := .deasserted
      framing := .framed
      plan := { s.plan with txDone := 1 }
      txn := framedRecord cv av p
      retained := some (heldLanes s cv)
      platform := toggledPlatform s
      seq := .idle
      rsp := response 0 0 0
      trace := s.trace ++ selectEvents s ++ [.txn (framedRecord cv av p) (some .ok)]
        ++ deselectEvents s ++ [.rsp 0 0 0] }

/-- A single-shot operation whose submission answers Err: the bracket still ends with `CS(DEASSERTED)`,
the response is TRANSPORT_ERROR with `txDone` 0, `mode` stays READY, and what the driver retains is a
free value (R152, R176, R178, R262; log 9). -/
def Obligations.SingleShotReportsATransportError : Prop :=
  ∀ (i : Instr) (s : State) (cv : Half) (av : Word) (p : List Byte) (n : Nat) (rest : List SubmitAnswer),
    singleShotOf i = some (cv, av, p) → s.mode = .ready → s.env.submits = .err n :: rest →
    exec i s = .next { s with
      env := { s.env with submits := rest }
      cs := .deasserted
      framing := .framed
      plan := { s.plan with txDone := 0 }
      txn := framedRecord cv av p
      retained := Config.retainedAfterErr s.frees
      frees := s.frees + 1
      platform := toggledPlatform s
      seq := .idle
      rsp := response 2 0 0
      trace := s.trace ++ selectEvents s ++ [.txn (framedRecord cv av p) (some (.err n))]
        ++ deselectEvents s ++ [.rsp 2 0 0] }

/-- A single-shot operation whose submission is never answered: chip select stays asserted, TXN is the
last event, no response (R154, R263). -/
def Obligations.SingleShotHangsWithoutAnAnswer : Prop :=
  ∀ (i : Instr) (s : State) (cv : Half) (av : Word) (p : List Byte),
    singleShotOf i = some (cv, av, p) → s.mode = .ready → s.env.submits = [] →
    exec i s = .next { s with
      cs := .asserted
      framing := .framed
      plan := { s.plan with txDone := 0 }
      txn := framedRecord cv av p
      retained := some (heldLanes s cv)
      platform := selectedPlatform s
      waiting := .busDriver
      trace := s.trace ++ selectEvents s ++ [.txn (framedRecord cv av p) none] }

/-- `writeCommand16(c << 8)` does what `writeCommand(c)` does, in every state (R171). -/
def Obligations.ShiftedWideCommandIsTheByteCommand : Prop :=
  ∀ (c : Byte) (s : State), exec (.writeCommand16 (c.setWidth 16 <<< 8)) s = exec (.writeCommand c) s

/-! ### Streamed operations -/

/-- A streamed operation with `count = 0`, and `writePattern` with `repeatCount = 0` or `patternLen = 0`,
does nothing but answer OK (with the repeat count, for `writePattern`); the pointer is not examined
(R204, R235, R265). -/
def Obligations.EmptyStreamOnlyResponds : Prop :=
  ∀ (s : State) (value : Half) (ptr n m : Word), s.mode = .ready →
    (∀ i ∈ [Instr.writeRepeated value 0, .writePixelStream ptr 0, .writeByteStream ptr 0],
      exec i s = .next { s with seq := .idle, rsp := response 0 0 0, trace := s.trace ++ [.rsp 0 0 0] }) ∧
    (n = 0 ∨ m = 0 →
      exec (.writePattern ptr n m) s
        = .next { s with seq := .idle, rsp := response 0 0 m, trace := s.trace ++ [.rsp 0 0 m] })

/-- An odd `writePixelStream` pointer with `count > 0` takes SRC_MISALIGNED, before the alias check and
with no other effect (R75, R206, R265). -/
def Obligations.OddPixelSourceTakesMisaligned : Prop :=
  ∀ (s : State) (ptr count : Word), s.mode = .ready → count ≠ 0 → ptr.toNat % 2 = 1 →
    exec (.writePixelStream ptr count) s
      = .next { s with fault := 5, seq := .halted, trace := s.trace ++ [.fault 5] }

/-- A non-empty source range that overlaps the TransferBuffer takes SRC_ALIAS with no other effect; for
`writePixelStream` when its pointer is even (R206, R265). -/
def Obligations.SourceOverTheBufferTakesAlias : Prop :=
  ∀ (s : State) (ptr n m : Word), s.mode = .ready → n ≠ 0 →
    (ptr.toNat % 2 = 0 → ptr.toNat < s.bufBase + 2 * s.params.cap.val →
      s.bufBase < ptr.toNat + 2 * n.toNat →
      exec (.writePixelStream ptr n) s
        = .next { s with fault := 6, seq := .halted, trace := s.trace ++ [.fault 6] }) ∧
    (ptr.toNat < s.bufBase + 2 * s.params.cap.val → s.bufBase < ptr.toNat + n.toNat →
      exec (.writeByteStream ptr n) s
        = .next { s with fault := 6, seq := .halted, trace := s.trace ++ [.fault 6] }) ∧
    (m ≠ 0 → ptr.toNat < s.bufBase + 2 * s.params.cap.val → s.bufBase < ptr.toNat + n.toNat →
      exec (.writePattern ptr n m) s
        = .next { s with fault := 6, seq := .halted, trace := s.trace ++ [.fault 6] })

/-- A streamed operation all of whose submissions answer Ok: one bracket, `ceil_div` transactions, the
first framed with `0x32` and `0x003C00` and the rest continuations, whose payloads are the wire bytes cut
at `CAP_BYTES`; the OK response; the registers of R43; and the frame (R152, R200 to R208, R210, R220,
R230; the frame's host memory is log 17). -/
def Obligations.StreamSendsItsBytesInChunks : Prop :=
  ∀ (i : Instr) (s : State) (bytes : List Byte) (rest : List SubmitAnswer), s.mode = .ready →
    Streams i s bytes → s.env.submits = oks (transactions i s) ++ rest →
    ∃ t, exec i s = .next t ∧
      t.trace = s.trace ++ selectEvents s ++ okEvents (capBytes s.params) bytes (transactions i s)
        ++ deselectEvents s ++ [.rsp 0 0 0] ∧
      t.seq = .idle ∧ t.rsp = response 0 0 0 ∧ t.cs = .deasserted ∧ t.framing = .continuation ∧
      t.plan.txDone = BitVec.ofNat 32 (transactions i s) ∧ t.plan.remaining = 0 ∧
      t.plan.chunk.toNat = (elements i s).1 - (transactions i s - 1) * (elements i s).2 ∧
      PlanAfter i s t (elements i s).1 ∧
      t.txn = recordAt (capBytes s.params) bytes (transactions i s - 1) ∧
      t.retained = some s.params.lanes.cmd32.data ∧ t.frees = s.frees ∧ t.waiting = s.waiting ∧
      BufferAfter s t bytes (transactions i s - 1) ∧
      t.platform = toggledPlatform s ∧ t.env.submits = rest ∧ WriteFrame s t

/-- A streamed operation whose submission number `j` (from 0) answers Err: the chunks after it are not
sent, chip select is deasserted, the response is TRANSPORT_ERROR with `txDone = j`, `mode` stays READY, and
what the driver retains is a free value (R157, R200, R207, R262, R268; log 9). Only the source of the
chunks `0 .. j` need be admitted (R87); `bytes` are theirs. The frame's host memory is log 17. -/
def Obligations.StreamStopsAtTheFirstFailedChunk : Prop :=
  ∀ (i : Instr) (s : State) (bytes : List Byte) (j n : Nat) (rest : List SubmitAnswer),
    s.mode = .ready → j < transactions i s → StreamsUpTo i s (elementsThrough i s j) bytes →
    s.env.submits = oks j ++ .err n :: rest →
    ∃ t, exec i s = .next t ∧
      t.trace = s.trace ++ selectEvents s ++ okEvents (capBytes s.params) bytes j
        ++ [.txn (recordAt (capBytes s.params) bytes j) (some (.err n))]
        ++ deselectEvents s ++ [.rsp 2 (BitVec.ofNat 32 j) 0] ∧
      t.seq = .idle ∧ t.rsp = response 2 (BitVec.ofNat 32 j) 0 ∧ t.cs = .deasserted ∧
      t.framing = (if j = 0 then .framed else .continuation) ∧
      t.plan.txDone = BitVec.ofNat 32 j ∧
      t.plan.remaining.toNat = (elements i s).1 - j * (elements i s).2 ∧
      t.plan.chunk.toNat = min t.plan.remaining.toNat (elements i s).2 ∧
      PlanAfter i s t (min (elements i s).1 ((j + 1) * (elements i s).2)) ∧
      t.txn = recordAt (capBytes s.params) bytes j ∧ BufferAfter s t bytes j ∧
      t.retained = Config.retainedAfterErr s.frees ∧ t.frees = s.frees + 1 ∧ t.waiting = s.waiting ∧
      t.platform = toggledPlatform s ∧ t.env.submits = rest ∧ WriteFrame s t

/-- A streamed operation whose submission number `j` is never answered: TXN without an answer is the last
event, chip select stays asserted, no response (R154, R263, R307). Only the source of the chunks `0 .. j`
need be admitted (R87); `bytes` are theirs. The frame's host memory is log 17. -/
def Obligations.StreamHangsWithoutAnAnswer : Prop :=
  ∀ (i : Instr) (s : State) (bytes : List Byte) (j : Nat),
    s.mode = .ready → j < transactions i s → StreamsUpTo i s (elementsThrough i s j) bytes →
    s.env.submits = oks j →
    ∃ t, exec i s = .next t ∧
      t.trace = s.trace ++ selectEvents s ++ okEvents (capBytes s.params) bytes j
        ++ [.txn (recordAt (capBytes s.params) bytes j) none] ∧
      t.seq = s.seq ∧ t.rsp = s.rsp ∧ t.cs = .asserted ∧ t.waiting = .busDriver ∧
      t.framing = (if j = 0 then .framed else .continuation) ∧
      t.plan.txDone = BitVec.ofNat 32 j ∧
      t.plan.remaining.toNat = (elements i s).1 - j * (elements i s).2 ∧
      t.plan.chunk.toNat = min t.plan.remaining.toNat (elements i s).2 ∧
      PlanAfter i s t (min (elements i s).1 ((j + 1) * (elements i s).2)) ∧
      t.txn = recordAt (capBytes s.params) bytes j ∧ BufferAfter s t bytes j ∧
      t.retained = some s.params.lanes.cmd32.data ∧ t.frees = s.frees ∧
      t.platform = selectedPlatform s ∧ t.env.submits = [] ∧ WriteFrame s t

/-- A byte stream whose source byte number `bytes.length` is the first that host memory does not admit:
the chunks before its own are sent, the engine is stuck with chip select asserted, no response and no
fault; the buffer holds the bytes of its chunk that were read, and `srcAddr` stands at the chunk's start
(R72, R230, R231, R267; log 16, and log 17 for the frame's host memory). -/
def Obligations.ByteStreamSticksAtAnUnadmittedRead : Prop :=
  ∀ (s : State) (ptr count : Word) (bytes : List Byte) (q : Nat) (rest : List SubmitAnswer),
    s.mode = .ready → SourceAdmitted s ptr count.toNat → bytes.length < count.toNat →
    SourceBytes s ptr bytes → s.env.mem.read8 s.params.addrW (ptr.toNat + bytes.length) = none →
    q = bytes.length / capBytes s.params → s.env.submits = oks q ++ rest →
    ∃ t, exec (.writeByteStream ptr count) s = .next t ∧
      t.trace = s.trace ++ selectEvents s ++ okEvents (capBytes s.params) bytes q ∧
      t.seq = s.seq ∧ t.rsp = s.rsp ∧ t.cs = .asserted ∧ t.waiting = .hostMemory ∧
      t.framing = (if q = 0 then .framed else .continuation) ∧
      t.plan.txDone = BitVec.ofNat 32 q ∧ t.plan.repDone = s.plan.repDone ∧
      t.plan.filled = s.plan.filled ∧ t.plan.srcAddr = ptr.toNat + q * capBytes s.params ∧
      t.plan.remaining.toNat = count.toNat - q * capBytes s.params ∧
      t.plan.chunk.toNat = min t.plan.remaining.toNat (capBytes s.params) ∧
      t.txn = (if q = 0 then s.txn else recordAt (capBytes s.params) bytes (q - 1)) ∧
      BufferAfter s t bytes q ∧
      t.retained = (if q = 0 then s.retained else some s.params.lanes.cmd32.data) ∧
      t.frees = s.frees ∧ t.platform = selectedPlatform s ∧ t.env.submits = rest ∧ WriteFrame s t

/-- A pixel stream whose source word number `n` is the first that host memory does not admit (`bytes` are
the wire bytes of the words before it): as a byte stream, in words (R72, R220, R221, R267; logs 16, 17). -/
def Obligations.PixelStreamSticksAtAnUnadmittedRead : Prop :=
  ∀ (s : State) (ptr count : Word) (bytes : List Byte) (n q : Nat) (rest : List SubmitAnswer),
    s.mode = .ready → ptr.toNat % 2 = 0 → SourceAdmitted s ptr (2 * count.toNat) → n < count.toNat →
    bytes.length = 2 * n →
    (∀ k < n, bytes[2 * k + 1]? = s.env.mem.read8 s.params.addrW (ptr.toNat + 2 * k) ∧
      bytes[2 * k]? = s.env.mem.read8 s.params.addrW (ptr.toNat + 2 * k + 1)) →
    s.env.mem.read16 s.params.addrW (ptr.toNat + 2 * n) = none →
    q = n / s.params.cap.val → s.env.submits = oks q ++ rest →
    ∃ t, exec (.writePixelStream ptr count) s = .next t ∧
      t.trace = s.trace ++ selectEvents s ++ okEvents (capBytes s.params) bytes q ∧
      t.seq = s.seq ∧ t.rsp = s.rsp ∧ t.cs = .asserted ∧ t.waiting = .hostMemory ∧
      t.framing = (if q = 0 then .framed else .continuation) ∧
      t.plan.txDone = BitVec.ofNat 32 q ∧ t.plan.repDone = s.plan.repDone ∧
      t.plan.filled = s.plan.filled ∧ t.plan.srcAddr = ptr.toNat + 2 * (q * s.params.cap.val) ∧
      t.plan.remaining.toNat = count.toNat - q * s.params.cap.val ∧
      t.plan.chunk.toNat = min t.plan.remaining.toNat s.params.cap.val ∧
      t.txn = (if q = 0 then s.txn else recordAt (capBytes s.params) bytes (q - 1)) ∧
      BufferAfter s t bytes q ∧
      t.retained = (if q = 0 then s.retained else some s.params.lanes.cmd32.data) ∧
      t.frees = s.frees ∧ t.platform = selectedPlatform s ∧ t.env.submits = rest ∧ WriteFrame s t

/-- `writePattern` all of whose submissions answer Ok: `repeatCount` brackets, each the bracket of
`writeByteStream(ptr, patternLen)` with its first transaction framed again; the response carries
`repeatCount` (R131, R235, R236; the frame's host memory is log 17). -/
def Obligations.PatternRepeatsWholeBrackets : Prop :=
  ∀ (s : State) (ptr len reps : Word) (bytes : List Byte) (rest : List SubmitAnswer), s.mode = .ready →
    len ≠ 0 → reps ≠ 0 → SourceAdmitted s ptr len.toNat → bytes.length = len.toNat →
    SourceBytes s ptr bytes →
    s.env.submits = oks (reps.toNat * ceilDiv len.toNat (capBytes s.params)) ++ rest →
    ∃ t, exec (.writePattern ptr len reps) s = .next t ∧
      t.trace = s.trace
        ++ (List.replicate reps.toNat (selectEvents s
            ++ okEvents (capBytes s.params) bytes (ceilDiv len.toNat (capBytes s.params))
            ++ deselectEvents s)).flatten
        ++ [.rsp 0 0 reps] ∧
      t.seq = .idle ∧ t.rsp = response 0 0 reps ∧ t.cs = .deasserted ∧ t.plan.repDone = reps ∧
      t.plan.txDone = BitVec.ofNat 32 (ceilDiv len.toNat (capBytes s.params)) ∧
      t.plan.srcAddr = ptr.toNat + len.toNat ∧ t.plan.filled = s.plan.filled ∧ t.plan.remaining = 0 ∧
      t.plan.chunk.toNat
        = len.toNat - (ceilDiv len.toNat (capBytes s.params) - 1) * capBytes s.params ∧
      t.framing = .continuation ∧
      t.txn = recordAt (capBytes s.params) bytes (ceilDiv len.toNat (capBytes s.params) - 1) ∧
      BufferAfter s t bytes (ceilDiv len.toNat (capBytes s.params) - 1) ∧
      t.retained = some s.params.lanes.cmd32.data ∧ t.frees = s.frees ∧
      t.waiting = s.waiting ∧ t.platform = toggledPlatform s ∧ t.env.submits = rest ∧ WriteFrame s t

/-- `writePattern` whose repetition number `m` (from 0) fails at its submission number `j`: that bracket
ends with `CS(DEASSERTED)`, no later repetition starts, and the response carries `txDone = j` of the
failing bracket and `repDone = m` (R207, R235, R260, R262). A failure in the first repetition needs only
the chunks `0 .. j` of the pattern admitted, a later one the whole pattern; `bytes` are theirs. The frame's
host memory is log 17. -/
def Obligations.PatternStopsAtTheFirstError : Prop :=
  ∀ (s : State) (ptr len reps : Word) (bytes : List Byte) (m j n : Nat) (rest : List SubmitAnswer),
    s.mode = .ready → len ≠ 0 → m < reps.toNat → SourceAdmitted s ptr len.toNat →
    bytes.length = patternThrough s len m j → SourceBytes s ptr bytes →
    j < ceilDiv len.toNat (capBytes s.params) →
    s.env.submits = oks (m * ceilDiv len.toNat (capBytes s.params) + j) ++ .err n :: rest →
    ∃ t, exec (.writePattern ptr len reps) s = .next t ∧
      t.trace = s.trace
        ++ (List.replicate m (selectEvents s
            ++ okEvents (capBytes s.params) bytes (ceilDiv len.toNat (capBytes s.params))
            ++ deselectEvents s)).flatten
        ++ selectEvents s ++ okEvents (capBytes s.params) bytes j
        ++ [.txn (recordAt (capBytes s.params) bytes j) (some (.err n))]
        ++ deselectEvents s ++ [.rsp 2 (BitVec.ofNat 32 j) (BitVec.ofNat 32 m)] ∧
      t.seq = .idle ∧ t.rsp = response 2 (BitVec.ofNat 32 j) (BitVec.ofNat 32 m) ∧
      t.cs = .deasserted ∧ t.plan.repDone = BitVec.ofNat 32 m ∧ t.plan.txDone = BitVec.ofNat 32 j ∧
      t.plan.remaining.toNat = len.toNat - j * capBytes s.params ∧ t.plan.filled = s.plan.filled ∧
      t.plan.srcAddr = ptr.toNat + min len.toNat ((j + 1) * capBytes s.params) ∧
      t.plan.chunk.toNat = min t.plan.remaining.toNat (capBytes s.params) ∧
      t.framing = (if j = 0 then .framed else .continuation) ∧
      t.txn = recordAt (capBytes s.params) bytes j ∧
      BufferAfter s t bytes j ∧
      t.retained = Config.retainedAfterErr s.frees ∧ t.frees = s.frees + 1 ∧ t.waiting = s.waiting ∧
      t.platform = toggledPlatform s ∧ t.env.submits = rest ∧ WriteFrame s t

/-- `writePattern` whose submission number `j` of repetition `m` (from 0) is never answered: the `m` brackets
before it are whole, TXN without an answer is the last event, chip select stays asserted, no response
(R154, R235, R263; `waiting` is log 26). A hang in the first repetition needs only the chunks `0 .. j` of
the pattern admitted, a later one the whole pattern; `bytes` are theirs. The frame's host memory is log
17. -/
def Obligations.PatternHangsWithoutAnAnswer : Prop :=
  ∀ (s : State) (ptr len reps : Word) (bytes : List Byte) (m j : Nat),
    s.mode = .ready → len ≠ 0 → m < reps.toNat → SourceAdmitted s ptr len.toNat →
    bytes.length = patternThrough s len m j → SourceBytes s ptr bytes →
    j < ceilDiv len.toNat (capBytes s.params) →
    s.env.submits = oks (m * ceilDiv len.toNat (capBytes s.params) + j) →
    ∃ t, exec (.writePattern ptr len reps) s = .next t ∧
      t.trace = s.trace
        ++ (List.replicate m (selectEvents s
            ++ okEvents (capBytes s.params) bytes (ceilDiv len.toNat (capBytes s.params))
            ++ deselectEvents s)).flatten
        ++ selectEvents s ++ okEvents (capBytes s.params) bytes j
        ++ [.txn (recordAt (capBytes s.params) bytes j) none] ∧
      t.seq = s.seq ∧ t.rsp = s.rsp ∧ t.cs = .asserted ∧ t.waiting = .busDriver ∧
      t.plan.repDone = BitVec.ofNat 32 m ∧ t.plan.txDone = BitVec.ofNat 32 j ∧
      t.plan.remaining.toNat = len.toNat - j * capBytes s.params ∧ t.plan.filled = s.plan.filled ∧
      t.plan.srcAddr = ptr.toNat + min len.toNat ((j + 1) * capBytes s.params) ∧
      t.plan.chunk.toNat = min t.plan.remaining.toNat (capBytes s.params) ∧
      t.framing = (if j = 0 then .framed else .continuation) ∧
      t.txn = recordAt (capBytes s.params) bytes j ∧ BufferAfter s t bytes j ∧
      t.retained = some s.params.lanes.cmd32.data ∧ t.frees = s.frees ∧
      t.platform = selectedPlatform { s with platform := if m = 0 then s.platform else toggledPlatform s } ∧
      t.env.submits = [] ∧ WriteFrame s t

/-- `writePattern` whose pattern byte number `bytes.length` is the first that host memory does not admit
sticks in its first repetition, as a byte stream does (R72, R231, R235, R267; logs 16, 17). -/
def Obligations.PatternSticksAtAnUnadmittedRead : Prop :=
  ∀ (s : State) (ptr len reps : Word) (bytes : List Byte) (q : Nat) (rest : List SubmitAnswer),
    s.mode = .ready → reps ≠ 0 → SourceAdmitted s ptr len.toNat → bytes.length < len.toNat →
    SourceBytes s ptr bytes → s.env.mem.read8 s.params.addrW (ptr.toNat + bytes.length) = none →
    q = bytes.length / capBytes s.params → s.env.submits = oks q ++ rest →
    ∃ t, exec (.writePattern ptr len reps) s = .next t ∧
      t.trace = s.trace ++ selectEvents s ++ okEvents (capBytes s.params) bytes q ∧
      t.seq = s.seq ∧ t.rsp = s.rsp ∧ t.cs = .asserted ∧ t.waiting = .hostMemory ∧
      t.framing = (if q = 0 then .framed else .continuation) ∧
      t.plan.txDone = BitVec.ofNat 32 q ∧ t.plan.repDone = 0 ∧
      t.plan.filled = s.plan.filled ∧ t.plan.srcAddr = ptr.toNat + q * capBytes s.params ∧
      t.plan.remaining.toNat = len.toNat - q * capBytes s.params ∧
      t.plan.chunk.toNat = min t.plan.remaining.toNat (capBytes s.params) ∧
      t.txn = (if q = 0 then s.txn else recordAt (capBytes s.params) bytes (q - 1)) ∧
      BufferAfter s t bytes q ∧
      t.retained = (if q = 0 then s.retained else some s.params.lanes.cmd32.data) ∧
      t.frees = s.frees ∧ t.platform = selectedPlatform s ∧ t.env.submits = rest ∧ WriteFrame s t

/-- No byte of the TransferBuffer that the request did not write is transmitted, nor seen in any other
way: with any other buffer contents the trace, the response, `seq` and `waiting` are the same (R214,
R292). -/
def Obligations.OldBufferContentsAreNeverSeen : Prop :=
  ∀ (i : Instr) (s : State) (other : List Byte), ∃ t u,
    exec i s = .next t ∧ exec i { s with buf := other } = .next u ∧
      u.trace = t.trace ∧ u.rsp = t.rsp ∧ u.seq = t.seq ∧ u.waiting = t.waiting ∧ u.fault = t.fault ∧
      u.mode = t.mode ∧ u.plan = t.plan ∧ u.txn = t.txn

/-- What R61 leaves unspecified is not read before `open` has written it: in mode UNINIT, with any other
PinBinding, TransferConfig, `bufBase` and `T`, every request leaves the same trace, response, `seq`,
`fault` and `mode` (R33, R290, R292). -/
def Obligations.UnspecifiedResetValuesAreNeverRead : Prop :=
  ∀ (i : Instr) (s : State) (pins : PinBinding) (xfer : TransferConfig) (base : Nat) (txn : Transaction),
    s.mode = .uninit → ∃ t u,
      exec i s = .next t ∧
      exec i { s with pins := pins, xfer := xfer, bufBase := base, txn := txn } = .next u ∧
      u.trace = t.trace ∧ u.rsp = t.rsp ∧ u.seq = t.seq ∧ u.fault = t.fault ∧ u.mode = t.mode ∧
      u.platform = t.platform ∧
      (t.mode = .ready → u.pins = t.pins ∧ u.xfer = t.xfer ∧ u.bufBase = t.bufBase ∧ u.buf = t.buf)

/-! ### Byte order, memory, registers -/

/-- The laws of the Byte-Order Normalizer for every 16-bit value (R243). -/
def Obligations.NormalizeSwapsTheBytes : Prop :=
  ∀ v a b : Half,
    normalize (normalize v) = v ∧
    (normalize v).extractLsb' 8 8 = v.extractLsb' 0 8 ∧ (normalize v).extractLsb' 0 8 = v.extractLsb' 8 8 ∧
    (normalize v = v ↔ v.extractLsb' 8 8 = v.extractLsb' 0 8) ∧
    normalize (a ^^^ b) = normalize a ^^^ normalize b ∧
    normalize (a &&& b) = normalize a &&& normalize b ∧
    normalize (a ||| b) = normalize a ||| normalize b

/-- Output bit `i` of the normalizer is input bit `(i + 8) mod 16` (R244). -/
def Obligations.NormalizeIsAPermutationOfWires : Prop :=
  ∀ (v : Half) (i : Nat), i < 16 → (normalize v).getLsbD i = v.getLsbD ((i + 8) % 16)

/-- `MemRead(a, 2)` is little-endian and admitted exactly when both its bytes are; a byte at or beyond
`2^ADDR_W` never is, so no source wraps to address 0 (R72). -/
def Obligations.MemoryReadsAreLittleEndianAndBounded : Prop :=
  ∀ (m : Memory) (addrW a : Nat),
    (∀ w, m.read16 addrW a = some w ↔
      m.read8 addrW a = some (w.extractLsb' 0 8) ∧ m.read8 addrW (a + 1) = some (w.extractLsb' 8 8)) ∧
    (2 ^ addrW ≤ a → m.read8 addrW a = none) ∧ (2 ^ addrW ≤ a + 1 → m.read16 addrW a = none)

/-- A chip-select register write changes the bits of its mask in its bank only, sets them at the set
register, clears them at the clear register, and is idempotent, on a platform whose four registers are
distinct (R79, R275; the write-one semantics and the distinctness are log 11). -/
def Obligations.SelectRegistersAreWriteOne : Prop :=
  ∀ (pl : Platform) (p : Params) (mask : Word),
    [p.setLow, p.clrLow, p.setHigh, p.clrHigh].Nodup →
    pl.regWrite p p.setLow.toNat mask = { pl with low := pl.low ||| mask } ∧
    pl.regWrite p p.clrLow.toNat mask = { pl with low := pl.low &&& ~~~mask } ∧
    pl.regWrite p p.setHigh.toNat mask = { pl with high := pl.high ||| mask } ∧
    pl.regWrite p p.clrHigh.toNat mask = { pl with high := pl.high &&& ~~~mask } ∧
    ∀ a, (pl.regWrite p a mask).regWrite p a mask = pl.regWrite p a mask

/-- Bit layout of a framed transaction: bits 0 to 7 are the command value from bit 7 down, bits 8 to 31
the address value from bit 23 down, bits `32 + 8j` to `39 + 8j` payload byte `j` from bit 7 down (R115;
the order within a phase is the spec's recommendation, log 18). -/
def Obligations.FramedBitsFollowTheLayout : Prop :=
  ∀ (cv : Byte) (av : BitVec 24) (p : List Byte),
    (wireBits (framedTxn cv av p)).length = 32 + 8 * p.length ∧
    (∀ k < 8, (wireBits (framedTxn cv av p))[k]? = some (cv.getLsbD (7 - k))) ∧
    (∀ k < 24, (wireBits (framedTxn cv av p))[8 + k]? = some (av.getLsbD (23 - k))) ∧
    (∀ (j : Nat) (b : Byte), p[j]? = some b → ∀ k < 8,
      (wireBits (framedTxn cv av p))[32 + 8 * j + k]? = some (b.getLsbD (7 - k)))

/-- The phases of a record on the wire, with their widths: command 8, address 24 and the data of a framed
one, the data alone of a continuation, which goes in the lane mode the driver retains; a data phase of
length 0 is absent (R57, R115, R116; what the driver retains is log 9). -/
def Obligations.PhasesFollowTheFormOfTheRecord : Prop :=
  ∀ (p : Params) (held : Option LaneCount) (cv : Byte) (av : BitVec 24) (bytes : List Byte),
    (wirePhases p held (framedTxn cv av bytes)).map (fun w => (w.kind, w.bits.length))
      = [(.command, 8), (.address, 24)] ++ (if bytes = [] then [] else [(.data, 8 * bytes.length)]) ∧
    (wirePhases p held (continuationTxn bytes)).map (fun w => (w.kind, w.lanes, w.bits.length))
      = if bytes = [] then [] else [(.data, held, 8 * bytes.length)]

/-! ### Invariants and whole-machine rules -/

/-- What power-on reset leaves, for every element whose value the spec gives (R61, R290): what it leaves
unspecified is the model's choice and no part of this statement. -/
def Obligations.ResetLeavesTheSpecsValues : Prop :=
  State.reset.mode = .uninit ∧ State.reset.seq = .idle ∧ State.reset.fault = 0 ∧
    State.reset.cs = .undriven ∧ State.reset.framing = .framed ∧
    State.reset.plan = { remaining := 0, srcAddr := 0, chunk := 0, filled := 0, txDone := 0, repDone := 0 } ∧
    State.reset.rsp.status = 0 ∧ State.reset.rsp.info0 = 0 ∧ State.reset.rsp.info1 = 0 ∧
    State.reset.bufAllocated = false ∧ State.reset.buf = [] ∧ State.reset.busContext = none ∧
    State.reset.deviceHandle = none ∧ State.reset.retained = none ∧ State.reset.trace = [] ∧
    State.reset.reqReady = true

/-- The invariant holds right after reset (R61, R290). -/
def Obligations.ResetMeetsTheInvariant : Prop := State.reset.Inv

/-- Every step keeps the invariant: the trace obeys the bus protocol (every transaction legal, inside a
bracket, framed exactly when first, none after a failure; chip select alternating and released at the
end of a request and at every fault), the registers agree with the trace, the fault and status codes stay
in range, READY means bound and allocated, the address registers hold `ADDR_W` bits, and host memory stays
canonical (R33, R34, R38, R46, R88, R111, R117, R152, R264, R294; log 13 for `CAP = 1`, log 15 for an
allocator's number beyond `ADDR_W` bits, log 25 for a long payload's bit length). -/
def Obligations.EveryStepKeepsTheInvariant : Prop :=
  ∀ s t : State, s.Inv → step s = .next t → t.Inv

/-- `mode` changes only from UNINIT, to READY or FAILED; once it is not UNINIT, no step changes it, nor
PinBinding, TransferConfig, the handles, or the buffer's place (R32, R33, R35, R37, R38, R306). That no
step changes the parameters of R8 is the model's choice to hold them in State (log 2). -/
def Obligations.BindingIsImmutableAfterOpen : Prop :=
  ∀ s t : State, step s = .next t →
    t.params = s.params ∧
    (s.mode ≠ .uninit → t.mode = s.mode ∧ t.pins = s.pins ∧ t.xfer = s.xfer ∧
      t.busContext = s.busContext ∧ t.deviceHandle = s.deviceHandle ∧ t.bufBase = s.bufBase ∧
      t.bufAllocated = s.bufAllocated)

/-- No step writes host memory or the configuration inputs: every byte reads as before (R52, R53). R53
excepts the TransferBuffer, which lies in host memory at `bufBase`; that no listed byte at all changes is
the model's choice to hold the buffer's bytes in `buf`, apart from host memory's list (log 17). -/
def Obligations.NoStepWritesHostMemory : Prop :=
  ∀ s t : State, step s = .next t →
    t.cfg = s.cfg ∧ ∀ a, t.env.mem.read8 t.params.addrW a = s.env.mem.read8 s.params.addrW a

/-- A step only appends to the trace (R60), and every Transaction record it submits obeys the rules of
records: `(8, 24)` or `(0, 0)` phase bits, no dummy phase, the bit length `8 * len` (where it fits 32 bits,
log 25), at most `CAP_BYTES` payload bytes, the two flags opposite and `isFirstInSequence` exactly on framed
records, the opcodes of R112, address bits 23:16 zero (R47, R81, R111, R112, R203). The one record beyond
`CAP_BYTES` is the command form with the 4 bytes of `writeCommandWithWords` where `CAP = 1` (log 13); every
continuation and every record that opens a stream keeps the bound. -/
def Obligations.SubmittedRecordsObeyTheRecordRules : Prop :=
  ∀ s t : State, step s = .next t → ∃ events, t.trace = s.trace ++ events ∧
    ∀ (r : Transaction) (a : Option SubmitAnswer), .txn r a ∈ events →
      (r.commandBits = 8 ∧ r.addressBits = 24 ∧ (r.commandValue = 0x0002 ∨ r.commandValue = 0x0032) ∨
        r.commandBits = 0 ∧ r.addressBits = 0 ∧ r.commandValue = 0 ∧ r.addressValue = 0) ∧
      r.dummyBits = 0 ∧
      (8 * r.payload.length < 2 ^ 32 → r.payloadBitLength.toNat = 8 * r.payload.length) ∧
      (r.payload.length ≤ 2 * s.params.cap.val ∨
        s.params.cap.val = 1 ∧ r.commandValue = 0x0002 ∧ r.payload.length = 4) ∧
      (r.isFirstInSequence = true ↔ r.commandBits = 8) ∧ r.reuseFraming = !r.isFirstInSequence ∧
      r.addressValue.toNat < 2 ^ 16

/-- Every fault comes before the request's first external effect: the step that raises one adds ACCEPT and
FAULT to the trace and nothing between, and leaves chip select, its registers and the buffer as they
were; so, from a state that meets the invariant, it does not leave chip select asserted (R51, R264, R266).
That `rsp_valid` falls at the step that accepts the request is the model's choice (log 19). -/
def Obligations.FaultsPrecedeEveryExternalEffect : Prop :=
  ∀ s t : State, step s = .next t → t.seq = .halted →
    ∃ d code, t.trace = s.trace ++ [.accept d, .fault code] ∧ t.fault = code ∧ t.cs = s.cs ∧
      t.platform = s.platform ∧ t.buf = s.buf ∧ t.mode = s.mode ∧ t.env.submits = s.env.submits ∧
      t.rsp = { s.rsp with valid := false } ∧ (s.Inv → t.cs ≠ .asserted)

/-- A step that accepts a request ends with exactly one response when the engine is IDLE again, and with
none otherwise (R51, R263, R266, R267; that `rsp_valid` is low after a step that gives no response is the
model's choice of the pulse's length, log 19). -/
def Obligations.OneResponsePerCompletedRequest : Prop :=
  ∀ s t : State, s.env.requests ≠ [] → step s = .next t →
    responses t.trace = responses s.trace + (if t.seq = .idle then 1 else 0) ∧
      (t.seq = .idle ↔ t.rsp.valid = true)

/-- Chip-select edges of a completed write request: as many `CS(DEASSERTED)` as `CS(ASSERTED)`; at most
one of each unless it is `writePattern`; none where no transaction is sent (R88, R152, R153, R156). -/
def Obligations.CompletedWritesReleaseChipSelect : Prop :=
  ∀ (i : Instr) (s t : State), isWrite i = true → exec i s = .next t → t.seq = .idle →
    s.seq = .busy →
    ∃ n, edges .asserted t.trace = edges .asserted s.trace + n ∧
      edges .deasserted t.trace = edges .deasserted s.trace + n ∧
      (submissions t.trace = submissions s.trace ↔ n = 0) ∧
      ((∀ ptr len reps, i ≠ .writePattern ptr len reps) → n ≤ 1)

/-! ### The one-event-a-step machine -/

namespace Sys2Proof.Statements

/-- The one-event-a-step machine with another host memory. -/
def withMemory (m : Micro) (mem : Memory) : Micro :=
  { m with st := { m.st with env := { m.st.env with mem := mem } } }

end Sys2Proof.Statements

/-- Each tick performs at most one external interaction (R31, R85, R150). Either it adds one event, or the
register write and the level change of one chip-select primitive, or the answer to the last TXN, and reads
no host memory: with any other memory it does the same. Or it leaves the trace and reads at most one
element, of at most two bytes: with any other memory that reads alike at those bytes it does the same. -/
def Obligations.EachTickIsOneEvent : Prop :=
  ∀ m m' : Micro, tick m = some m' →
    (((∃ e, m'.st.trace = m.st.trace ++ [e]) ∨
        (∃ a mask level, m'.st.trace = m.st.trace ++ [.regWrite a mask, .cs level]) ∨
        (∃ a, m'.st.trace = m.st.trace.dropLast ++ [.txn m.st.txn (some a)])) ∧
      ∀ mem, tick (withMemory m mem) = some (withMemory m' mem)) ∨
    (m'.st.trace = m.st.trace ∧ ∃ a n, n ≤ 2 ∧ ∀ mem,
      (∀ k < n, Memory.read8 mem m.st.params.addrW (a + k) = m.st.env.mem.read8 m.st.params.addrW (a + k)) →
      tick (withMemory m mem) = some (withMemory m' mem))

/-- A step of the machine that accepts a request is a run of ticks of the one-event-a-step machine, from
between requests to between requests, or to a position from which there is no tick; the two leave the
same state (R31, R85, R263, R267; log 1). -/
def Obligations.StepIsARunOfTicks : Prop :=
  ∀ s t : State, s.seq = .idle → s.env.requests ≠ [] → step s = .next t →
    ∃ n m, 0 < n ∧ ticks n ⟨s, .idle⟩ = some m ∧ m.settled = t ∧ (m.pos = .idle ∨ tick m = none)

/-- The response comes first and `seq` returns to IDLE in the tick after it, which changes nothing else: from
a BUSY engine, no other tick returns to IDLE (R31, R41; the order of the two is log 1). -/
def Obligations.IdleFollowsTheResponse : Prop :=
  ∀ m m' : Micro, tick m = some m' → m.st.seq = .busy →
    (∀ status i0 i1, m'.st.trace = m.st.trace ++ [.rsp status i0 i1] →
      m'.pos = .done ∧ m'.st.seq = .busy ∧ m'.st.rsp = response status i0 i1) ∧
    (m.pos = .done → m' = ⟨{ m.st with seq := .idle }, .idle⟩) ∧
    (m'.st.seq = .idle ↔ m.pos = .done)

/-! ### Ignored operand words -/

/-- Operand words that a request does not use are ignored: whatever they hold, the descriptor decodes to
the request (R105). -/
def Obligations.UnusedOperandWordsAreIgnored : Prop :=
  ∀ (addrW : Nat) (i : Instr) (a1 p a2 : Word), i.WellFormed addrW = true →
    decode addrW (descOf (hdr (encode i))
      (if usesArg1 i then arg1 (encode i) else a1)
      (if usesPtr i then ptrWord (encode i) else p)
      (if usesArg2 i then arg2 (encode i) else a2)) = .request i
end

