-- ==== Sys2Proof/Laws/Bytes.lean ====
section
/-! SUPPORT. The lemmas of the operand forms: the two bytes of a 16-bit word, the wire order that the
Byte-Order Normalizer gives a buffer word (spec/43_byte_order.md R242), and the buffer's bytes. -/

namespace Sys2Proof.Machine

/-! ### Two bytes and their word -/

@[simp] theorem loByte_half (b0 b1 : Byte) : loByte (half b0 b1) = b0 := by
  ext i hi
  have h1 : i < 16 := by omega
  simp [loByte, half, hi, h1]

@[simp] theorem hiByte_half (b0 b1 : Byte) : hiByte (half b0 b1) = b1 := by
  ext i hi
  have h1 : 8 + i < 16 := by omega
  simp [hiByte, half, hi, h1]

/-- A word is the value of its own two bytes (R72). -/
@[simp] theorem half_bytes (w : Half) : half (loByte w) (hiByte w) = w := by
  ext i hi
  rcases Nat.lt_or_ge i 8 with h | h
  · simp [half, loByte, hiByte, h, hi, BitVec.getLsbD_eq_getElem]
  · have h' : ¬ i < 8 := by omega
    have h'' : 8 + (i - 8) = i := by omega
    have h3 : i - 8 < 8 := by omega
    simp [half, loByte, hiByte, h', hi, h'', h3, BitVec.getLsbD_eq_getElem]

/-! ### Byte order -/

theorem be16_length (w : Half) : (be16 w).length = 2 := rfl

theorem le16_length (w : Half) : (le16 w).length = 2 := rfl

/-- A buffer word that holds `normalize(v)` stands in the buffer as `be16(v)` (R242). -/
theorem le16_normalize (v : Half) : le16 (normalize v) = be16 v := by
  have key : ∀ v : Half, loByte (normalize v) = hiByte v ∧ hiByte (normalize v) = loByte v := by
    intro v
    constructor
    · ext i hi
      simp [loByte, hiByte, normalize, hi]
    · ext i hi
      have h : 8 + i < 16 := by omega
      simp [loByte, hiByte, normalize, h]
      interval_cases i <;> simp
  simp [le16, be16, key v]

theorem wordsLE_nil : wordsLE [] = [] := rfl

theorem wordsLE_cons (w : Half) (ws : List Half) : wordsLE (w :: ws) = loByte w :: hiByte w :: wordsLE ws := rfl

theorem wordsLE_append (xs ys : List Half) : wordsLE (xs ++ ys) = wordsLE xs ++ wordsLE ys := by
  simp [wordsLE]

@[simp] theorem wordsLE_length (ws : List Half) : (wordsLE ws).length = 2 * ws.length := by
  induction ws with
  | nil => rfl
  | cons w ws ih => simp [wordsLE_cons, ih]; omega

/-- What a fill of normalized words puts into the buffer is their wire bytes (R241, R242). -/
theorem wordsLE_map_normalize (ws : List Half) : wordsLE (ws.map normalize) = ws.flatMap be16 := by
  induction ws with
  | nil => rfl
  | cons w ws ih =>
    have h : wordsLE (w :: ws |>.map normalize) = le16 (normalize w) ++ wordsLE (ws.map normalize) := rfl
    rw [h, le16_normalize, ih, List.flatMap_cons]

/-- The one fill of `writeRepeated` (R211). -/
theorem wordsLE_replicate_normalize (n : Nat) (v : Half) :
    wordsLE (List.replicate n (normalize v)) = (List.replicate n (be16 v)).flatten := by
  rw [← List.map_replicate, wordsLE_map_normalize, List.flatMap_def, List.map_replicate]

/-! ### The TransferBuffer's bytes -/

@[simp] theorem freshBuf_length (j n : Nat) : (freshBuf j n).length = n := by
  induction n generalizing j with
  | zero => rfl
  | succ n ih => simp [freshBuf, ih]

theorem freshBuf_eq_map (n : Nat) : freshBuf 0 n = (List.range n).map Config.freshBufByte := by
  have general : ∀ n j, freshBuf j n = (List.range' j n).map Config.freshBufByte := by
    intro n
    induction n with
    | zero => intro j; rfl
    | succ n ih => intro j; simp [freshBuf, ih, List.range'_succ]
  rw [general n 0, List.range_eq_range']

/-- A fill writes the bytes it has, from offset 0, and no other (R211, R221, R231). -/
theorem overwrite_getElem? (buf bs : List Byte) (k : Nat) :
    (overwrite buf bs)[k]? = if k < bs.length then bs[k]? else buf[k]? := by
  unfold overwrite
  split
  · rename_i h
    rw [List.getElem?_append_left h]
  · rename_i h
    rw [List.getElem?_append_right (by omega), List.getElem?_drop]
    congr 1; omega

theorem overwrite_nil (buf : List Byte) : overwrite buf [] = buf := rfl

theorem overwrite_length (buf bs : List Byte) : (overwrite buf bs).length = max bs.length buf.length := by
  simp [overwrite]; omega

/-- A fill that fits leaves the buffer's size as it is ("never resized", R40). -/
theorem overwrite_length_of_le (buf bs : List Byte) (h : bs.length ≤ buf.length) :
    (overwrite buf bs).length = buf.length := by
  rw [overwrite_length]; omega

/-- The bytes a chunk takes from the buffer are the ones the fill wrote (R214). -/
theorem overwrite_take (buf bs : List Byte) (n : Nat) (h : n ≤ bs.length) :
    (overwrite buf bs).take n = bs.take n := by
  unfold overwrite
  rw [List.take_append_of_le_length h]

end Sys2Proof.Machine
end

