-- ==== Sys2Proof/Laws/Decode.lean ====
section
/-! SUPPORT. The lemmas of the descriptor: its words, the header's fields, and the decoder told by its
checks (spec/30_encoding.md R100, R101, R105). -/

namespace Sys2Proof

/-! ### Words of a descriptor, fields of a header -/

/-- Bit `k` of a descriptor is a bit of one of its words (R100). -/
theorem getLsbD_descOf (h a1 p a2 : Word) (k : Nat) :
    (descOf h a1 p a2).getLsbD k =
      if k < 32 then h.getLsbD k
      else if k < 64 then a1.getLsbD (k - 32)
      else if k < 96 then p.getLsbD (k - 64)
      else a2.getLsbD (k - 96) := by
  have e1 := BitVec.getLsbD_append (x := a2 ++ p ++ a1) (y := h) (i := k)
  have e2 := BitVec.getLsbD_append (x := a2 ++ p) (y := a1) (i := k - 32)
  have e3 := BitVec.getLsbD_append (x := a2) (y := p) (i := k - 32 - 32)
  refine e1.trans ?_
  rcases Nat.lt_or_ge k 32 with h1 | h1
  · simp [h1]
  · rw [if_neg (by omega), if_neg (by omega)]
    refine e2.trans ?_
    rcases Nat.lt_or_ge k 64 with h2 | h2
    · rw [if_pos (by omega), if_pos h2]
    · rw [if_neg (by omega), if_neg (by omega)]
      refine e3.trans ?_
      rcases Nat.lt_or_ge k 96 with h3 | h3
      · rw [if_pos (by omega), if_pos h3]; congr 1
      · rw [if_neg (by omega), if_neg (by omega)]; congr 1

@[simp] theorem hdr_descOf (h a1 p a2 : Word) : hdr (descOf h a1 p a2) = h := by
  apply BitVec.eq_of_getLsbD_eq
  intro i hi
  simp [hdr, getLsbD_descOf, hi]

@[simp] theorem arg1_descOf (h a1 p a2 : Word) : arg1 (descOf h a1 p a2) = a1 := by
  apply BitVec.eq_of_getLsbD_eq
  intro i hi
  have h2 : 32 + i < 64 := by omega
  simp [arg1, getLsbD_descOf, hi, h2]

@[simp] theorem ptrWord_descOf (h a1 p a2 : Word) : ptrWord (descOf h a1 p a2) = p := by
  apply BitVec.eq_of_getLsbD_eq
  intro i hi
  have h1 : ¬ 64 + i < 32 := by omega
  have h3 : 64 + i < 96 := by omega
  simp [ptrWord, getLsbD_descOf, hi, h1, h3]

@[simp] theorem arg2_descOf (h a1 p a2 : Word) : arg2 (descOf h a1 p a2) = a2 := by
  apply BitVec.eq_of_getLsbD_eq
  intro i hi
  have h1 : ¬ 96 + i < 32 := by omega
  have h2 : ¬ 96 + i < 64 := by omega
  simp [arg2, getLsbD_descOf, hi, h1, h2]

/-- Bit `k` of a header is a bit of one of its fields (R101). -/
theorem getLsbD_hdrOf (op rsv : BitVec 4) (c8 : Byte) (v16 : Half) (k : Nat) :
    (hdrOf op rsv c8 v16).getLsbD k =
      if k < 16 then v16.getLsbD k
      else if k < 24 then c8.getLsbD (k - 16)
      else if k < 28 then rsv.getLsbD (k - 24)
      else op.getLsbD (k - 28) := by
  have e1 := BitVec.getLsbD_append (x := op ++ rsv ++ c8) (y := v16) (i := k)
  have e2 := BitVec.getLsbD_append (x := op ++ rsv) (y := c8) (i := k - 16)
  have e3 := BitVec.getLsbD_append (x := op) (y := rsv) (i := k - 16 - 8)
  refine e1.trans ?_
  rcases Nat.lt_or_ge k 16 with h1 | h1
  · simp [h1]
  · rw [if_neg (by omega), if_neg (by omega)]
    refine e2.trans ?_
    rcases Nat.lt_or_ge k 24 with h2 | h2
    · rw [if_pos (by omega), if_pos h2]
    · rw [if_neg (by omega), if_neg (by omega)]
      refine e3.trans ?_
      rcases Nat.lt_or_ge k 28 with h3 | h3
      · rw [if_pos (by omega), if_pos h3]; congr 1
      · rw [if_neg (by omega), if_neg (by omega)]; congr 1

@[simp] theorem opField_hdrOf (op rsv : BitVec 4) (c8 : Byte) (v16 : Half) :
    opField (hdrOf op rsv c8 v16) = op := by
  apply BitVec.eq_of_getLsbD_eq
  intro i hi
  have h1 : ¬ 28 + i < 16 := by omega
  have h2 : ¬ 28 + i < 24 := by omega
  simp [opField, getLsbD_hdrOf, hi, h1, h2]

@[simp] theorem rsvField_hdrOf (op rsv : BitVec 4) (c8 : Byte) (v16 : Half) :
    rsvField (hdrOf op rsv c8 v16) = rsv := by
  apply BitVec.eq_of_getLsbD_eq
  intro i hi
  have h1 : ¬ 24 + i < 16 := by omega
  have h3 : 24 + i < 28 := by omega
  simp [rsvField, getLsbD_hdrOf, hi, h1, h3]

@[simp] theorem c8Field_hdrOf (op rsv : BitVec 4) (c8 : Byte) (v16 : Half) :
    c8Field (hdrOf op rsv c8 v16) = c8 := by
  apply BitVec.eq_of_getLsbD_eq
  intro i hi
  have h2 : 16 + i < 24 := by omega
  simp [c8Field, getLsbD_hdrOf, hi, h2]

@[simp] theorem v16Field_hdrOf (op rsv : BitVec 4) (c8 : Byte) (v16 : Half) :
    v16Field (hdrOf op rsv c8 v16) = v16 := by
  apply BitVec.eq_of_getLsbD_eq
  intro i hi
  simp [v16Field, getLsbD_hdrOf, hi]

/-- A header is masked field by field. -/
theorem hdrOf_and (op rsv op' rsv' : BitVec 4) (c c' : Byte) (v v' : Half) :
    hdrOf op rsv c v &&& hdrOf op' rsv' c' v' = hdrOf (op &&& op') (rsv &&& rsv') (c &&& c') (v &&& v') := by
  apply BitVec.eq_of_getLsbD_eq
  intro i hi
  simp only [BitVec.getLsbD_and, getLsbD_hdrOf]
  split
  · rfl
  · split
    · rfl
    · split <;> rfl

/-! ### Encodings -/

/-- The words of an encoding that carry operands (R104). -/
theorem encode_hdr_fields (c b : Byte) (w w1 w2 : Half) (p n k : Word) :
    hdr (encode (.writeCommand c)) = hdrOf 0x1 0 c 0 ∧
    hdr (encode (.writeCommand16 w)) = hdrOf 0x2 0 0 w ∧
    hdr (encode (.writeByte b)) = hdrOf 0x3 0 0 (b.setWidth 16) ∧
    hdr (encode (.writeWord w)) = hdrOf 0x4 0 0 w ∧
    hdr (encode (.writeCommandWithBytes c b)) = hdrOf 0x5 0 c (b.setWidth 16) ∧
    hdr (encode (.writeCommandWithWords c w1 w2)) = hdrOf 0x6 0 c w1 ∧
    hdr (encode (.writeRepeated w n)) = hdrOf 0x7 0 0 w ∧
    hdr (encode (.writePixelStream p n)) = hdrOf 0x8 0 0 0 ∧
    hdr (encode (.writeByteStream p n)) = hdrOf 0x9 0 0 0 ∧
    hdr (encode (.writePattern p n k)) = hdrOf 0xA 0 0 0 := by
  simp [encode]

/-! ### The decoder's checks -/

/-- One check of R105: the request when it passes, the named rejection when it does not. -/
theorem refuseUnless_eq_request {ok : Bool} {why : Reject} {i j : Instr} :
    refuseUnless ok why i = .request j ↔ ok = true ∧ i = j := by
  cases ok <;> simp [refuseUnless]

/-- What decodes has passed the two checks that come before the operation's own (R105): the reserved
field is 0, but for the opcode table's reserved rows (log 14), and a source pointer fits `ADDR_W` bits. -/
theorem decode_eq_request {addrW : Nat} {d : Desc} {i : Instr} (h : decode addrW d = .request i) :
    ((opField (hdr d)).toNat < 0xB → rsvField (hdr d) = 0) ∧
      (hasPointer (opField (hdr d)) = true → fitsAddr addrW (ptrWord d)) ∧
      decodeOp (hdr d) (arg1 d) (ptrWord d) (arg2 d) = .request i := by
  unfold decode at h
  split at h
  · cases h
  · rename_i h1
    split at h
    · cases h
    · rename_i h2
      refine ⟨fun ho => ?_, fun hp => ?_, h⟩
      · by_contra hc; exact h1 ⟨ho, hc⟩
      · by_contra hc; exact h2 ⟨hp, hc⟩

end Sys2Proof
end

