-- ==== Sys2Proof/Laws/Memory.lean ====
section
/-! SUPPORT. The lemmas of host memory: read after write, a write leaves every other byte alone, every
memory operation keeps the canonical form, and what a run of reads answers (spec/20_memory.md R72). -/

namespace Sys2Proof.Machine

/-! ### Reads and writes -/

/-- A read after a write to the same address gives the value written. -/
@[simp] theorem Memory.lookup_store_same (m : Memory) (a : Nat) (b : Byte) :
    (m.store a b).lookup a = some b := by
  induction m with
  | nil => simp [Memory.store, Memory.lookup]
  | cons cell rest ih =>
    obtain ⟨x, c⟩ := cell
    rcases Nat.lt_trichotomy a x with h | h | h
    · simp [Memory.store, Memory.lookup, h]
    · simp [Memory.store, Memory.lookup, h]
    · have h1 : ¬ a < x := by omega
      have h2 : ¬ a = x := by omega
      have h3 : ¬ x = a := by omega
      simp [Memory.store, Memory.lookup, h1, h2, h3, ih]

/-- A write leaves every other address alone. -/
theorem Memory.lookup_store_other (m : Memory) (a a' : Nat) (b : Byte) (h : a' ≠ a) :
    (m.store a b).lookup a' = m.lookup a' := by
  have hne : ¬ a = a' := fun e => h e.symm
  induction m with
  | nil => simp [Memory.store, Memory.lookup, hne]
  | cons cell rest ih =>
    obtain ⟨x, c⟩ := cell
    rcases Nat.lt_trichotomy a x with h1 | h1 | h1
    · simp [Memory.store, Memory.lookup, h1, hne]
    · subst h1
      simp [Memory.store, Memory.lookup, hne]
    · have h2 : ¬ a < x := by omega
      have h3 : ¬ a = x := by omega
      simp [Memory.store, Memory.lookup, h2, h3, ih]

/-! ### The canonical form -/

/-- The canonical form, said once as a property of the list of addresses. -/
theorem Memory.wf_iff (m : Memory) : m.wf = true ↔ (m.map Prod.fst).IsChain (· < ·) := by
  induction m with
  | nil => simp [Memory.wf]
  | cons cell rest ih =>
    obtain ⟨x, c⟩ := cell
    cases rest with
    | nil => simp [Memory.wf]
    | cons cell' rest' =>
      obtain ⟨y, c'⟩ := cell'
      simp only [List.map_cons] at ih
      simp [Memory.wf, List.isChain_cons_cons, ← ih]

theorem Memory.wf_tail {x : Nat} {c : Byte} {rest : Memory} (h : Memory.wf ((x, c) :: rest) = true) :
    rest.wf = true := by
  simp only [Memory.wf, Bool.and_eq_true] at h
  exact h.2

/-- Where a store puts the first address. -/
theorem Memory.store_head (m : Memory) (a : Nat) (b : Byte) :
    ∃ rest : Memory, (m.store a b = (a, b) :: rest) ∨ (∃ x c m', m = (x, c) :: m' ∧ x < a ∧
      m.store a b = (x, c) :: rest) := by
  cases m with
  | nil => exact ⟨[], .inl rfl⟩
  | cons cell rest =>
    obtain ⟨x, c⟩ := cell
    rcases Nat.lt_trichotomy a x with h | h | h
    · exact ⟨(x, c) :: rest, .inl (by simp [Memory.store, h])⟩
    · exact ⟨rest, .inl (by simp [Memory.store, h])⟩
    · have h1 : ¬ a < x := by omega
      have h2 : ¬ a = x := by omega
      exact ⟨Memory.store rest a b, .inr ⟨x, c, rest, rfl, h, by simp [Memory.store, h1, h2]⟩⟩

/-- Every write keeps the canonical form. -/
theorem Memory.store_wf (m : Memory) (a : Nat) (b : Byte) (h : m.wf = true) :
    (m.store a b).wf = true := by
  induction m with
  | nil => rfl
  | cons cell rest ih =>
    obtain ⟨x, c⟩ := cell
    have hr := Memory.wf_tail h
    rcases Nat.lt_trichotomy a x with h1 | h1 | h1
    · simp only [Memory.store, h1, if_true]
      simp [Memory.wf, h1] at h ⊢
      exact h
    · subst h1
      simp only [Memory.store, Nat.lt_irrefl, if_false, if_true]
      simpa [Memory.wf] using h
    · have h2 : ¬ a < x := by omega
      have h3 : ¬ a = x := by omega
      simp only [Memory.store, h2, h3, if_false]
      have hs := ih hr
      obtain ⟨rest', hh | ⟨y, d, m', hm, hlt, hh⟩⟩ := Memory.store_head rest a b
      · rw [hh] at hs ⊢
        simp only [Memory.wf, Bool.and_eq_true, decide_eq_true_eq] at hs ⊢
        exact ⟨h1, hs⟩
      · rw [hh] at hs ⊢
        subst hm
        simp only [Memory.wf, Bool.and_eq_true, decide_eq_true_eq] at h hs ⊢
        exact ⟨h.1, hs⟩

/-- Memory right after reset is in canonical form. -/
theorem reset_memory_wf : State.reset.env.mem.wf = true := rfl

/-! ### Runs of reads -/

theorem Memory.bytesFrom_length_le (m : Memory) (addrW a n : Nat) :
    (m.bytesFrom addrW a n).length ≤ n := by
  induction n generalizing a with
  | zero => simp [Memory.bytesFrom]
  | succ n ih =>
    cases h : m.read8 addrW a with
    | none => simp [Memory.bytesFrom, h]
    | some b => simpa [Memory.bytesFrom, h] using ih (a + 1)

/-- Byte `k` of a run of reads is the byte at `a + k` (R231). -/
theorem Memory.bytesFrom_getElem? (m : Memory) (addrW a n k : Nat)
    (hk : k < (m.bytesFrom addrW a n).length) :
    (m.bytesFrom addrW a n)[k]? = m.read8 addrW (a + k) := by
  induction n generalizing a k with
  | zero => simp [Memory.bytesFrom] at hk
  | succ n ih =>
    cases h : m.read8 addrW a with
    | none => simp [Memory.bytesFrom, h] at hk
    | some b =>
      simp only [Memory.bytesFrom, h, List.length_cons] at hk ⊢
      cases k with
      | zero => simp [h]
      | succ k =>
        have := ih (a + 1) k (by omega)
        rw [List.getElem?_cons_succ, this]
        congr 1; omega

/-- A run of reads stops at the first one that is not admitted (R267). -/
theorem Memory.bytesFrom_stops (m : Memory) (addrW a n : Nat) (h : (m.bytesFrom addrW a n).length < n) :
    m.read8 addrW (a + (m.bytesFrom addrW a n).length) = none := by
  induction n generalizing a with
  | zero => omega
  | succ n ih =>
    cases hr : m.read8 addrW a with
    | none => simp [Memory.bytesFrom, hr]
    | some b =>
      simp only [Memory.bytesFrom, hr, List.length_cons] at h ⊢
      have := ih (a + 1) (by omega)
      rw [← this]
      congr 1; omega

/-- A run of admitted reads answers exactly the bytes there. -/
theorem Memory.bytesFrom_eq (m : Memory) (addrW a : Nat) (bs : List Byte)
    (h : ∀ k < bs.length, m.read8 addrW (a + k) = bs[k]?) : m.bytesFrom addrW a bs.length = bs := by
  induction bs generalizing a with
  | nil => rfl
  | cons b bs ih =>
    have h0 := h 0 (by simp)
    simp only [Nat.add_zero, List.getElem?_cons_zero] at h0
    have hrest : ∀ k < bs.length, m.read8 addrW (a + 1 + k) = bs[k]? := by
      intro k hk
      have := h (k + 1) (by simp; omega)
      rw [List.getElem?_cons_succ] at this
      rw [← this]; congr 1; omega
    simp only [List.length_cons, Memory.bytesFrom, h0]
    rw [ih (a + 1) hrest]

/-- Shorter runs of reads are the beginnings of longer ones. -/
theorem Memory.bytesFrom_take (m : Memory) (addrW a n k : Nat) (h : k ≤ n) :
    (m.bytesFrom addrW a n).take k = m.bytesFrom addrW a k := by
  induction n generalizing a k with
  | zero => obtain rfl : k = 0 := by omega
            rfl
  | succ n ih =>
    cases k with
    | zero => simp [Memory.bytesFrom]
    | succ k =>
      cases hr : m.read8 addrW a with
      | none => simp [Memory.bytesFrom, hr]
      | some b =>
        simp only [Memory.bytesFrom, hr, List.take_succ_cons]
        rw [ih (a + 1) k (by omega)]

theorem Memory.wordsFrom_length_le (m : Memory) (addrW a n : Nat) :
    (m.wordsFrom addrW a n).length ≤ n := by
  induction n generalizing a with
  | zero => simp [Memory.wordsFrom]
  | succ n ih =>
    cases h : m.read16 addrW a with
    | none => simp [Memory.wordsFrom, h]
    | some b => simpa [Memory.wordsFrom, h] using ih (a + 2)

/-- Word `k` of a run of reads is the word at `a + 2*k` (R221). -/
theorem Memory.wordsFrom_getElem? (m : Memory) (addrW a n k : Nat)
    (hk : k < (m.wordsFrom addrW a n).length) :
    (m.wordsFrom addrW a n)[k]? = m.read16 addrW (a + 2 * k) := by
  induction n generalizing a k with
  | zero => simp [Memory.wordsFrom] at hk
  | succ n ih =>
    cases h : m.read16 addrW a with
    | none => simp [Memory.wordsFrom, h] at hk
    | some w =>
      simp only [Memory.wordsFrom, h, List.length_cons] at hk ⊢
      cases k with
      | zero => simp [h]
      | succ k =>
        have := ih (a + 2) k (by omega)
        rw [List.getElem?_cons_succ, this]
        congr 1; omega

/-- A run of word reads stops at the first one that is not admitted (R267). -/
theorem Memory.wordsFrom_stops (m : Memory) (addrW a n : Nat) (h : (m.wordsFrom addrW a n).length < n) :
    m.read16 addrW (a + 2 * (m.wordsFrom addrW a n).length) = none := by
  induction n generalizing a with
  | zero => omega
  | succ n ih =>
    cases hr : m.read16 addrW a with
    | none => simp [Memory.wordsFrom, hr]
    | some w =>
      simp only [Memory.wordsFrom, hr, List.length_cons] at h ⊢
      have := ih (a + 2) (by omega)
      rw [← this]
      congr 1; omega

/-- A run of admitted word reads answers exactly the words there. -/
theorem Memory.wordsFrom_eq (m : Memory) (addrW a : Nat) (ws : List Half)
    (h : ∀ k < ws.length, m.read16 addrW (a + 2 * k) = ws[k]?) : m.wordsFrom addrW a ws.length = ws := by
  induction ws generalizing a with
  | nil => rfl
  | cons w ws ih =>
    have h0 := h 0 (by simp)
    simp only [Nat.mul_zero, Nat.add_zero, List.getElem?_cons_zero] at h0
    have hrest : ∀ k < ws.length, m.read16 addrW (a + 2 + 2 * k) = ws[k]? := by
      intro k hk
      have := h (k + 1) (by simp; omega)
      rw [List.getElem?_cons_succ] at this
      rw [← this]; congr 1; omega
    simp only [List.length_cons, Memory.wordsFrom, h0]
    rw [ih (a + 2) hrest]

/-- Shorter runs of word reads are the beginnings of longer ones. -/
theorem Memory.wordsFrom_take (m : Memory) (addrW a n k : Nat) (h : k ≤ n) :
    (m.wordsFrom addrW a n).take k = m.wordsFrom addrW a k := by
  induction n generalizing a k with
  | zero => obtain rfl : k = 0 := by omega
            rfl
  | succ n ih =>
    cases k with
    | zero => simp [Memory.wordsFrom]
    | succ k =>
      cases hr : m.read16 addrW a with
      | none => simp [Memory.wordsFrom, hr]
      | some w =>
        simp only [Memory.wordsFrom, hr, List.take_succ_cons]
        rw [ih (a + 2) k (by omega)]

end Sys2Proof.Machine
end

