-- ==== Sys2Proof/Laws/State.lean ====
section
/-! SUPPORT. One lemma per field per named update of the state, each true by unfolding, so that no proof
unfolds a record update. -/

namespace Sys2Proof.Machine.State

/-! ### `emit` -/

@[simp] theorem emit_params (s : State) (e : Event) : (s.emit e).params = s.params := rfl
@[simp] theorem emit_cfg (s : State) (e : Event) : (s.emit e).cfg = s.cfg := rfl
@[simp] theorem emit_env (s : State) (e : Event) : (s.emit e).env = s.env := rfl
@[simp] theorem emit_mode (s : State) (e : Event) : (s.emit e).mode = s.mode := rfl
@[simp] theorem emit_seq (s : State) (e : Event) : (s.emit e).seq = s.seq := rfl
@[simp] theorem emit_fault (s : State) (e : Event) : (s.emit e).fault = s.fault := rfl
@[simp] theorem emit_cs (s : State) (e : Event) : (s.emit e).cs = s.cs := rfl
@[simp] theorem emit_pins (s : State) (e : Event) : (s.emit e).pins = s.pins := rfl
@[simp] theorem emit_xfer (s : State) (e : Event) : (s.emit e).xfer = s.xfer := rfl
@[simp] theorem emit_busContext (s : State) (e : Event) : (s.emit e).busContext = s.busContext := rfl
@[simp] theorem emit_deviceHandle (s : State) (e : Event) : (s.emit e).deviceHandle = s.deviceHandle := rfl
@[simp] theorem emit_bufBase (s : State) (e : Event) : (s.emit e).bufBase = s.bufBase := rfl
@[simp] theorem emit_bufAllocated (s : State) (e : Event) : (s.emit e).bufAllocated = s.bufAllocated := rfl
@[simp] theorem emit_buf (s : State) (e : Event) : (s.emit e).buf = s.buf := rfl
@[simp] theorem emit_framing (s : State) (e : Event) : (s.emit e).framing = s.framing := rfl
@[simp] theorem emit_plan (s : State) (e : Event) : (s.emit e).plan = s.plan := rfl
@[simp] theorem emit_txn (s : State) (e : Event) : (s.emit e).txn = s.txn := rfl
@[simp] theorem emit_rsp (s : State) (e : Event) : (s.emit e).rsp = s.rsp := rfl
@[simp] theorem emit_desc (s : State) (e : Event) : (s.emit e).desc = s.desc := rfl
@[simp] theorem emit_retained (s : State) (e : Event) : (s.emit e).retained = s.retained := rfl
@[simp] theorem emit_platform (s : State) (e : Event) : (s.emit e).platform = s.platform := rfl
@[simp] theorem emit_trace (s : State) (e : Event) : (s.emit e).trace = s.trace ++ [e] := rfl
@[simp] theorem emit_waiting (s : State) (e : Event) : (s.emit e).waiting = s.waiting := rfl
@[simp] theorem emit_frees (s : State) (e : Event) : (s.emit e).frees = s.frees := rfl

/-! ### `accept` -/

@[simp] theorem accept_params (s : State) (d : Desc) (rest : List Desc) : (s.accept d rest).params = s.params := rfl
@[simp] theorem accept_cfg (s : State) (d : Desc) (rest : List Desc) : (s.accept d rest).cfg = s.cfg := rfl
@[simp] theorem accept_env (s : State) (d : Desc) (rest : List Desc) : (s.accept d rest).env = { s.env with requests := rest } := rfl
@[simp] theorem accept_mode (s : State) (d : Desc) (rest : List Desc) : (s.accept d rest).mode = s.mode := rfl
@[simp] theorem accept_seq (s : State) (d : Desc) (rest : List Desc) : (s.accept d rest).seq = .busy := rfl
@[simp] theorem accept_fault (s : State) (d : Desc) (rest : List Desc) : (s.accept d rest).fault = s.fault := rfl
@[simp] theorem accept_cs (s : State) (d : Desc) (rest : List Desc) : (s.accept d rest).cs = s.cs := rfl
@[simp] theorem accept_pins (s : State) (d : Desc) (rest : List Desc) : (s.accept d rest).pins = s.pins := rfl
@[simp] theorem accept_xfer (s : State) (d : Desc) (rest : List Desc) : (s.accept d rest).xfer = s.xfer := rfl
@[simp] theorem accept_busContext (s : State) (d : Desc) (rest : List Desc) : (s.accept d rest).busContext = s.busContext := rfl
@[simp] theorem accept_deviceHandle (s : State) (d : Desc) (rest : List Desc) : (s.accept d rest).deviceHandle = s.deviceHandle := rfl
@[simp] theorem accept_bufBase (s : State) (d : Desc) (rest : List Desc) : (s.accept d rest).bufBase = s.bufBase := rfl
@[simp] theorem accept_bufAllocated (s : State) (d : Desc) (rest : List Desc) : (s.accept d rest).bufAllocated = s.bufAllocated := rfl
@[simp] theorem accept_buf (s : State) (d : Desc) (rest : List Desc) : (s.accept d rest).buf = s.buf := rfl
@[simp] theorem accept_framing (s : State) (d : Desc) (rest : List Desc) : (s.accept d rest).framing = s.framing := rfl
@[simp] theorem accept_plan (s : State) (d : Desc) (rest : List Desc) : (s.accept d rest).plan = s.plan := rfl
@[simp] theorem accept_txn (s : State) (d : Desc) (rest : List Desc) : (s.accept d rest).txn = s.txn := rfl
@[simp] theorem accept_rsp (s : State) (d : Desc) (rest : List Desc) : (s.accept d rest).rsp = { s.rsp with valid := false } := rfl
@[simp] theorem accept_desc (s : State) (d : Desc) (rest : List Desc) : (s.accept d rest).desc = d := rfl
@[simp] theorem accept_retained (s : State) (d : Desc) (rest : List Desc) : (s.accept d rest).retained = s.retained := rfl
@[simp] theorem accept_platform (s : State) (d : Desc) (rest : List Desc) : (s.accept d rest).platform = s.platform := rfl
@[simp] theorem accept_trace (s : State) (d : Desc) (rest : List Desc) : (s.accept d rest).trace = s.trace ++ [.accept d] := rfl
@[simp] theorem accept_waiting (s : State) (d : Desc) (rest : List Desc) : (s.accept d rest).waiting = .nothing := rfl
@[simp] theorem accept_frees (s : State) (d : Desc) (rest : List Desc) : (s.accept d rest).frees = s.frees := rfl

/-! ### `raiseFault` -/

@[simp] theorem raiseFault_params (s : State) (c : FaultCode) : (s.raiseFault c).params = s.params := rfl
@[simp] theorem raiseFault_cfg (s : State) (c : FaultCode) : (s.raiseFault c).cfg = s.cfg := rfl
@[simp] theorem raiseFault_env (s : State) (c : FaultCode) : (s.raiseFault c).env = s.env := rfl
@[simp] theorem raiseFault_mode (s : State) (c : FaultCode) : (s.raiseFault c).mode = s.mode := rfl
@[simp] theorem raiseFault_seq (s : State) (c : FaultCode) : (s.raiseFault c).seq = .halted := rfl
@[simp] theorem raiseFault_fault (s : State) (c : FaultCode) : (s.raiseFault c).fault = c.code := rfl
@[simp] theorem raiseFault_cs (s : State) (c : FaultCode) : (s.raiseFault c).cs = s.cs := rfl
@[simp] theorem raiseFault_pins (s : State) (c : FaultCode) : (s.raiseFault c).pins = s.pins := rfl
@[simp] theorem raiseFault_xfer (s : State) (c : FaultCode) : (s.raiseFault c).xfer = s.xfer := rfl
@[simp] theorem raiseFault_busContext (s : State) (c : FaultCode) : (s.raiseFault c).busContext = s.busContext := rfl
@[simp] theorem raiseFault_deviceHandle (s : State) (c : FaultCode) : (s.raiseFault c).deviceHandle = s.deviceHandle := rfl
@[simp] theorem raiseFault_bufBase (s : State) (c : FaultCode) : (s.raiseFault c).bufBase = s.bufBase := rfl
@[simp] theorem raiseFault_bufAllocated (s : State) (c : FaultCode) : (s.raiseFault c).bufAllocated = s.bufAllocated := rfl
@[simp] theorem raiseFault_buf (s : State) (c : FaultCode) : (s.raiseFault c).buf = s.buf := rfl
@[simp] theorem raiseFault_framing (s : State) (c : FaultCode) : (s.raiseFault c).framing = s.framing := rfl
@[simp] theorem raiseFault_plan (s : State) (c : FaultCode) : (s.raiseFault c).plan = s.plan := rfl
@[simp] theorem raiseFault_txn (s : State) (c : FaultCode) : (s.raiseFault c).txn = s.txn := rfl
@[simp] theorem raiseFault_rsp (s : State) (c : FaultCode) : (s.raiseFault c).rsp = s.rsp := rfl
@[simp] theorem raiseFault_desc (s : State) (c : FaultCode) : (s.raiseFault c).desc = s.desc := rfl
@[simp] theorem raiseFault_retained (s : State) (c : FaultCode) : (s.raiseFault c).retained = s.retained := rfl
@[simp] theorem raiseFault_platform (s : State) (c : FaultCode) : (s.raiseFault c).platform = s.platform := rfl
@[simp] theorem raiseFault_trace (s : State) (c : FaultCode) : (s.raiseFault c).trace = s.trace ++ [.fault c.code] := rfl
@[simp] theorem raiseFault_waiting (s : State) (c : FaultCode) : (s.raiseFault c).waiting = s.waiting := rfl
@[simp] theorem raiseFault_frees (s : State) (c : FaultCode) : (s.raiseFault c).frees = s.frees := rfl

/-! ### `giveResponse` -/

@[simp] theorem giveResponse_params (s : State) (st : Status) (i0 i1 : Word) : (s.giveResponse st i0 i1).params = s.params := rfl
@[simp] theorem giveResponse_cfg (s : State) (st : Status) (i0 i1 : Word) : (s.giveResponse st i0 i1).cfg = s.cfg := rfl
@[simp] theorem giveResponse_env (s : State) (st : Status) (i0 i1 : Word) : (s.giveResponse st i0 i1).env = s.env := rfl
@[simp] theorem giveResponse_mode (s : State) (st : Status) (i0 i1 : Word) : (s.giveResponse st i0 i1).mode = s.mode := rfl
@[simp] theorem giveResponse_seq (s : State) (st : Status) (i0 i1 : Word) : (s.giveResponse st i0 i1).seq = s.seq := rfl
@[simp] theorem giveResponse_fault (s : State) (st : Status) (i0 i1 : Word) : (s.giveResponse st i0 i1).fault = s.fault := rfl
@[simp] theorem giveResponse_cs (s : State) (st : Status) (i0 i1 : Word) : (s.giveResponse st i0 i1).cs = s.cs := rfl
@[simp] theorem giveResponse_pins (s : State) (st : Status) (i0 i1 : Word) : (s.giveResponse st i0 i1).pins = s.pins := rfl
@[simp] theorem giveResponse_xfer (s : State) (st : Status) (i0 i1 : Word) : (s.giveResponse st i0 i1).xfer = s.xfer := rfl
@[simp] theorem giveResponse_busContext (s : State) (st : Status) (i0 i1 : Word) : (s.giveResponse st i0 i1).busContext = s.busContext := rfl
@[simp] theorem giveResponse_deviceHandle (s : State) (st : Status) (i0 i1 : Word) : (s.giveResponse st i0 i1).deviceHandle = s.deviceHandle := rfl
@[simp] theorem giveResponse_bufBase (s : State) (st : Status) (i0 i1 : Word) : (s.giveResponse st i0 i1).bufBase = s.bufBase := rfl
@[simp] theorem giveResponse_bufAllocated (s : State) (st : Status) (i0 i1 : Word) : (s.giveResponse st i0 i1).bufAllocated = s.bufAllocated := rfl
@[simp] theorem giveResponse_buf (s : State) (st : Status) (i0 i1 : Word) : (s.giveResponse st i0 i1).buf = s.buf := rfl
@[simp] theorem giveResponse_framing (s : State) (st : Status) (i0 i1 : Word) : (s.giveResponse st i0 i1).framing = s.framing := rfl
@[simp] theorem giveResponse_plan (s : State) (st : Status) (i0 i1 : Word) : (s.giveResponse st i0 i1).plan = s.plan := rfl
@[simp] theorem giveResponse_txn (s : State) (st : Status) (i0 i1 : Word) : (s.giveResponse st i0 i1).txn = s.txn := rfl
@[simp] theorem giveResponse_rsp (s : State) (st : Status) (i0 i1 : Word) : (s.giveResponse st i0 i1).rsp = ⟨true, st.code, i0, i1⟩ := rfl
@[simp] theorem giveResponse_desc (s : State) (st : Status) (i0 i1 : Word) : (s.giveResponse st i0 i1).desc = s.desc := rfl
@[simp] theorem giveResponse_retained (s : State) (st : Status) (i0 i1 : Word) : (s.giveResponse st i0 i1).retained = s.retained := rfl
@[simp] theorem giveResponse_platform (s : State) (st : Status) (i0 i1 : Word) : (s.giveResponse st i0 i1).platform = s.platform := rfl
@[simp] theorem giveResponse_trace (s : State) (st : Status) (i0 i1 : Word) : (s.giveResponse st i0 i1).trace = s.trace ++ [.rsp st.code i0 i1] := rfl
@[simp] theorem giveResponse_waiting (s : State) (st : Status) (i0 i1 : Word) : (s.giveResponse st i0 i1).waiting = s.waiting := rfl
@[simp] theorem giveResponse_frees (s : State) (st : Status) (i0 i1 : Word) : (s.giveResponse st i0 i1).frees = s.frees := rfl

/-! ### `returnIdle` -/

@[simp] theorem returnIdle_params (s : State) : s.returnIdle.params = s.params := rfl
@[simp] theorem returnIdle_cfg (s : State) : s.returnIdle.cfg = s.cfg := rfl
@[simp] theorem returnIdle_env (s : State) : s.returnIdle.env = s.env := rfl
@[simp] theorem returnIdle_mode (s : State) : s.returnIdle.mode = s.mode := rfl
@[simp] theorem returnIdle_seq (s : State) : s.returnIdle.seq = .idle := rfl
@[simp] theorem returnIdle_fault (s : State) : s.returnIdle.fault = s.fault := rfl
@[simp] theorem returnIdle_cs (s : State) : s.returnIdle.cs = s.cs := rfl
@[simp] theorem returnIdle_pins (s : State) : s.returnIdle.pins = s.pins := rfl
@[simp] theorem returnIdle_xfer (s : State) : s.returnIdle.xfer = s.xfer := rfl
@[simp] theorem returnIdle_busContext (s : State) : s.returnIdle.busContext = s.busContext := rfl
@[simp] theorem returnIdle_deviceHandle (s : State) : s.returnIdle.deviceHandle = s.deviceHandle := rfl
@[simp] theorem returnIdle_bufBase (s : State) : s.returnIdle.bufBase = s.bufBase := rfl
@[simp] theorem returnIdle_bufAllocated (s : State) : s.returnIdle.bufAllocated = s.bufAllocated := rfl
@[simp] theorem returnIdle_buf (s : State) : s.returnIdle.buf = s.buf := rfl
@[simp] theorem returnIdle_framing (s : State) : s.returnIdle.framing = s.framing := rfl
@[simp] theorem returnIdle_plan (s : State) : s.returnIdle.plan = s.plan := rfl
@[simp] theorem returnIdle_txn (s : State) : s.returnIdle.txn = s.txn := rfl
@[simp] theorem returnIdle_rsp (s : State) : s.returnIdle.rsp = s.rsp := rfl
@[simp] theorem returnIdle_desc (s : State) : s.returnIdle.desc = s.desc := rfl
@[simp] theorem returnIdle_retained (s : State) : s.returnIdle.retained = s.retained := rfl
@[simp] theorem returnIdle_platform (s : State) : s.returnIdle.platform = s.platform := rfl
@[simp] theorem returnIdle_trace (s : State) : s.returnIdle.trace = s.trace := rfl
@[simp] theorem returnIdle_waiting (s : State) : s.returnIdle.waiting = s.waiting := rfl
@[simp] theorem returnIdle_frees (s : State) : s.returnIdle.frees = s.frees := rfl

/-! ### `respond` -/

@[simp] theorem respond_params (s : State) (st : Status) (i0 i1 : Word) : (s.respond st i0 i1).params = s.params := rfl
@[simp] theorem respond_cfg (s : State) (st : Status) (i0 i1 : Word) : (s.respond st i0 i1).cfg = s.cfg := rfl
@[simp] theorem respond_env (s : State) (st : Status) (i0 i1 : Word) : (s.respond st i0 i1).env = s.env := rfl
@[simp] theorem respond_mode (s : State) (st : Status) (i0 i1 : Word) : (s.respond st i0 i1).mode = s.mode := rfl
@[simp] theorem respond_seq (s : State) (st : Status) (i0 i1 : Word) : (s.respond st i0 i1).seq = .idle := rfl
@[simp] theorem respond_fault (s : State) (st : Status) (i0 i1 : Word) : (s.respond st i0 i1).fault = s.fault := rfl
@[simp] theorem respond_cs (s : State) (st : Status) (i0 i1 : Word) : (s.respond st i0 i1).cs = s.cs := rfl
@[simp] theorem respond_pins (s : State) (st : Status) (i0 i1 : Word) : (s.respond st i0 i1).pins = s.pins := rfl
@[simp] theorem respond_xfer (s : State) (st : Status) (i0 i1 : Word) : (s.respond st i0 i1).xfer = s.xfer := rfl
@[simp] theorem respond_busContext (s : State) (st : Status) (i0 i1 : Word) : (s.respond st i0 i1).busContext = s.busContext := rfl
@[simp] theorem respond_deviceHandle (s : State) (st : Status) (i0 i1 : Word) : (s.respond st i0 i1).deviceHandle = s.deviceHandle := rfl
@[simp] theorem respond_bufBase (s : State) (st : Status) (i0 i1 : Word) : (s.respond st i0 i1).bufBase = s.bufBase := rfl
@[simp] theorem respond_bufAllocated (s : State) (st : Status) (i0 i1 : Word) : (s.respond st i0 i1).bufAllocated = s.bufAllocated := rfl
@[simp] theorem respond_buf (s : State) (st : Status) (i0 i1 : Word) : (s.respond st i0 i1).buf = s.buf := rfl
@[simp] theorem respond_framing (s : State) (st : Status) (i0 i1 : Word) : (s.respond st i0 i1).framing = s.framing := rfl
@[simp] theorem respond_plan (s : State) (st : Status) (i0 i1 : Word) : (s.respond st i0 i1).plan = s.plan := rfl
@[simp] theorem respond_txn (s : State) (st : Status) (i0 i1 : Word) : (s.respond st i0 i1).txn = s.txn := rfl
@[simp] theorem respond_rsp (s : State) (st : Status) (i0 i1 : Word) : (s.respond st i0 i1).rsp = ⟨true, st.code, i0, i1⟩ := rfl
@[simp] theorem respond_desc (s : State) (st : Status) (i0 i1 : Word) : (s.respond st i0 i1).desc = s.desc := rfl
@[simp] theorem respond_retained (s : State) (st : Status) (i0 i1 : Word) : (s.respond st i0 i1).retained = s.retained := rfl
@[simp] theorem respond_platform (s : State) (st : Status) (i0 i1 : Word) : (s.respond st i0 i1).platform = s.platform := rfl
@[simp] theorem respond_trace (s : State) (st : Status) (i0 i1 : Word) : (s.respond st i0 i1).trace = s.trace ++ [.rsp st.code i0 i1] := rfl
@[simp] theorem respond_waiting (s : State) (st : Status) (i0 i1 : Word) : (s.respond st i0 i1).waiting = s.waiting := rfl
@[simp] theorem respond_frees (s : State) (st : Status) (i0 i1 : Word) : (s.respond st i0 i1).frees = s.frees := rfl

/-! ### `giveInitError` -/

@[simp] theorem giveInitError_params (s : State) (c : InitCause) : (s.giveInitError c).params = s.params := rfl
@[simp] theorem giveInitError_cfg (s : State) (c : InitCause) : (s.giveInitError c).cfg = s.cfg := rfl
@[simp] theorem giveInitError_env (s : State) (c : InitCause) : (s.giveInitError c).env = s.env := rfl
@[simp] theorem giveInitError_mode (s : State) (c : InitCause) : (s.giveInitError c).mode = .failed := rfl
@[simp] theorem giveInitError_seq (s : State) (c : InitCause) : (s.giveInitError c).seq = s.seq := rfl
@[simp] theorem giveInitError_fault (s : State) (c : InitCause) : (s.giveInitError c).fault = s.fault := rfl
@[simp] theorem giveInitError_cs (s : State) (c : InitCause) : (s.giveInitError c).cs = s.cs := rfl
@[simp] theorem giveInitError_pins (s : State) (c : InitCause) : (s.giveInitError c).pins = s.pins := rfl
@[simp] theorem giveInitError_xfer (s : State) (c : InitCause) : (s.giveInitError c).xfer = s.xfer := rfl
@[simp] theorem giveInitError_busContext (s : State) (c : InitCause) : (s.giveInitError c).busContext = s.busContext := rfl
@[simp] theorem giveInitError_deviceHandle (s : State) (c : InitCause) : (s.giveInitError c).deviceHandle = s.deviceHandle := rfl
@[simp] theorem giveInitError_bufBase (s : State) (c : InitCause) : (s.giveInitError c).bufBase = s.bufBase := rfl
@[simp] theorem giveInitError_bufAllocated (s : State) (c : InitCause) : (s.giveInitError c).bufAllocated = s.bufAllocated := rfl
@[simp] theorem giveInitError_buf (s : State) (c : InitCause) : (s.giveInitError c).buf = s.buf := rfl
@[simp] theorem giveInitError_framing (s : State) (c : InitCause) : (s.giveInitError c).framing = s.framing := rfl
@[simp] theorem giveInitError_plan (s : State) (c : InitCause) : (s.giveInitError c).plan = s.plan := rfl
@[simp] theorem giveInitError_txn (s : State) (c : InitCause) : (s.giveInitError c).txn = s.txn := rfl
@[simp] theorem giveInitError_rsp (s : State) (c : InitCause) : (s.giveInitError c).rsp = ⟨true, 1, c.code, 0⟩ := rfl
@[simp] theorem giveInitError_desc (s : State) (c : InitCause) : (s.giveInitError c).desc = s.desc := rfl
@[simp] theorem giveInitError_retained (s : State) (c : InitCause) : (s.giveInitError c).retained = s.retained := rfl
@[simp] theorem giveInitError_platform (s : State) (c : InitCause) : (s.giveInitError c).platform = s.platform := rfl
@[simp] theorem giveInitError_trace (s : State) (c : InitCause) : (s.giveInitError c).trace = s.trace ++ [.rsp 1 c.code 0] := rfl
@[simp] theorem giveInitError_waiting (s : State) (c : InitCause) : (s.giveInitError c).waiting = s.waiting := rfl
@[simp] theorem giveInitError_frees (s : State) (c : InitCause) : (s.giveInitError c).frees = s.frees := rfl

/-! ### `initError` -/

@[simp] theorem initError_params (s : State) (c : InitCause) : (s.initError c).params = s.params := rfl
@[simp] theorem initError_cfg (s : State) (c : InitCause) : (s.initError c).cfg = s.cfg := rfl
@[simp] theorem initError_env (s : State) (c : InitCause) : (s.initError c).env = s.env := rfl
@[simp] theorem initError_mode (s : State) (c : InitCause) : (s.initError c).mode = .failed := rfl
@[simp] theorem initError_seq (s : State) (c : InitCause) : (s.initError c).seq = .idle := rfl
@[simp] theorem initError_fault (s : State) (c : InitCause) : (s.initError c).fault = s.fault := rfl
@[simp] theorem initError_cs (s : State) (c : InitCause) : (s.initError c).cs = s.cs := rfl
@[simp] theorem initError_pins (s : State) (c : InitCause) : (s.initError c).pins = s.pins := rfl
@[simp] theorem initError_xfer (s : State) (c : InitCause) : (s.initError c).xfer = s.xfer := rfl
@[simp] theorem initError_busContext (s : State) (c : InitCause) : (s.initError c).busContext = s.busContext := rfl
@[simp] theorem initError_deviceHandle (s : State) (c : InitCause) : (s.initError c).deviceHandle = s.deviceHandle := rfl
@[simp] theorem initError_bufBase (s : State) (c : InitCause) : (s.initError c).bufBase = s.bufBase := rfl
@[simp] theorem initError_bufAllocated (s : State) (c : InitCause) : (s.initError c).bufAllocated = s.bufAllocated := rfl
@[simp] theorem initError_buf (s : State) (c : InitCause) : (s.initError c).buf = s.buf := rfl
@[simp] theorem initError_framing (s : State) (c : InitCause) : (s.initError c).framing = s.framing := rfl
@[simp] theorem initError_plan (s : State) (c : InitCause) : (s.initError c).plan = s.plan := rfl
@[simp] theorem initError_txn (s : State) (c : InitCause) : (s.initError c).txn = s.txn := rfl
@[simp] theorem initError_rsp (s : State) (c : InitCause) : (s.initError c).rsp = ⟨true, 1, c.code, 0⟩ := rfl
@[simp] theorem initError_desc (s : State) (c : InitCause) : (s.initError c).desc = s.desc := rfl
@[simp] theorem initError_retained (s : State) (c : InitCause) : (s.initError c).retained = s.retained := rfl
@[simp] theorem initError_platform (s : State) (c : InitCause) : (s.initError c).platform = s.platform := rfl
@[simp] theorem initError_trace (s : State) (c : InitCause) : (s.initError c).trace = s.trace ++ [.rsp 1 c.code 0] := rfl
@[simp] theorem initError_waiting (s : State) (c : InitCause) : (s.initError c).waiting = s.waiting := rfl
@[simp] theorem initError_frees (s : State) (c : InitCause) : (s.initError c).frees = s.frees := rfl

/-! ### `regWrite32` -/

@[simp] theorem regWrite32_params (s : State) (a : Nat) (m : Word) : (s.regWrite32 a m).params = s.params := rfl
@[simp] theorem regWrite32_cfg (s : State) (a : Nat) (m : Word) : (s.regWrite32 a m).cfg = s.cfg := rfl
@[simp] theorem regWrite32_env (s : State) (a : Nat) (m : Word) : (s.regWrite32 a m).env = s.env := rfl
@[simp] theorem regWrite32_mode (s : State) (a : Nat) (m : Word) : (s.regWrite32 a m).mode = s.mode := rfl
@[simp] theorem regWrite32_seq (s : State) (a : Nat) (m : Word) : (s.regWrite32 a m).seq = s.seq := rfl
@[simp] theorem regWrite32_fault (s : State) (a : Nat) (m : Word) : (s.regWrite32 a m).fault = s.fault := rfl
@[simp] theorem regWrite32_cs (s : State) (a : Nat) (m : Word) : (s.regWrite32 a m).cs = s.cs := rfl
@[simp] theorem regWrite32_pins (s : State) (a : Nat) (m : Word) : (s.regWrite32 a m).pins = s.pins := rfl
@[simp] theorem regWrite32_xfer (s : State) (a : Nat) (m : Word) : (s.regWrite32 a m).xfer = s.xfer := rfl
@[simp] theorem regWrite32_busContext (s : State) (a : Nat) (m : Word) : (s.regWrite32 a m).busContext = s.busContext := rfl
@[simp] theorem regWrite32_deviceHandle (s : State) (a : Nat) (m : Word) : (s.regWrite32 a m).deviceHandle = s.deviceHandle := rfl
@[simp] theorem regWrite32_bufBase (s : State) (a : Nat) (m : Word) : (s.regWrite32 a m).bufBase = s.bufBase := rfl
@[simp] theorem regWrite32_bufAllocated (s : State) (a : Nat) (m : Word) : (s.regWrite32 a m).bufAllocated = s.bufAllocated := rfl
@[simp] theorem regWrite32_buf (s : State) (a : Nat) (m : Word) : (s.regWrite32 a m).buf = s.buf := rfl
@[simp] theorem regWrite32_framing (s : State) (a : Nat) (m : Word) : (s.regWrite32 a m).framing = s.framing := rfl
@[simp] theorem regWrite32_plan (s : State) (a : Nat) (m : Word) : (s.regWrite32 a m).plan = s.plan := rfl
@[simp] theorem regWrite32_txn (s : State) (a : Nat) (m : Word) : (s.regWrite32 a m).txn = s.txn := rfl
@[simp] theorem regWrite32_rsp (s : State) (a : Nat) (m : Word) : (s.regWrite32 a m).rsp = s.rsp := rfl
@[simp] theorem regWrite32_desc (s : State) (a : Nat) (m : Word) : (s.regWrite32 a m).desc = s.desc := rfl
@[simp] theorem regWrite32_retained (s : State) (a : Nat) (m : Word) : (s.regWrite32 a m).retained = s.retained := rfl
@[simp] theorem regWrite32_platform (s : State) (a : Nat) (m : Word) : (s.regWrite32 a m).platform = s.platform.regWrite s.params a m := rfl
@[simp] theorem regWrite32_trace (s : State) (a : Nat) (m : Word) : (s.regWrite32 a m).trace = s.trace ++ [.regWrite a m] := rfl
@[simp] theorem regWrite32_waiting (s : State) (a : Nat) (m : Word) : (s.regWrite32 a m).waiting = s.waiting := rfl
@[simp] theorem regWrite32_frees (s : State) (a : Nat) (m : Word) : (s.regWrite32 a m).frees = s.frees := rfl

/-! ### `setLevel` -/

@[simp] theorem setLevel_params (s : State) (l : CsLevel) : (s.setLevel l).params = s.params := rfl
@[simp] theorem setLevel_cfg (s : State) (l : CsLevel) : (s.setLevel l).cfg = s.cfg := rfl
@[simp] theorem setLevel_env (s : State) (l : CsLevel) : (s.setLevel l).env = s.env := rfl
@[simp] theorem setLevel_mode (s : State) (l : CsLevel) : (s.setLevel l).mode = s.mode := rfl
@[simp] theorem setLevel_seq (s : State) (l : CsLevel) : (s.setLevel l).seq = s.seq := rfl
@[simp] theorem setLevel_fault (s : State) (l : CsLevel) : (s.setLevel l).fault = s.fault := rfl
@[simp] theorem setLevel_cs (s : State) (l : CsLevel) : (s.setLevel l).cs = l := rfl
@[simp] theorem setLevel_pins (s : State) (l : CsLevel) : (s.setLevel l).pins = s.pins := rfl
@[simp] theorem setLevel_xfer (s : State) (l : CsLevel) : (s.setLevel l).xfer = s.xfer := rfl
@[simp] theorem setLevel_busContext (s : State) (l : CsLevel) : (s.setLevel l).busContext = s.busContext := rfl
@[simp] theorem setLevel_deviceHandle (s : State) (l : CsLevel) : (s.setLevel l).deviceHandle = s.deviceHandle := rfl
@[simp] theorem setLevel_bufBase (s : State) (l : CsLevel) : (s.setLevel l).bufBase = s.bufBase := rfl
@[simp] theorem setLevel_bufAllocated (s : State) (l : CsLevel) : (s.setLevel l).bufAllocated = s.bufAllocated := rfl
@[simp] theorem setLevel_buf (s : State) (l : CsLevel) : (s.setLevel l).buf = s.buf := rfl
@[simp] theorem setLevel_framing (s : State) (l : CsLevel) : (s.setLevel l).framing = s.framing := rfl
@[simp] theorem setLevel_plan (s : State) (l : CsLevel) : (s.setLevel l).plan = s.plan := rfl
@[simp] theorem setLevel_txn (s : State) (l : CsLevel) : (s.setLevel l).txn = s.txn := rfl
@[simp] theorem setLevel_rsp (s : State) (l : CsLevel) : (s.setLevel l).rsp = s.rsp := rfl
@[simp] theorem setLevel_desc (s : State) (l : CsLevel) : (s.setLevel l).desc = s.desc := rfl
@[simp] theorem setLevel_retained (s : State) (l : CsLevel) : (s.setLevel l).retained = s.retained := rfl
@[simp] theorem setLevel_platform (s : State) (l : CsLevel) : (s.setLevel l).platform = s.platform := rfl
@[simp] theorem setLevel_trace (s : State) (l : CsLevel) : (s.setLevel l).trace = s.trace ++ [.cs l] := rfl
@[simp] theorem setLevel_waiting (s : State) (l : CsLevel) : (s.setLevel l).waiting = s.waiting := rfl
@[simp] theorem setLevel_frees (s : State) (l : CsLevel) : (s.setLevel l).frees = s.frees := rfl

/-! ### `holdBuffer` -/

@[simp] theorem holdBuffer_params (s : State) (base : Nat) : (s.holdBuffer base).params = s.params := rfl
@[simp] theorem holdBuffer_cfg (s : State) (base : Nat) : (s.holdBuffer base).cfg = s.cfg := rfl
@[simp] theorem holdBuffer_env (s : State) (base : Nat) : (s.holdBuffer base).env = s.env := rfl
@[simp] theorem holdBuffer_mode (s : State) (base : Nat) : (s.holdBuffer base).mode = s.mode := rfl
@[simp] theorem holdBuffer_seq (s : State) (base : Nat) : (s.holdBuffer base).seq = s.seq := rfl
@[simp] theorem holdBuffer_fault (s : State) (base : Nat) : (s.holdBuffer base).fault = s.fault := rfl
@[simp] theorem holdBuffer_cs (s : State) (base : Nat) : (s.holdBuffer base).cs = s.cs := rfl
@[simp] theorem holdBuffer_pins (s : State) (base : Nat) : (s.holdBuffer base).pins = s.pins := rfl
@[simp] theorem holdBuffer_xfer (s : State) (base : Nat) : (s.holdBuffer base).xfer = s.xfer := rfl
@[simp] theorem holdBuffer_busContext (s : State) (base : Nat) : (s.holdBuffer base).busContext = s.busContext := rfl
@[simp] theorem holdBuffer_deviceHandle (s : State) (base : Nat) : (s.holdBuffer base).deviceHandle = s.deviceHandle := rfl
@[simp] theorem holdBuffer_bufBase (s : State) (base : Nat) : (s.holdBuffer base).bufBase = base := rfl
@[simp] theorem holdBuffer_bufAllocated (s : State) (base : Nat) : (s.holdBuffer base).bufAllocated = true := rfl
@[simp] theorem holdBuffer_buf (s : State) (base : Nat) : (s.holdBuffer base).buf = freshBuf 0 (capBytes s.params) := rfl
@[simp] theorem holdBuffer_framing (s : State) (base : Nat) : (s.holdBuffer base).framing = s.framing := rfl
@[simp] theorem holdBuffer_plan (s : State) (base : Nat) : (s.holdBuffer base).plan = s.plan := rfl
@[simp] theorem holdBuffer_txn (s : State) (base : Nat) : (s.holdBuffer base).txn = s.txn := rfl
@[simp] theorem holdBuffer_rsp (s : State) (base : Nat) : (s.holdBuffer base).rsp = s.rsp := rfl
@[simp] theorem holdBuffer_desc (s : State) (base : Nat) : (s.holdBuffer base).desc = s.desc := rfl
@[simp] theorem holdBuffer_retained (s : State) (base : Nat) : (s.holdBuffer base).retained = s.retained := rfl
@[simp] theorem holdBuffer_platform (s : State) (base : Nat) : (s.holdBuffer base).platform = s.platform := rfl
@[simp] theorem holdBuffer_trace (s : State) (base : Nat) : (s.holdBuffer base).trace = s.trace := rfl
@[simp] theorem holdBuffer_waiting (s : State) (base : Nat) : (s.holdBuffer base).waiting = s.waiting := rfl
@[simp] theorem holdBuffer_frees (s : State) (base : Nat) : (s.holdBuffer base).frees = s.frees := rfl

/-! ### `driveSelect` -/

@[simp] theorem driveSelect_params (s : State) (a : Nat) (l : CsLevel) : (s.driveSelect a l).params = s.params := rfl
@[simp] theorem driveSelect_cfg (s : State) (a : Nat) (l : CsLevel) : (s.driveSelect a l).cfg = s.cfg := rfl
@[simp] theorem driveSelect_env (s : State) (a : Nat) (l : CsLevel) : (s.driveSelect a l).env = s.env := rfl
@[simp] theorem driveSelect_mode (s : State) (a : Nat) (l : CsLevel) : (s.driveSelect a l).mode = s.mode := rfl
@[simp] theorem driveSelect_seq (s : State) (a : Nat) (l : CsLevel) : (s.driveSelect a l).seq = s.seq := rfl
@[simp] theorem driveSelect_fault (s : State) (a : Nat) (l : CsLevel) : (s.driveSelect a l).fault = s.fault := rfl
@[simp] theorem driveSelect_cs (s : State) (a : Nat) (l : CsLevel) : (s.driveSelect a l).cs = l := rfl
@[simp] theorem driveSelect_pins (s : State) (a : Nat) (l : CsLevel) : (s.driveSelect a l).pins = s.pins := rfl
@[simp] theorem driveSelect_xfer (s : State) (a : Nat) (l : CsLevel) : (s.driveSelect a l).xfer = s.xfer := rfl
@[simp] theorem driveSelect_busContext (s : State) (a : Nat) (l : CsLevel) : (s.driveSelect a l).busContext = s.busContext := rfl
@[simp] theorem driveSelect_deviceHandle (s : State) (a : Nat) (l : CsLevel) : (s.driveSelect a l).deviceHandle = s.deviceHandle := rfl
@[simp] theorem driveSelect_bufBase (s : State) (a : Nat) (l : CsLevel) : (s.driveSelect a l).bufBase = s.bufBase := rfl
@[simp] theorem driveSelect_bufAllocated (s : State) (a : Nat) (l : CsLevel) : (s.driveSelect a l).bufAllocated = s.bufAllocated := rfl
@[simp] theorem driveSelect_buf (s : State) (a : Nat) (l : CsLevel) : (s.driveSelect a l).buf = s.buf := rfl
@[simp] theorem driveSelect_framing (s : State) (a : Nat) (l : CsLevel) : (s.driveSelect a l).framing = s.framing := rfl
@[simp] theorem driveSelect_plan (s : State) (a : Nat) (l : CsLevel) : (s.driveSelect a l).plan = s.plan := rfl
@[simp] theorem driveSelect_txn (s : State) (a : Nat) (l : CsLevel) : (s.driveSelect a l).txn = s.txn := rfl
@[simp] theorem driveSelect_rsp (s : State) (a : Nat) (l : CsLevel) : (s.driveSelect a l).rsp = s.rsp := rfl
@[simp] theorem driveSelect_desc (s : State) (a : Nat) (l : CsLevel) : (s.driveSelect a l).desc = s.desc := rfl
@[simp] theorem driveSelect_retained (s : State) (a : Nat) (l : CsLevel) : (s.driveSelect a l).retained = s.retained := rfl
@[simp] theorem driveSelect_platform (s : State) (a : Nat) (l : CsLevel) : (s.driveSelect a l).platform = s.platform.regWrite s.params a s.pins.csMask := rfl
@[simp] theorem driveSelect_trace (s : State) (a : Nat) (l : CsLevel) : (s.driveSelect a l).trace = s.trace ++ [.regWrite a s.pins.csMask] ++ [.cs l] := rfl
@[simp] theorem driveSelect_waiting (s : State) (a : Nat) (l : CsLevel) : (s.driveSelect a l).waiting = s.waiting := rfl
@[simp] theorem driveSelect_frees (s : State) (a : Nat) (l : CsLevel) : (s.driveSelect a l).frees = s.frees := rfl

/-! ### `assertSelect` -/

@[simp] theorem assertSelect_params (s : State) : s.assertSelect.params = s.params := rfl
@[simp] theorem assertSelect_cfg (s : State) : s.assertSelect.cfg = s.cfg := rfl
@[simp] theorem assertSelect_env (s : State) : s.assertSelect.env = s.env := rfl
@[simp] theorem assertSelect_mode (s : State) : s.assertSelect.mode = s.mode := rfl
@[simp] theorem assertSelect_seq (s : State) : s.assertSelect.seq = s.seq := rfl
@[simp] theorem assertSelect_fault (s : State) : s.assertSelect.fault = s.fault := rfl
@[simp] theorem assertSelect_cs (s : State) : s.assertSelect.cs = .asserted := rfl
@[simp] theorem assertSelect_pins (s : State) : s.assertSelect.pins = s.pins := rfl
@[simp] theorem assertSelect_xfer (s : State) : s.assertSelect.xfer = s.xfer := rfl
@[simp] theorem assertSelect_busContext (s : State) : s.assertSelect.busContext = s.busContext := rfl
@[simp] theorem assertSelect_deviceHandle (s : State) : s.assertSelect.deviceHandle = s.deviceHandle := rfl
@[simp] theorem assertSelect_bufBase (s : State) : s.assertSelect.bufBase = s.bufBase := rfl
@[simp] theorem assertSelect_bufAllocated (s : State) : s.assertSelect.bufAllocated = s.bufAllocated := rfl
@[simp] theorem assertSelect_buf (s : State) : s.assertSelect.buf = s.buf := rfl
@[simp] theorem assertSelect_framing (s : State) : s.assertSelect.framing = s.framing := rfl
@[simp] theorem assertSelect_plan (s : State) : s.assertSelect.plan = s.plan := rfl
@[simp] theorem assertSelect_txn (s : State) : s.assertSelect.txn = s.txn := rfl
@[simp] theorem assertSelect_rsp (s : State) : s.assertSelect.rsp = s.rsp := rfl
@[simp] theorem assertSelect_desc (s : State) : s.assertSelect.desc = s.desc := rfl
@[simp] theorem assertSelect_retained (s : State) : s.assertSelect.retained = s.retained := rfl
@[simp] theorem assertSelect_platform (s : State) : s.assertSelect.platform = s.platform.regWrite s.params s.assertAddr s.pins.csMask := rfl
@[simp] theorem assertSelect_trace (s : State) : s.assertSelect.trace = s.trace ++ [.regWrite s.assertAddr s.pins.csMask] ++ [.cs .asserted] := rfl
@[simp] theorem assertSelect_waiting (s : State) : s.assertSelect.waiting = s.waiting := rfl
@[simp] theorem assertSelect_frees (s : State) : s.assertSelect.frees = s.frees := rfl

/-! ### `deassertSelect` -/

@[simp] theorem deassertSelect_params (s : State) : s.deassertSelect.params = s.params := rfl
@[simp] theorem deassertSelect_cfg (s : State) : s.deassertSelect.cfg = s.cfg := rfl
@[simp] theorem deassertSelect_env (s : State) : s.deassertSelect.env = s.env := rfl
@[simp] theorem deassertSelect_mode (s : State) : s.deassertSelect.mode = s.mode := rfl
@[simp] theorem deassertSelect_seq (s : State) : s.deassertSelect.seq = s.seq := rfl
@[simp] theorem deassertSelect_fault (s : State) : s.deassertSelect.fault = s.fault := rfl
@[simp] theorem deassertSelect_cs (s : State) : s.deassertSelect.cs = .deasserted := rfl
@[simp] theorem deassertSelect_pins (s : State) : s.deassertSelect.pins = s.pins := rfl
@[simp] theorem deassertSelect_xfer (s : State) : s.deassertSelect.xfer = s.xfer := rfl
@[simp] theorem deassertSelect_busContext (s : State) : s.deassertSelect.busContext = s.busContext := rfl
@[simp] theorem deassertSelect_deviceHandle (s : State) : s.deassertSelect.deviceHandle = s.deviceHandle := rfl
@[simp] theorem deassertSelect_bufBase (s : State) : s.deassertSelect.bufBase = s.bufBase := rfl
@[simp] theorem deassertSelect_bufAllocated (s : State) : s.deassertSelect.bufAllocated = s.bufAllocated := rfl
@[simp] theorem deassertSelect_buf (s : State) : s.deassertSelect.buf = s.buf := rfl
@[simp] theorem deassertSelect_framing (s : State) : s.deassertSelect.framing = s.framing := rfl
@[simp] theorem deassertSelect_plan (s : State) : s.deassertSelect.plan = s.plan := rfl
@[simp] theorem deassertSelect_txn (s : State) : s.deassertSelect.txn = s.txn := rfl
@[simp] theorem deassertSelect_rsp (s : State) : s.deassertSelect.rsp = s.rsp := rfl
@[simp] theorem deassertSelect_desc (s : State) : s.deassertSelect.desc = s.desc := rfl
@[simp] theorem deassertSelect_retained (s : State) : s.deassertSelect.retained = s.retained := rfl
@[simp] theorem deassertSelect_platform (s : State) : s.deassertSelect.platform = s.platform.regWrite s.params s.deassertAddr s.pins.csMask := rfl
@[simp] theorem deassertSelect_trace (s : State) : s.deassertSelect.trace = s.trace ++ [.regWrite s.deassertAddr s.pins.csMask] ++ [.cs .deasserted] := rfl
@[simp] theorem deassertSelect_waiting (s : State) : s.deassertSelect.waiting = s.waiting := rfl
@[simp] theorem deassertSelect_frees (s : State) : s.deassertSelect.frees = s.frees := rfl

/-! ### `enterBracket` -/

@[simp] theorem enterBracket_params (s : State) : s.enterBracket.params = s.params := rfl
@[simp] theorem enterBracket_cfg (s : State) : s.enterBracket.cfg = s.cfg := rfl
@[simp] theorem enterBracket_env (s : State) : s.enterBracket.env = s.env := rfl
@[simp] theorem enterBracket_mode (s : State) : s.enterBracket.mode = s.mode := rfl
@[simp] theorem enterBracket_seq (s : State) : s.enterBracket.seq = s.seq := rfl
@[simp] theorem enterBracket_fault (s : State) : s.enterBracket.fault = s.fault := rfl
@[simp] theorem enterBracket_cs (s : State) : s.enterBracket.cs = .asserted := rfl
@[simp] theorem enterBracket_pins (s : State) : s.enterBracket.pins = s.pins := rfl
@[simp] theorem enterBracket_xfer (s : State) : s.enterBracket.xfer = s.xfer := rfl
@[simp] theorem enterBracket_busContext (s : State) : s.enterBracket.busContext = s.busContext := rfl
@[simp] theorem enterBracket_deviceHandle (s : State) : s.enterBracket.deviceHandle = s.deviceHandle := rfl
@[simp] theorem enterBracket_bufBase (s : State) : s.enterBracket.bufBase = s.bufBase := rfl
@[simp] theorem enterBracket_bufAllocated (s : State) : s.enterBracket.bufAllocated = s.bufAllocated := rfl
@[simp] theorem enterBracket_buf (s : State) : s.enterBracket.buf = s.buf := rfl
@[simp] theorem enterBracket_framing (s : State) : s.enterBracket.framing = .framed := rfl
@[simp] theorem enterBracket_plan (s : State) : s.enterBracket.plan = { s.plan with txDone := 0 } := rfl
@[simp] theorem enterBracket_txn (s : State) : s.enterBracket.txn = s.txn := rfl
@[simp] theorem enterBracket_rsp (s : State) : s.enterBracket.rsp = s.rsp := rfl
@[simp] theorem enterBracket_desc (s : State) : s.enterBracket.desc = s.desc := rfl
@[simp] theorem enterBracket_retained (s : State) : s.enterBracket.retained = s.retained := rfl
@[simp] theorem enterBracket_platform (s : State) : s.enterBracket.platform = s.platform.regWrite s.params s.assertAddr s.pins.csMask := rfl
@[simp] theorem enterBracket_trace (s : State) : s.enterBracket.trace = s.trace ++ [.regWrite s.assertAddr s.pins.csMask] ++ [.cs .asserted] := rfl
@[simp] theorem enterBracket_waiting (s : State) : s.enterBracket.waiting = s.waiting := rfl
@[simp] theorem enterBracket_frees (s : State) : s.enterBracket.frees = s.frees := rfl

/-! ### `setChunk` -/

@[simp] theorem setChunk_params (s : State) (f : Fill) : (s.setChunk f).params = s.params := rfl
@[simp] theorem setChunk_cfg (s : State) (f : Fill) : (s.setChunk f).cfg = s.cfg := rfl
@[simp] theorem setChunk_env (s : State) (f : Fill) : (s.setChunk f).env = s.env := rfl
@[simp] theorem setChunk_mode (s : State) (f : Fill) : (s.setChunk f).mode = s.mode := rfl
@[simp] theorem setChunk_seq (s : State) (f : Fill) : (s.setChunk f).seq = s.seq := rfl
@[simp] theorem setChunk_fault (s : State) (f : Fill) : (s.setChunk f).fault = s.fault := rfl
@[simp] theorem setChunk_cs (s : State) (f : Fill) : (s.setChunk f).cs = s.cs := rfl
@[simp] theorem setChunk_pins (s : State) (f : Fill) : (s.setChunk f).pins = s.pins := rfl
@[simp] theorem setChunk_xfer (s : State) (f : Fill) : (s.setChunk f).xfer = s.xfer := rfl
@[simp] theorem setChunk_busContext (s : State) (f : Fill) : (s.setChunk f).busContext = s.busContext := rfl
@[simp] theorem setChunk_deviceHandle (s : State) (f : Fill) : (s.setChunk f).deviceHandle = s.deviceHandle := rfl
@[simp] theorem setChunk_bufBase (s : State) (f : Fill) : (s.setChunk f).bufBase = s.bufBase := rfl
@[simp] theorem setChunk_bufAllocated (s : State) (f : Fill) : (s.setChunk f).bufAllocated = s.bufAllocated := rfl
@[simp] theorem setChunk_buf (s : State) (f : Fill) : (s.setChunk f).buf = s.buf := rfl
@[simp] theorem setChunk_framing (s : State) (f : Fill) : (s.setChunk f).framing = s.framing := rfl
@[simp] theorem setChunk_plan (s : State) (f : Fill) : (s.setChunk f).plan = { s.plan with chunk := BitVec.ofNat 32 (min s.plan.remaining.toNat (f.capElems s.params)) } := rfl
@[simp] theorem setChunk_txn (s : State) (f : Fill) : (s.setChunk f).txn = s.txn := rfl
@[simp] theorem setChunk_rsp (s : State) (f : Fill) : (s.setChunk f).rsp = s.rsp := rfl
@[simp] theorem setChunk_desc (s : State) (f : Fill) : (s.setChunk f).desc = s.desc := rfl
@[simp] theorem setChunk_retained (s : State) (f : Fill) : (s.setChunk f).retained = s.retained := rfl
@[simp] theorem setChunk_platform (s : State) (f : Fill) : (s.setChunk f).platform = s.platform := rfl
@[simp] theorem setChunk_trace (s : State) (f : Fill) : (s.setChunk f).trace = s.trace := rfl
@[simp] theorem setChunk_waiting (s : State) (f : Fill) : (s.setChunk f).waiting = s.waiting := rfl
@[simp] theorem setChunk_frees (s : State) (f : Fill) : (s.setChunk f).frees = s.frees := rfl

/-! ### `loadChunk` -/

@[simp] theorem loadChunk_params (s : State) (f : Fill) (n : Nat) : (s.loadChunk f n).params = s.params := rfl
@[simp] theorem loadChunk_cfg (s : State) (f : Fill) (n : Nat) : (s.loadChunk f n).cfg = s.cfg := rfl
@[simp] theorem loadChunk_env (s : State) (f : Fill) (n : Nat) : (s.loadChunk f n).env = s.env := rfl
@[simp] theorem loadChunk_mode (s : State) (f : Fill) (n : Nat) : (s.loadChunk f n).mode = s.mode := rfl
@[simp] theorem loadChunk_seq (s : State) (f : Fill) (n : Nat) : (s.loadChunk f n).seq = s.seq := rfl
@[simp] theorem loadChunk_fault (s : State) (f : Fill) (n : Nat) : (s.loadChunk f n).fault = s.fault := rfl
@[simp] theorem loadChunk_cs (s : State) (f : Fill) (n : Nat) : (s.loadChunk f n).cs = s.cs := rfl
@[simp] theorem loadChunk_pins (s : State) (f : Fill) (n : Nat) : (s.loadChunk f n).pins = s.pins := rfl
@[simp] theorem loadChunk_xfer (s : State) (f : Fill) (n : Nat) : (s.loadChunk f n).xfer = s.xfer := rfl
@[simp] theorem loadChunk_busContext (s : State) (f : Fill) (n : Nat) : (s.loadChunk f n).busContext = s.busContext := rfl
@[simp] theorem loadChunk_deviceHandle (s : State) (f : Fill) (n : Nat) : (s.loadChunk f n).deviceHandle = s.deviceHandle := rfl
@[simp] theorem loadChunk_bufBase (s : State) (f : Fill) (n : Nat) : (s.loadChunk f n).bufBase = s.bufBase := rfl
@[simp] theorem loadChunk_bufAllocated (s : State) (f : Fill) (n : Nat) : (s.loadChunk f n).bufAllocated = s.bufAllocated := rfl
@[simp] theorem loadChunk_buf (s : State) (f : Fill) (n : Nat) : (s.loadChunk f n).buf = s.buf := rfl
@[simp] theorem loadChunk_framing (s : State) (f : Fill) (n : Nat) : (s.loadChunk f n).framing = s.framing := rfl
@[simp] theorem loadChunk_plan (s : State) (f : Fill) (n : Nat) : (s.loadChunk f n).plan = s.plan := rfl
@[simp] theorem loadChunk_txn (s : State) (f : Fill) (n : Nat) : (s.loadChunk f n).txn = chunkTxn s.framing (s.bufB (n * f.elemBytes)) := rfl
@[simp] theorem loadChunk_rsp (s : State) (f : Fill) (n : Nat) : (s.loadChunk f n).rsp = s.rsp := rfl
@[simp] theorem loadChunk_desc (s : State) (f : Fill) (n : Nat) : (s.loadChunk f n).desc = s.desc := rfl
@[simp] theorem loadChunk_retained (s : State) (f : Fill) (n : Nat) : (s.loadChunk f n).retained = s.retained := rfl
@[simp] theorem loadChunk_platform (s : State) (f : Fill) (n : Nat) : (s.loadChunk f n).platform = s.platform := rfl
@[simp] theorem loadChunk_trace (s : State) (f : Fill) (n : Nat) : (s.loadChunk f n).trace = s.trace := rfl
@[simp] theorem loadChunk_waiting (s : State) (f : Fill) (n : Nat) : (s.loadChunk f n).waiting = s.waiting := rfl
@[simp] theorem loadChunk_frees (s : State) (f : Fill) (n : Nat) : (s.loadChunk f n).frees = s.frees := rfl

/-! ### `chunkDone` -/

@[simp] theorem chunkDone_params (s : State) : s.chunkDone.params = s.params := rfl
@[simp] theorem chunkDone_cfg (s : State) : s.chunkDone.cfg = s.cfg := rfl
@[simp] theorem chunkDone_env (s : State) : s.chunkDone.env = s.env := rfl
@[simp] theorem chunkDone_mode (s : State) : s.chunkDone.mode = s.mode := rfl
@[simp] theorem chunkDone_seq (s : State) : s.chunkDone.seq = s.seq := rfl
@[simp] theorem chunkDone_fault (s : State) : s.chunkDone.fault = s.fault := rfl
@[simp] theorem chunkDone_cs (s : State) : s.chunkDone.cs = s.cs := rfl
@[simp] theorem chunkDone_pins (s : State) : s.chunkDone.pins = s.pins := rfl
@[simp] theorem chunkDone_xfer (s : State) : s.chunkDone.xfer = s.xfer := rfl
@[simp] theorem chunkDone_busContext (s : State) : s.chunkDone.busContext = s.busContext := rfl
@[simp] theorem chunkDone_deviceHandle (s : State) : s.chunkDone.deviceHandle = s.deviceHandle := rfl
@[simp] theorem chunkDone_bufBase (s : State) : s.chunkDone.bufBase = s.bufBase := rfl
@[simp] theorem chunkDone_bufAllocated (s : State) : s.chunkDone.bufAllocated = s.bufAllocated := rfl
@[simp] theorem chunkDone_buf (s : State) : s.chunkDone.buf = s.buf := rfl
@[simp] theorem chunkDone_framing (s : State) : s.chunkDone.framing = .continuation := rfl
@[simp] theorem chunkDone_plan (s : State) : s.chunkDone.plan = { s.plan with txDone := s.plan.txDone + 1, remaining := s.plan.remaining - s.plan.chunk } := rfl
@[simp] theorem chunkDone_txn (s : State) : s.chunkDone.txn = s.txn := rfl
@[simp] theorem chunkDone_rsp (s : State) : s.chunkDone.rsp = s.rsp := rfl
@[simp] theorem chunkDone_desc (s : State) : s.chunkDone.desc = s.desc := rfl
@[simp] theorem chunkDone_retained (s : State) : s.chunkDone.retained = s.retained := rfl
@[simp] theorem chunkDone_platform (s : State) : s.chunkDone.platform = s.platform := rfl
@[simp] theorem chunkDone_trace (s : State) : s.chunkDone.trace = s.trace := rfl
@[simp] theorem chunkDone_waiting (s : State) : s.chunkDone.waiting = s.waiting := rfl
@[simp] theorem chunkDone_frees (s : State) : s.chunkDone.frees = s.frees := rfl

/-! ### `fillRepeated` -/

@[simp] theorem fillRepeated_params (s : State) (v : Half) (n : Word) : (s.fillRepeated v n).params = s.params := rfl
@[simp] theorem fillRepeated_cfg (s : State) (v : Half) (n : Word) : (s.fillRepeated v n).cfg = s.cfg := rfl
@[simp] theorem fillRepeated_env (s : State) (v : Half) (n : Word) : (s.fillRepeated v n).env = s.env := rfl
@[simp] theorem fillRepeated_mode (s : State) (v : Half) (n : Word) : (s.fillRepeated v n).mode = s.mode := rfl
@[simp] theorem fillRepeated_seq (s : State) (v : Half) (n : Word) : (s.fillRepeated v n).seq = s.seq := rfl
@[simp] theorem fillRepeated_fault (s : State) (v : Half) (n : Word) : (s.fillRepeated v n).fault = s.fault := rfl
@[simp] theorem fillRepeated_cs (s : State) (v : Half) (n : Word) : (s.fillRepeated v n).cs = s.cs := rfl
@[simp] theorem fillRepeated_pins (s : State) (v : Half) (n : Word) : (s.fillRepeated v n).pins = s.pins := rfl
@[simp] theorem fillRepeated_xfer (s : State) (v : Half) (n : Word) : (s.fillRepeated v n).xfer = s.xfer := rfl
@[simp] theorem fillRepeated_busContext (s : State) (v : Half) (n : Word) : (s.fillRepeated v n).busContext = s.busContext := rfl
@[simp] theorem fillRepeated_deviceHandle (s : State) (v : Half) (n : Word) : (s.fillRepeated v n).deviceHandle = s.deviceHandle := rfl
@[simp] theorem fillRepeated_bufBase (s : State) (v : Half) (n : Word) : (s.fillRepeated v n).bufBase = s.bufBase := rfl
@[simp] theorem fillRepeated_bufAllocated (s : State) (v : Half) (n : Word) : (s.fillRepeated v n).bufAllocated = s.bufAllocated := rfl
@[simp] theorem fillRepeated_buf (s : State) (v : Half) (n : Word) : (s.fillRepeated v n).buf = overwrite s.buf (wordsLE (List.replicate (min n.toNat (capWords s.params)) (normalize v))) := rfl
@[simp] theorem fillRepeated_framing (s : State) (v : Half) (n : Word) : (s.fillRepeated v n).framing = s.framing := rfl
@[simp] theorem fillRepeated_plan (s : State) (v : Half) (n : Word) : (s.fillRepeated v n).plan = { s.plan with filled := BitVec.ofNat 32 (min n.toNat (capWords s.params)) } := rfl
@[simp] theorem fillRepeated_txn (s : State) (v : Half) (n : Word) : (s.fillRepeated v n).txn = s.txn := rfl
@[simp] theorem fillRepeated_rsp (s : State) (v : Half) (n : Word) : (s.fillRepeated v n).rsp = s.rsp := rfl
@[simp] theorem fillRepeated_desc (s : State) (v : Half) (n : Word) : (s.fillRepeated v n).desc = s.desc := rfl
@[simp] theorem fillRepeated_retained (s : State) (v : Half) (n : Word) : (s.fillRepeated v n).retained = s.retained := rfl
@[simp] theorem fillRepeated_platform (s : State) (v : Half) (n : Word) : (s.fillRepeated v n).platform = s.platform := rfl
@[simp] theorem fillRepeated_trace (s : State) (v : Half) (n : Word) : (s.fillRepeated v n).trace = s.trace := rfl
@[simp] theorem fillRepeated_waiting (s : State) (v : Half) (n : Word) : (s.fillRepeated v n).waiting = s.waiting := rfl
@[simp] theorem fillRepeated_frees (s : State) (v : Half) (n : Word) : (s.fillRepeated v n).frees = s.frees := rfl

/-! ### `setSource` -/

@[simp] theorem setSource_params (s : State) (p : Word) : (s.setSource p).params = s.params := rfl
@[simp] theorem setSource_cfg (s : State) (p : Word) : (s.setSource p).cfg = s.cfg := rfl
@[simp] theorem setSource_env (s : State) (p : Word) : (s.setSource p).env = s.env := rfl
@[simp] theorem setSource_mode (s : State) (p : Word) : (s.setSource p).mode = s.mode := rfl
@[simp] theorem setSource_seq (s : State) (p : Word) : (s.setSource p).seq = s.seq := rfl
@[simp] theorem setSource_fault (s : State) (p : Word) : (s.setSource p).fault = s.fault := rfl
@[simp] theorem setSource_cs (s : State) (p : Word) : (s.setSource p).cs = s.cs := rfl
@[simp] theorem setSource_pins (s : State) (p : Word) : (s.setSource p).pins = s.pins := rfl
@[simp] theorem setSource_xfer (s : State) (p : Word) : (s.setSource p).xfer = s.xfer := rfl
@[simp] theorem setSource_busContext (s : State) (p : Word) : (s.setSource p).busContext = s.busContext := rfl
@[simp] theorem setSource_deviceHandle (s : State) (p : Word) : (s.setSource p).deviceHandle = s.deviceHandle := rfl
@[simp] theorem setSource_bufBase (s : State) (p : Word) : (s.setSource p).bufBase = s.bufBase := rfl
@[simp] theorem setSource_bufAllocated (s : State) (p : Word) : (s.setSource p).bufAllocated = s.bufAllocated := rfl
@[simp] theorem setSource_buf (s : State) (p : Word) : (s.setSource p).buf = s.buf := rfl
@[simp] theorem setSource_framing (s : State) (p : Word) : (s.setSource p).framing = s.framing := rfl
@[simp] theorem setSource_plan (s : State) (p : Word) : (s.setSource p).plan = { s.plan with srcAddr := p.toNat } := rfl
@[simp] theorem setSource_txn (s : State) (p : Word) : (s.setSource p).txn = s.txn := rfl
@[simp] theorem setSource_rsp (s : State) (p : Word) : (s.setSource p).rsp = s.rsp := rfl
@[simp] theorem setSource_desc (s : State) (p : Word) : (s.setSource p).desc = s.desc := rfl
@[simp] theorem setSource_retained (s : State) (p : Word) : (s.setSource p).retained = s.retained := rfl
@[simp] theorem setSource_platform (s : State) (p : Word) : (s.setSource p).platform = s.platform := rfl
@[simp] theorem setSource_trace (s : State) (p : Word) : (s.setSource p).trace = s.trace := rfl
@[simp] theorem setSource_waiting (s : State) (p : Word) : (s.setSource p).waiting = s.waiting := rfl
@[simp] theorem setSource_frees (s : State) (p : Word) : (s.setSource p).frees = s.frees := rfl

/-! ### `singleDone` -/

@[simp] theorem singleDone_params (s : State) : s.singleDone.params = s.params := rfl
@[simp] theorem singleDone_cfg (s : State) : s.singleDone.cfg = s.cfg := rfl
@[simp] theorem singleDone_env (s : State) : s.singleDone.env = s.env := rfl
@[simp] theorem singleDone_mode (s : State) : s.singleDone.mode = s.mode := rfl
@[simp] theorem singleDone_seq (s : State) : s.singleDone.seq = s.seq := rfl
@[simp] theorem singleDone_fault (s : State) : s.singleDone.fault = s.fault := rfl
@[simp] theorem singleDone_cs (s : State) : s.singleDone.cs = s.cs := rfl
@[simp] theorem singleDone_pins (s : State) : s.singleDone.pins = s.pins := rfl
@[simp] theorem singleDone_xfer (s : State) : s.singleDone.xfer = s.xfer := rfl
@[simp] theorem singleDone_busContext (s : State) : s.singleDone.busContext = s.busContext := rfl
@[simp] theorem singleDone_deviceHandle (s : State) : s.singleDone.deviceHandle = s.deviceHandle := rfl
@[simp] theorem singleDone_bufBase (s : State) : s.singleDone.bufBase = s.bufBase := rfl
@[simp] theorem singleDone_bufAllocated (s : State) : s.singleDone.bufAllocated = s.bufAllocated := rfl
@[simp] theorem singleDone_buf (s : State) : s.singleDone.buf = s.buf := rfl
@[simp] theorem singleDone_framing (s : State) : s.singleDone.framing = s.framing := rfl
@[simp] theorem singleDone_plan (s : State) : s.singleDone.plan = { s.plan with txDone := 1 } := rfl
@[simp] theorem singleDone_txn (s : State) : s.singleDone.txn = s.txn := rfl
@[simp] theorem singleDone_rsp (s : State) : s.singleDone.rsp = s.rsp := rfl
@[simp] theorem singleDone_desc (s : State) : s.singleDone.desc = s.desc := rfl
@[simp] theorem singleDone_retained (s : State) : s.singleDone.retained = s.retained := rfl
@[simp] theorem singleDone_platform (s : State) : s.singleDone.platform = s.platform := rfl
@[simp] theorem singleDone_trace (s : State) : s.singleDone.trace = s.trace := rfl
@[simp] theorem singleDone_waiting (s : State) : s.singleDone.waiting = s.waiting := rfl
@[simp] theorem singleDone_frees (s : State) : s.singleDone.frees = s.frees := rfl

/-! ### `repetitionDone` -/

@[simp] theorem repetitionDone_params (s : State) : s.repetitionDone.params = s.params := rfl
@[simp] theorem repetitionDone_cfg (s : State) : s.repetitionDone.cfg = s.cfg := rfl
@[simp] theorem repetitionDone_env (s : State) : s.repetitionDone.env = s.env := rfl
@[simp] theorem repetitionDone_mode (s : State) : s.repetitionDone.mode = s.mode := rfl
@[simp] theorem repetitionDone_seq (s : State) : s.repetitionDone.seq = s.seq := rfl
@[simp] theorem repetitionDone_fault (s : State) : s.repetitionDone.fault = s.fault := rfl
@[simp] theorem repetitionDone_cs (s : State) : s.repetitionDone.cs = s.cs := rfl
@[simp] theorem repetitionDone_pins (s : State) : s.repetitionDone.pins = s.pins := rfl
@[simp] theorem repetitionDone_xfer (s : State) : s.repetitionDone.xfer = s.xfer := rfl
@[simp] theorem repetitionDone_busContext (s : State) : s.repetitionDone.busContext = s.busContext := rfl
@[simp] theorem repetitionDone_deviceHandle (s : State) : s.repetitionDone.deviceHandle = s.deviceHandle := rfl
@[simp] theorem repetitionDone_bufBase (s : State) : s.repetitionDone.bufBase = s.bufBase := rfl
@[simp] theorem repetitionDone_bufAllocated (s : State) : s.repetitionDone.bufAllocated = s.bufAllocated := rfl
@[simp] theorem repetitionDone_buf (s : State) : s.repetitionDone.buf = s.buf := rfl
@[simp] theorem repetitionDone_framing (s : State) : s.repetitionDone.framing = s.framing := rfl
@[simp] theorem repetitionDone_plan (s : State) : s.repetitionDone.plan = { s.plan with repDone := s.plan.repDone + 1 } := rfl
@[simp] theorem repetitionDone_txn (s : State) : s.repetitionDone.txn = s.txn := rfl
@[simp] theorem repetitionDone_rsp (s : State) : s.repetitionDone.rsp = s.rsp := rfl
@[simp] theorem repetitionDone_desc (s : State) : s.repetitionDone.desc = s.desc := rfl
@[simp] theorem repetitionDone_retained (s : State) : s.repetitionDone.retained = s.retained := rfl
@[simp] theorem repetitionDone_platform (s : State) : s.repetitionDone.platform = s.platform := rfl
@[simp] theorem repetitionDone_trace (s : State) : s.repetitionDone.trace = s.trace := rfl
@[simp] theorem repetitionDone_waiting (s : State) : s.repetitionDone.waiting = s.waiting := rfl
@[simp] theorem repetitionDone_frees (s : State) : s.repetitionDone.frees = s.frees := rfl

/-! ### `idleStep` -/

@[simp] theorem idleStep_params (s : State) : s.idleStep.params = s.params := rfl
@[simp] theorem idleStep_cfg (s : State) : s.idleStep.cfg = s.cfg := rfl
@[simp] theorem idleStep_env (s : State) : s.idleStep.env = s.env := rfl
@[simp] theorem idleStep_mode (s : State) : s.idleStep.mode = s.mode := rfl
@[simp] theorem idleStep_seq (s : State) : s.idleStep.seq = s.seq := rfl
@[simp] theorem idleStep_fault (s : State) : s.idleStep.fault = s.fault := rfl
@[simp] theorem idleStep_cs (s : State) : s.idleStep.cs = s.cs := rfl
@[simp] theorem idleStep_pins (s : State) : s.idleStep.pins = s.pins := rfl
@[simp] theorem idleStep_xfer (s : State) : s.idleStep.xfer = s.xfer := rfl
@[simp] theorem idleStep_busContext (s : State) : s.idleStep.busContext = s.busContext := rfl
@[simp] theorem idleStep_deviceHandle (s : State) : s.idleStep.deviceHandle = s.deviceHandle := rfl
@[simp] theorem idleStep_bufBase (s : State) : s.idleStep.bufBase = s.bufBase := rfl
@[simp] theorem idleStep_bufAllocated (s : State) : s.idleStep.bufAllocated = s.bufAllocated := rfl
@[simp] theorem idleStep_buf (s : State) : s.idleStep.buf = s.buf := rfl
@[simp] theorem idleStep_framing (s : State) : s.idleStep.framing = s.framing := rfl
@[simp] theorem idleStep_plan (s : State) : s.idleStep.plan = s.plan := rfl
@[simp] theorem idleStep_txn (s : State) : s.idleStep.txn = s.txn := rfl
@[simp] theorem idleStep_rsp (s : State) : s.idleStep.rsp = { s.rsp with valid := false } := rfl
@[simp] theorem idleStep_desc (s : State) : s.idleStep.desc = s.desc := rfl
@[simp] theorem idleStep_retained (s : State) : s.idleStep.retained = s.retained := rfl
@[simp] theorem idleStep_platform (s : State) : s.idleStep.platform = s.platform := rfl
@[simp] theorem idleStep_trace (s : State) : s.idleStep.trace = s.trace := rfl
@[simp] theorem idleStep_waiting (s : State) : s.idleStep.waiting = s.waiting := rfl
@[simp] theorem idleStep_frees (s : State) : s.idleStep.frees = s.frees := rfl

/-! ### `withRequest` -/

@[simp] theorem withRequest_params (s : State) (d : Desc) : (s.withRequest d).params = s.params := rfl
@[simp] theorem withRequest_cfg (s : State) (d : Desc) : (s.withRequest d).cfg = s.cfg := rfl
@[simp] theorem withRequest_env (s : State) (d : Desc) : (s.withRequest d).env = { s.env with requests := d :: s.env.requests } := rfl
@[simp] theorem withRequest_mode (s : State) (d : Desc) : (s.withRequest d).mode = s.mode := rfl
@[simp] theorem withRequest_seq (s : State) (d : Desc) : (s.withRequest d).seq = .idle := rfl
@[simp] theorem withRequest_fault (s : State) (d : Desc) : (s.withRequest d).fault = s.fault := rfl
@[simp] theorem withRequest_cs (s : State) (d : Desc) : (s.withRequest d).cs = s.cs := rfl
@[simp] theorem withRequest_pins (s : State) (d : Desc) : (s.withRequest d).pins = s.pins := rfl
@[simp] theorem withRequest_xfer (s : State) (d : Desc) : (s.withRequest d).xfer = s.xfer := rfl
@[simp] theorem withRequest_busContext (s : State) (d : Desc) : (s.withRequest d).busContext = s.busContext := rfl
@[simp] theorem withRequest_deviceHandle (s : State) (d : Desc) : (s.withRequest d).deviceHandle = s.deviceHandle := rfl
@[simp] theorem withRequest_bufBase (s : State) (d : Desc) : (s.withRequest d).bufBase = s.bufBase := rfl
@[simp] theorem withRequest_bufAllocated (s : State) (d : Desc) : (s.withRequest d).bufAllocated = s.bufAllocated := rfl
@[simp] theorem withRequest_buf (s : State) (d : Desc) : (s.withRequest d).buf = s.buf := rfl
@[simp] theorem withRequest_framing (s : State) (d : Desc) : (s.withRequest d).framing = s.framing := rfl
@[simp] theorem withRequest_plan (s : State) (d : Desc) : (s.withRequest d).plan = s.plan := rfl
@[simp] theorem withRequest_txn (s : State) (d : Desc) : (s.withRequest d).txn = s.txn := rfl
@[simp] theorem withRequest_rsp (s : State) (d : Desc) : (s.withRequest d).rsp = s.rsp := rfl
@[simp] theorem withRequest_desc (s : State) (d : Desc) : (s.withRequest d).desc = s.desc := rfl
@[simp] theorem withRequest_retained (s : State) (d : Desc) : (s.withRequest d).retained = s.retained := rfl
@[simp] theorem withRequest_platform (s : State) (d : Desc) : (s.withRequest d).platform = s.platform := rfl
@[simp] theorem withRequest_trace (s : State) (d : Desc) : (s.withRequest d).trace = s.trace := rfl
@[simp] theorem withRequest_waiting (s : State) (d : Desc) : (s.withRequest d).waiting = s.waiting := rfl
@[simp] theorem withRequest_frees (s : State) (d : Desc) : (s.withRequest d).frees = s.frees := rfl

/-! ### `handOver` -/

@[simp] theorem handOver_params (s : State) : s.handOver.params = s.params := rfl
@[simp] theorem handOver_cfg (s : State) : s.handOver.cfg = s.cfg := rfl
@[simp] theorem handOver_env (s : State) : s.handOver.env = s.env := rfl
@[simp] theorem handOver_mode (s : State) : s.handOver.mode = s.mode := rfl
@[simp] theorem handOver_seq (s : State) : s.handOver.seq = s.seq := rfl
@[simp] theorem handOver_fault (s : State) : s.handOver.fault = s.fault := rfl
@[simp] theorem handOver_cs (s : State) : s.handOver.cs = s.cs := rfl
@[simp] theorem handOver_pins (s : State) : s.handOver.pins = s.pins := rfl
@[simp] theorem handOver_xfer (s : State) : s.handOver.xfer = s.xfer := rfl
@[simp] theorem handOver_busContext (s : State) : s.handOver.busContext = s.busContext := rfl
@[simp] theorem handOver_deviceHandle (s : State) : s.handOver.deviceHandle = s.deviceHandle := rfl
@[simp] theorem handOver_bufBase (s : State) : s.handOver.bufBase = s.bufBase := rfl
@[simp] theorem handOver_bufAllocated (s : State) : s.handOver.bufAllocated = s.bufAllocated := rfl
@[simp] theorem handOver_buf (s : State) : s.handOver.buf = s.buf := rfl
@[simp] theorem handOver_framing (s : State) : s.handOver.framing = s.framing := rfl
@[simp] theorem handOver_plan (s : State) : s.handOver.plan = s.plan := rfl
@[simp] theorem handOver_txn (s : State) : s.handOver.txn = s.txn := rfl
@[simp] theorem handOver_rsp (s : State) : s.handOver.rsp = s.rsp := rfl
@[simp] theorem handOver_desc (s : State) : s.handOver.desc = s.desc := rfl
@[simp] theorem handOver_retained (s : State) : s.handOver.retained = retainedAfter s.params s.txn s.retained := rfl
@[simp] theorem handOver_platform (s : State) : s.handOver.platform = s.platform := rfl
@[simp] theorem handOver_trace (s : State) : s.handOver.trace = s.trace ++ [.txn s.txn none] := rfl
@[simp] theorem handOver_waiting (s : State) : s.handOver.waiting = s.waiting := rfl
@[simp] theorem handOver_frees (s : State) : s.handOver.frees = s.frees := rfl

/-! ### `answered` -/

@[simp] theorem answered_params (s : State) (r : List SubmitAnswer) (a : SubmitAnswer) : (s.answered r a).params = s.params := rfl
@[simp] theorem answered_cfg (s : State) (r : List SubmitAnswer) (a : SubmitAnswer) : (s.answered r a).cfg = s.cfg := rfl
@[simp] theorem answered_env (s : State) (r : List SubmitAnswer) (a : SubmitAnswer) : (s.answered r a).env = { s.env with submits := r } := rfl
@[simp] theorem answered_mode (s : State) (r : List SubmitAnswer) (a : SubmitAnswer) : (s.answered r a).mode = s.mode := rfl
@[simp] theorem answered_seq (s : State) (r : List SubmitAnswer) (a : SubmitAnswer) : (s.answered r a).seq = s.seq := rfl
@[simp] theorem answered_fault (s : State) (r : List SubmitAnswer) (a : SubmitAnswer) : (s.answered r a).fault = s.fault := rfl
@[simp] theorem answered_cs (s : State) (r : List SubmitAnswer) (a : SubmitAnswer) : (s.answered r a).cs = s.cs := rfl
@[simp] theorem answered_pins (s : State) (r : List SubmitAnswer) (a : SubmitAnswer) : (s.answered r a).pins = s.pins := rfl
@[simp] theorem answered_xfer (s : State) (r : List SubmitAnswer) (a : SubmitAnswer) : (s.answered r a).xfer = s.xfer := rfl
@[simp] theorem answered_busContext (s : State) (r : List SubmitAnswer) (a : SubmitAnswer) : (s.answered r a).busContext = s.busContext := rfl
@[simp] theorem answered_deviceHandle (s : State) (r : List SubmitAnswer) (a : SubmitAnswer) : (s.answered r a).deviceHandle = s.deviceHandle := rfl
@[simp] theorem answered_bufBase (s : State) (r : List SubmitAnswer) (a : SubmitAnswer) : (s.answered r a).bufBase = s.bufBase := rfl
@[simp] theorem answered_bufAllocated (s : State) (r : List SubmitAnswer) (a : SubmitAnswer) : (s.answered r a).bufAllocated = s.bufAllocated := rfl
@[simp] theorem answered_buf (s : State) (r : List SubmitAnswer) (a : SubmitAnswer) : (s.answered r a).buf = s.buf := rfl
@[simp] theorem answered_framing (s : State) (r : List SubmitAnswer) (a : SubmitAnswer) : (s.answered r a).framing = s.framing := rfl
@[simp] theorem answered_plan (s : State) (r : List SubmitAnswer) (a : SubmitAnswer) : (s.answered r a).plan = s.plan := rfl
@[simp] theorem answered_txn (s : State) (r : List SubmitAnswer) (a : SubmitAnswer) : (s.answered r a).txn = s.txn := rfl
@[simp] theorem answered_rsp (s : State) (r : List SubmitAnswer) (a : SubmitAnswer) : (s.answered r a).rsp = s.rsp := rfl
@[simp] theorem answered_desc (s : State) (r : List SubmitAnswer) (a : SubmitAnswer) : (s.answered r a).desc = s.desc := rfl
@[simp] theorem answered_retained (s : State) (r : List SubmitAnswer) (a : SubmitAnswer) : (s.answered r a).retained = s.retained := rfl
@[simp] theorem answered_platform (s : State) (r : List SubmitAnswer) (a : SubmitAnswer) : (s.answered r a).platform = s.platform := rfl
@[simp] theorem answered_trace (s : State) (r : List SubmitAnswer) (a : SubmitAnswer) : (s.answered r a).trace = s.trace.dropLast ++ [.txn s.txn (some a)] := rfl
@[simp] theorem answered_waiting (s : State) (r : List SubmitAnswer) (a : SubmitAnswer) : (s.answered r a).waiting = s.waiting := rfl
@[simp] theorem answered_frees (s : State) (r : List SubmitAnswer) (a : SubmitAnswer) : (s.answered r a).frees = s.frees := rfl

/-! ### `driverFailed` -/

@[simp] theorem driverFailed_params (s : State) : s.driverFailed.params = s.params := rfl
@[simp] theorem driverFailed_cfg (s : State) : s.driverFailed.cfg = s.cfg := rfl
@[simp] theorem driverFailed_env (s : State) : s.driverFailed.env = s.env := rfl
@[simp] theorem driverFailed_mode (s : State) : s.driverFailed.mode = s.mode := rfl
@[simp] theorem driverFailed_seq (s : State) : s.driverFailed.seq = s.seq := rfl
@[simp] theorem driverFailed_fault (s : State) : s.driverFailed.fault = s.fault := rfl
@[simp] theorem driverFailed_cs (s : State) : s.driverFailed.cs = s.cs := rfl
@[simp] theorem driverFailed_pins (s : State) : s.driverFailed.pins = s.pins := rfl
@[simp] theorem driverFailed_xfer (s : State) : s.driverFailed.xfer = s.xfer := rfl
@[simp] theorem driverFailed_busContext (s : State) : s.driverFailed.busContext = s.busContext := rfl
@[simp] theorem driverFailed_deviceHandle (s : State) : s.driverFailed.deviceHandle = s.deviceHandle := rfl
@[simp] theorem driverFailed_bufBase (s : State) : s.driverFailed.bufBase = s.bufBase := rfl
@[simp] theorem driverFailed_bufAllocated (s : State) : s.driverFailed.bufAllocated = s.bufAllocated := rfl
@[simp] theorem driverFailed_buf (s : State) : s.driverFailed.buf = s.buf := rfl
@[simp] theorem driverFailed_framing (s : State) : s.driverFailed.framing = s.framing := rfl
@[simp] theorem driverFailed_plan (s : State) : s.driverFailed.plan = s.plan := rfl
@[simp] theorem driverFailed_txn (s : State) : s.driverFailed.txn = s.txn := rfl
@[simp] theorem driverFailed_rsp (s : State) : s.driverFailed.rsp = s.rsp := rfl
@[simp] theorem driverFailed_desc (s : State) : s.driverFailed.desc = s.desc := rfl
@[simp] theorem driverFailed_retained (s : State) : s.driverFailed.retained = Config.retainedAfterErr s.frees := rfl
@[simp] theorem driverFailed_platform (s : State) : s.driverFailed.platform = s.platform := rfl
@[simp] theorem driverFailed_trace (s : State) : s.driverFailed.trace = s.trace := rfl
@[simp] theorem driverFailed_waiting (s : State) : s.driverFailed.waiting = s.waiting := rfl
@[simp] theorem driverFailed_frees (s : State) : s.driverFailed.frees = s.frees + 1 := rfl

end Sys2Proof.Machine.State
end

