-- ==== Sys2Proof/Laws/Ops.lean ====
section
/-! SUPPORT. One lemma for each shared operation that says once everything it can do; later proofs cite
these and do not unfold the operations. -/

namespace Sys2Proof.Machine

/-! ### The fault, status and cause codes -/

theorem FaultCode.code_pos (c : FaultCode) : c.code ≠ 0 := by cases c <;> decide

theorem FaultCode.code_le (c : FaultCode) : c.code.toNat ≤ 6 := by cases c <;> decide

theorem Status.code_ne_three (c : Status) : c.code ≠ 3 := by cases c <;> decide

/-! ### The two records -/

/-- `reuseFraming = 1 - isFirstInSequence` in a framed record (R47). -/
@[simp] theorem framedTxn_first (cv : Byte) (av : BitVec 24) (p : List Byte) :
    (framedTxn cv av p).isFirstInSequence = true := rfl
@[simp] theorem framedTxn_reuse (cv : Byte) (av : BitVec 24) (p : List Byte) :
    (framedTxn cv av p).reuseFraming = false := rfl
@[simp] theorem framedTxn_payload (cv : Byte) (av : BitVec 24) (p : List Byte) :
    (framedTxn cv av p).payload = p := rfl
@[simp] theorem continuationTxn_first (p : List Byte) :
    (continuationTxn p).isFirstInSequence = false := rfl
@[simp] theorem continuationTxn_reuse (p : List Byte) : (continuationTxn p).reuseFraming = true := rfl
@[simp] theorem continuationTxn_payload (p : List Byte) : (continuationTxn p).payload = p := rfl
@[simp] theorem chunkTxn_framed (p : List Byte) : chunkTxn .framed p = framedTxn opcData addrStream p := rfl
@[simp] theorem chunkTxn_continuation (p : List Byte) : chunkTxn .continuation p = continuationTxn p := rfl
@[simp] theorem chunkTxn_payload (f : Framing) (p : List Byte) : (chunkTxn f p).payload = p := by
  cases f <;> rfl

/-- `payloadBitLength = 8 * len` wherever that fits 32 bits (R110, R111; log 25). -/
theorem bitLength_toNat (n : Nat) (h : 8 * n < 2 ^ 32) : (bitLength n).toNat = 8 * n := by
  rw [bitLength, if_pos h, BitVec.toNat_ofNat, Nat.mod_eq_of_lt h]

/-! ### Addresses of `ADDR_W` bits (R8, R33, R38; log 15) -/

theorem setAddr_lt (p : Params) (b : Bank) : setAddr p b < 2 ^ p.addrW := by
  cases b <;> exact BitVec.isLt _

theorem clrAddr_lt (p : Params) (b : Bank) : clrAddr p b < 2 ^ p.addrW := by
  cases b <;> exact BitVec.isLt _

/-- The allocator's answer is an `ADDR_W`-bit address. -/
theorem State.allocAnswer_lt (s : State) (base : Nat) (h : s.allocAnswer = some base) :
    base < 2 ^ s.params.addrW := by
  obtain ⟨n, -, rfl⟩ := Option.map_eq_some_iff.mp h
  exact Nat.mod_lt _ (Nat.two_pow_pos _)

/-- PinBinding's addresses after the second step of `open` (R142). -/
theorem State.bindPins_widths (s : State) :
    s.bindPins.pins.csSetAddr < 2 ^ s.params.addrW ∧ s.bindPins.pins.csClrAddr < 2 ^ s.params.addrW :=
  ⟨setAddr_lt _ _, clrAddr_lt _ _⟩

/-! ### Chip select -/

/-- A select register write sets its mask's bits at the set register (R275). -/
theorem bankWrite_set (sa ca : Nat) (mask bank : Word) (h : sa ≠ ca) :
    bankWrite sa ca sa mask bank = bank ||| mask := by simp [bankWrite, h]

/-- It clears them at the clear register. -/
theorem bankWrite_clear (sa ca : Nat) (mask bank : Word) (h : sa ≠ ca) :
    bankWrite sa ca ca mask bank = bank &&& ~~~mask := by simp [bankWrite, h.symm]

/-- A write elsewhere leaves the bank alone. -/
theorem bankWrite_elsewhere (sa ca a : Nat) (mask bank : Word) (hs : a ≠ sa) (hc : a ≠ ca) :
    bankWrite sa ca a mask bank = bank := by simp [bankWrite, hs, hc]

/-- Writing the same mask to the same register twice does what writing it once does (R79). -/
theorem bankWrite_idem (sa ca a : Nat) (mask bank : Word) :
    bankWrite sa ca a mask (bankWrite sa ca a mask bank) = bankWrite sa ca a mask bank := by
  by_cases hs : a = sa
  · subst hs
    by_cases hc : a = ca
    · subst hc
      simp only [bankWrite, if_true]
      ext i hi
      simp only [BitVec.getElem_and, BitVec.getElem_or, BitVec.getElem_not]
      cases bank[i] <;> cases mask[i] <;> rfl
    · rw [bankWrite_set _ _ _ _ hc, bankWrite_set _ _ _ _ hc, BitVec.or_assoc, BitVec.or_self]
  · by_cases hc : a = ca
    · subst hc
      have h : sa ≠ a := fun e => hs e.symm
      rw [bankWrite_clear _ _ _ _ h, bankWrite_clear _ _ _ _ h, BitVec.and_assoc, BitVec.and_self]
    · rw [bankWrite_elsewhere _ _ _ _ _ hs hc]

/-- The select registers are read from PinBinding and the polarity alone (R150, R151). -/
theorem assertAddr_eq {s t : State} (hp : t.params = s.params) (hb : t.pins = s.pins) :
    t.assertAddr = s.assertAddr := by simp [State.assertAddr, hp, hb]

theorem deassertAddr_eq {s t : State} (hp : t.params = s.params) (hb : t.pins = s.pins) :
    t.deassertAddr = s.deassertAddr := by simp [State.deassertAddr, hp, hb]

/-! ### Submission -/

/-- `Submit(T)` with an Ok draw next. -/
theorem submit_ok {s : State} {rest : List SubmitAnswer} (h : s.env.submits = .ok :: rest) :
    s.submit = .ok { s with
      retained := retainedAfter s.params s.txn s.retained
      env := { s.env with submits := rest }
      trace := s.trace ++ [.txn s.txn (some .ok)] } := by
  simp [State.submit, h, State.emit]

/-- `Submit(T)` with an Err draw next. -/
theorem submit_err {s : State} {n : Nat} {rest : List SubmitAnswer} (h : s.env.submits = .err n :: rest) :
    s.submit = .err { s with
      retained := Config.retainedAfterErr s.frees
      frees := s.frees + 1
      env := { s.env with submits := rest }
      trace := s.trace ++ [.txn s.txn (some (.err n))] } := by
  simp [State.submit, h, State.emit]

/-- `Submit(T)` with no draw left: a hang (R263). -/
theorem submit_blocked {s : State} (h : s.env.submits = []) :
    s.submit = .blocked { s with
      retained := retainedAfter s.params s.txn s.retained
      waiting := .busDriver
      trace := s.trace ++ [.txn s.txn none] } := by
  simp [State.submit, h, State.emit]

/-- Everything `Submit(T)` can do. -/
theorem submit_cases (s : State) :
    (∃ rest, s.env.submits = .ok :: rest ∧ s.submit = .ok { s with
      retained := retainedAfter s.params s.txn s.retained
      env := { s.env with submits := rest }
      trace := s.trace ++ [.txn s.txn (some .ok)] }) ∨
    (∃ n rest, s.env.submits = .err n :: rest ∧ s.submit = .err { s with
      retained := Config.retainedAfterErr s.frees
      frees := s.frees + 1
      env := { s.env with submits := rest }
      trace := s.trace ++ [.txn s.txn (some (.err n))] }) ∨
    (s.env.submits = [] ∧ s.submit = .blocked { s with
      retained := retainedAfter s.params s.txn s.retained
      waiting := .busDriver
      trace := s.trace ++ [.txn s.txn none] }) := by
  match h : s.env.submits with
  | [] => exact .inr (.inr ⟨rfl, submit_blocked h⟩)
  | .ok :: rest => exact .inl ⟨rest, rfl, submit_ok h⟩
  | .err n :: rest => exact .inr (.inl ⟨n, rest, rfl, submit_err h⟩)

/-! ### Admission -/

theorem whenReady_ready {s : State} (h : s.mode = .ready) (run : State → State) :
    whenReady s run = .next (run s) := by simp [whenReady, h]

theorem whenReady_notReady {s : State} (h : s.mode ≠ .ready) (run : State → State) :
    whenReady s run = .next (s.raiseFault .notReady) := by simp [whenReady, h]

/-- Everything the source checks of R206 can answer on a non-empty range. -/
theorem sourceFault_cases (s : State) (aligned : Bool) (ptr : Word) (len : Nat) (h : len ≠ 0) :
    (aligned = true ∧ ptr.toNat % 2 = 1 ∧ s.sourceFault aligned ptr len = some .srcMisaligned) ∨
    ((aligned = true → ptr.toNat % 2 = 0) ∧ ptr.toNat < s.bufBase + capBytes s.params ∧
      s.bufBase < ptr.toNat + len ∧ s.sourceFault aligned ptr len = some .srcAlias) ∨
    ((aligned = true → ptr.toNat % 2 = 0) ∧
      (s.bufBase + capBytes s.params ≤ ptr.toNat ∨ ptr.toNat + len ≤ s.bufBase) ∧
      s.sourceFault aligned ptr len = none) := by
  have bit : ptr.getLsbD 0 = decide (ptr.toNat % 2 = 1) := by
    simp [BitVec.getLsbD, Nat.testBit_zero]
  unfold State.sourceFault
  rw [bit]
  by_cases ha : aligned = true ∧ ptr.toNat % 2 = 1
  · exact .inl ⟨ha.1, ha.2, by simp [h, ha.1, ha.2]⟩
  · have heven : aligned = true → ptr.toNat % 2 = 0 := fun e => by
      by_contra hc
      exact ha ⟨e, by omega⟩
    have hcond : ¬ ((aligned && decide (ptr.toNat % 2 = 1)) = true) := by simpa using ha
    rw [if_neg h, if_neg hcond]
    by_cases hb : ptr.toNat < s.bufBase + capBytes s.params ∧ s.bufBase < ptr.toNat + len
    · exact .inr (.inl ⟨heven, hb.1, hb.2, by rw [if_pos hb]⟩)
    · exact .inr (.inr ⟨heven, by omega, by rw [if_neg hb]⟩)

end Sys2Proof.Machine
end

