-- ==== Sys2Proof/Laws/PerInstr.lean ====
section
/-! SUPPORT. A statement about every request as syntax, proved one constructor at a time: its encoding's
header has every bit the opcode table fixes for its row (spec/30_encoding.md R104, R130). -/

namespace Sys2Proof.Laws.EncodesRow

/-- The encoding of a request lies in its row of the opcode table. -/
def Statement (i : Instr) : Prop := (opcodeRow i).covers (hdr (encode i)) = true

/-- A header lies in a row when its fields, masked, are the row's. -/
theorem covers_of_fields {value mask : Word} {op rsv op' rsv' : BitVec 4} {c c' : Byte} {v v' : Half}
    (hm : mask = hdrOf op' rsv' c' v') (hv : value = hdrOf (op &&& op') (rsv &&& rsv') (c &&& c') (v &&& v')) :
    (OpcodeRow.mk value mask).covers (hdrOf op rsv c v) = true := by
  rw [OpcodeRow.covers, hm, hv, hdrOf_and]
  exact beq_self_eq_true _

/-- A byte in a 16-bit field leaves the field's high byte 0. -/
theorem low_byte (b : Byte) : b.setWidth 16 &&& (0xFF00 : Half) = 0 := by
  apply BitVec.eq_of_getLsbD_eq
  intro i hi
  rw [BitVec.getLsbD_and]
  interval_cases i <;> simp

theorem openEngine : Statement .openEngine := by unfold Statement; decide

theorem writeCommand (c : Byte) : Statement (.writeCommand c) := by
  simp only [Statement, encode, hdr_descOf, opcodeRow]
  exact covers_of_fields (op' := 0xF) (rsv' := 0xF) (c' := 0) (v' := 0xFFFF) (by decide)
    (by simp; decide)

theorem writeCommand16 (w : Half) : Statement (.writeCommand16 w) := by
  simp only [Statement, encode, hdr_descOf, opcodeRow]
  exact covers_of_fields (op' := 0xF) (rsv' := 0xF) (c' := 0xFF) (v' := 0) (by decide)
    (by simp; decide)

theorem writeByte (b : Byte) : Statement (.writeByte b) := by
  simp only [Statement, encode, hdr_descOf, opcodeRow]
  exact covers_of_fields (op' := 0xF) (rsv' := 0xF) (c' := 0xFF) (v' := 0xFF00) (by decide)
    (by rw [low_byte]; simp; decide)

theorem writeWord (w : Half) : Statement (.writeWord w) := by
  simp only [Statement, encode, hdr_descOf, opcodeRow]
  exact covers_of_fields (op' := 0xF) (rsv' := 0xF) (c' := 0xFF) (v' := 0) (by decide)
    (by simp; decide)

theorem writeCommandWithBytes (c b : Byte) : Statement (.writeCommandWithBytes c b) := by
  simp only [Statement, encode, hdr_descOf, opcodeRow]
  exact covers_of_fields (op' := 0xF) (rsv' := 0xF) (c' := 0) (v' := 0xFF00) (by decide)
    (by rw [low_byte]; simp; decide)

theorem writeCommandWithWords (c : Byte) (w1 w2 : Half) : Statement (.writeCommandWithWords c w1 w2) := by
  simp only [Statement, encode, hdr_descOf, opcodeRow]
  exact covers_of_fields (op' := 0xF) (rsv' := 0xF) (c' := 0) (v' := 0) (by decide)
    (by simp; decide)

theorem writeRepeated (value : Half) (count : Word) : Statement (.writeRepeated value count) := by
  simp only [Statement, encode, hdr_descOf, opcodeRow]
  exact covers_of_fields (op' := 0xF) (rsv' := 0xF) (c' := 0xFF) (v' := 0) (by decide)
    (by simp; decide)

theorem writePixelStream (ptr count : Word) : Statement (.writePixelStream ptr count) := by
  simp only [Statement, encode, hdr_descOf, opcodeRow]
  exact covers_of_fields (op' := 0xF) (rsv' := 0xF) (c' := 0xFF) (v' := 0xFFFF) (by decide)
    (by simp; decide)

theorem writeByteStream (ptr count : Word) : Statement (.writeByteStream ptr count) := by
  simp only [Statement, encode, hdr_descOf, opcodeRow]
  exact covers_of_fields (op' := 0xF) (rsv' := 0xF) (c' := 0xFF) (v' := 0xFFFF) (by decide)
    (by simp; decide)

theorem writePattern (ptr patternLen repeatCount : Word) : Statement (.writePattern ptr patternLen repeatCount) := by
  simp only [Statement, encode, hdr_descOf, opcodeRow]
  exact covers_of_fields (op' := 0xF) (rsv' := 0xF) (c' := 0xFF) (v' := 0xFFFF) (by decide)
    (by simp; decide)

theorem reservedB (low : BitVec 28) : Statement (.reservedB low) := by
  simp only [Statement, encode, hdr_descOf, opcodeRow, OpcodeRow.covers, beq_iff_eq]
  apply BitVec.eq_of_getLsbD_eq
  intro i hi
  have e := BitVec.getLsbD_append (x := (0xB : BitVec 4)) (y := low) (i := i)
  rw [BitVec.getLsbD_and]
  refine (congrArg (· && _) e).trans ?_
  interval_cases i <;> simp

theorem reservedCtoF (low : BitVec 30) : Statement (.reservedCtoF low) := by
  simp only [Statement, encode, hdr_descOf, opcodeRow, OpcodeRow.covers, beq_iff_eq]
  apply BitVec.eq_of_getLsbD_eq
  intro i hi
  have e := BitVec.getLsbD_append (x := (0x3 : BitVec 2)) (y := low) (i := i)
  rw [BitVec.getLsbD_and]
  refine (congrArg (· && _) e).trans ?_
  interval_cases i <;> simp

end Sys2Proof.Laws.EncodesRow
end

