-- ==== Sys2Proof/Laws/Stream.lean ====
section
/-! SUPPORT. The lemmas of the chunk loop, the bracket and the pattern loop: what one iteration does, and
what a write operation never changes on its way to its response, however far it comes. -/

namespace Sys2Proof.Machine

/-! ### What a write leaves alone before its response -/

/-- The parts of the state that no fill, submission, chunk, bracket or repetition writes; the trace only
grows. -/
structure Kept (s t : State) : Prop where
  params : t.params = s.params
  cfg : t.cfg = s.cfg
  requests : t.env.requests = s.env.requests
  busInit : t.env.busInit = s.env.busInit
  alloc : t.env.alloc = s.env.alloc
  devReg : t.env.devReg = s.env.devReg
  mem : t.env.mem = s.env.mem
  mode : t.mode = s.mode
  seq : t.seq = s.seq
  fault : t.fault = s.fault
  pins : t.pins = s.pins
  xfer : t.xfer = s.xfer
  busContext : t.busContext = s.busContext
  deviceHandle : t.deviceHandle = s.deviceHandle
  bufBase : t.bufBase = s.bufBase
  bufAllocated : t.bufAllocated = s.bufAllocated
  rsp : t.rsp = s.rsp
  desc : t.desc = s.desc
  trace : ∃ events, t.trace = s.trace ++ events

theorem Kept.refl (s : State) : Kept s s := by
  constructor <;> first | rfl | exact ⟨[], by simp⟩

theorem Kept.trans {s t u : State} (h : Kept s t) (g : Kept t u) : Kept s u := by
  obtain ⟨e, he⟩ := h.trace
  obtain ⟨f, hf⟩ := g.trace
  exact ⟨g.params.trans h.params, g.cfg.trans h.cfg, g.requests.trans h.requests,
    g.busInit.trans h.busInit, g.alloc.trans h.alloc, g.devReg.trans h.devReg, g.mem.trans h.mem,
    g.mode.trans h.mode, g.seq.trans h.seq, g.fault.trans h.fault, g.pins.trans h.pins,
    g.xfer.trans h.xfer, g.busContext.trans h.busContext, g.deviceHandle.trans h.deviceHandle,
    g.bufBase.trans h.bufBase, g.bufAllocated.trans h.bufAllocated, g.rsp.trans h.rsp,
    g.desc.trans h.desc, ⟨e ++ f, by rw [hf, he, List.append_assoc]⟩⟩

theorem kept_deassertSelect (s : State) : Kept s s.deassertSelect := by
  constructor <;> first | rfl | exact ⟨[.regWrite s.deassertAddr s.pins.csMask, .cs .deasserted], by simp⟩

theorem kept_enterBracket (s : State) : Kept s s.enterBracket := by
  constructor <;> first | rfl | exact ⟨[.regWrite s.assertAddr s.pins.csMask, .cs .asserted], by simp⟩

theorem kept_submit (s : State) : Kept s s.submit.state := by
  rcases submit_cases s with ⟨rest, -, h⟩ | ⟨n, rest, -, h⟩ | ⟨-, h⟩ <;> rw [h]
  · constructor <;> first | rfl | exact ⟨_, rfl⟩
  · constructor <;> first | rfl | exact ⟨_, rfl⟩
  · constructor <;> first | rfl | exact ⟨_, rfl⟩

theorem kept_setChunk (f : Fill) (s : State) : Kept s (s.setChunk f) := by
  constructor <;> first | rfl | exact ⟨[], by simp [State.setChunk]⟩

theorem kept_loadChunk (f : Fill) (n : Nat) (s : State) : Kept s (s.loadChunk f n) := by
  constructor <;> first | rfl | exact ⟨[], by simp [State.loadChunk]⟩

theorem kept_chunkDone (s : State) : Kept s s.chunkDone := by
  constructor <;> first | rfl | exact ⟨[], by simp [State.chunkDone]⟩

theorem kept_fillRepeated (s : State) (v : Half) (n : Word) : Kept s (s.fillRepeated v n) := by
  constructor <;> first | rfl | exact ⟨[], by simp [State.fillRepeated]⟩

theorem kept_setSource (s : State) (ptr : Word) : Kept s (s.setSource ptr) := by
  constructor <;> first | rfl | exact ⟨[], by simp [State.setSource]⟩

theorem kept_repetitionDone (s : State) : Kept s s.repetitionDone := by
  constructor <;> first | rfl | exact ⟨[], by simp [State.repetitionDone]⟩

/-! ### Fills -/

/-- A source fill whose reads are all admitted (R221, R231). -/
theorem fromSource_ok {f : Fill} {s : State} {n : Nat} (h : (f.sourceBytes s n).length = n * f.elemBytes) :
    Fill.fromSource f s n = .ok { s with
      buf := overwrite s.buf (f.sourceBytes s n)
      plan := { s.plan with srcAddr := s.plan.srcAddr + n * f.elemBytes } } := by
  simp [Fill.fromSource, h]

/-- A source fill that meets a read that is not admitted (R267). -/
theorem fromSource_blocked {f : Fill} {s : State} {n : Nat}
    (h : (f.sourceBytes s n).length ≠ n * f.elemBytes) :
    Fill.fromSource f s n = .blocked { s with
      buf := overwrite s.buf (f.sourceBytes s n)
      waiting := .hostMemory } := by
  simp [Fill.fromSource, h]

theorem kept_fromSource (f : Fill) (s : State) (n : Nat) : Kept s (Fill.fromSource f s n).state := by
  by_cases h : (f.sourceBytes s n).length = n * f.elemBytes
  · rw [fromSource_ok h]
    constructor <;> first | rfl | exact ⟨[], by simp [Run.state]⟩
  · rw [fromSource_blocked h]
    constructor <;> first | rfl | exact ⟨[], by simp [Run.state]⟩

theorem kept_fill (f : Fill) (s : State) (n : Nat) : Kept s (f.run s n).state := by
  cases f
  · exact Kept.refl s
  · exact kept_fromSource .pixel s n
  · exact kept_fromSource .byte s n

/-- A fill never answers Err: its reads have no failure outcome (R72). -/
theorem fill_ne_err (f : Fill) (s t : State) (n : Nat) : f.run s n ≠ .err t := by
  cases f
  · simp [Fill.run]
  all_goals
    simp only [Fill.run, Fill.fromSource]
    split <;> simp

/-- What a source fill writes has at most the chunk's size. -/
theorem sourceBytes_length_le (f : Fill) (s : State) (n : Nat) :
    (f.sourceBytes s n).length ≤ n * f.elemBytes := by
  cases f
  · simp [Fill.sourceBytes]
  · have := s.env.mem.wordsFrom_length_le s.params.addrW s.plan.srcAddr n
    simp only [Fill.sourceBytes, wordsLE_length, List.length_map, Fill.elemBytes]
    omega
  · have := s.env.mem.bytesFrom_length_le s.params.addrW s.plan.srcAddr n
    simpa [Fill.sourceBytes, Fill.elemBytes] using this

/-! ### The chunk loop -/

/-- The chunk of an iteration holds at least one element and at most what remains and what fits (R205). -/
theorem setChunk_bounds (f : Fill) (s : State) (h : s.plan.remaining ≠ 0) :
    (s.setChunk f).plan.chunk.toNat = min s.plan.remaining.toNat (f.capElems s.params) ∧
      1 ≤ (s.setChunk f).plan.chunk.toNat ∧
      (s.setChunk f).plan.chunk.toNat ≤ s.plan.remaining.toNat := by
  have hr : s.plan.remaining.toNat ≠ 0 := fun e => h (by
    apply BitVec.eq_of_toNat_eq; simpa using e)
  have hlt : s.plan.remaining.toNat < 2 ^ 32 := s.plan.remaining.isLt
  have hcap : 1 ≤ f.capElems s.params := by
    have := s.params.cap.property.1
    cases f <;> simp only [Fill.capElems, capWords, capBytes] <;> omega
  have key : (s.setChunk f).plan.chunk.toNat = min s.plan.remaining.toNat (f.capElems s.params) := by
    simp only [State.setChunk, BitVec.toNat_ofNat]
    exact Nat.mod_eq_of_lt (by omega)
  exact ⟨key, by omega, by omega⟩

theorem streamLoop_zero (f : Fill) (bound : Nat) (s : State) (h : s.plan.remaining = 0) :
    streamLoop f bound s = .ok s := by
  cases bound with
  | zero => rfl
  | succ n => simp [streamLoop, h]

/-- One iteration whose submission answers Ok (R200). -/
theorem streamLoop_ok {f : Fill} {bound : Nat} {s filled answered : State} (h : s.plan.remaining ≠ 0)
    (hf : f.run (s.setChunk f) (s.setChunk f).plan.chunk.toNat = .ok filled)
    (hs : (filled.loadChunk f filled.plan.chunk.toNat).submit = .ok answered) :
    streamLoop f (bound + 1) s = streamLoop f bound answered.chunkDone := by
  simp only [streamLoop, if_neg h, hf, hs]

/-- One iteration whose submission answers Err (R207). -/
theorem streamLoop_err {f : Fill} {bound : Nat} {s filled answered : State} (h : s.plan.remaining ≠ 0)
    (hf : f.run (s.setChunk f) (s.setChunk f).plan.chunk.toNat = .ok filled)
    (hs : (filled.loadChunk f filled.plan.chunk.toNat).submit = .err answered) :
    streamLoop f (bound + 1) s = .err answered := by
  simp only [streamLoop, if_neg h, hf, hs]

/-- One iteration whose submission is never answered (R263). -/
theorem streamLoop_hang {f : Fill} {bound : Nat} {s filled waiting : State} (h : s.plan.remaining ≠ 0)
    (hf : f.run (s.setChunk f) (s.setChunk f).plan.chunk.toNat = .ok filled)
    (hs : (filled.loadChunk f filled.plan.chunk.toNat).submit = .blocked waiting) :
    streamLoop f (bound + 1) s = .blocked waiting := by
  simp only [streamLoop, if_neg h, hf, hs]

/-- One iteration that meets a read that is not admitted. -/
theorem streamLoop_stuck {f : Fill} {bound : Nat} {s stuck : State} (h : s.plan.remaining ≠ 0)
    (hf : f.run (s.setChunk f) (s.setChunk f).plan.chunk.toNat = .blocked stuck) :
    streamLoop f (bound + 1) s = .blocked stuck := by
  simp only [streamLoop, if_neg h, hf]

theorem kept_streamLoop (f : Fill) (bound : Nat) (s : State) : Kept s (streamLoop f bound s).state := by
  induction bound generalizing s with
  | zero => exact Kept.refl s
  | succ bound ih =>
    by_cases h : s.plan.remaining = 0
    · rw [streamLoop_zero f _ s h]; exact Kept.refl s
    · have hfill := (kept_setChunk f s).trans (kept_fill f (s.setChunk f) (s.setChunk f).plan.chunk.toNat)
      cases hf : f.run (s.setChunk f) (s.setChunk f).plan.chunk.toNat with
      | err filled => exact absurd hf (fill_ne_err f _ _ _)
      | blocked stuck => rw [streamLoop_stuck h hf]; rw [hf] at hfill; exact hfill
      | ok filled =>
        rw [hf] at hfill
        have hsub := (hfill.trans (kept_loadChunk f filled.plan.chunk.toNat filled)).trans
          (kept_submit (filled.loadChunk f filled.plan.chunk.toNat))
        cases hs : (filled.loadChunk f filled.plan.chunk.toNat).submit with
        | ok answered =>
          rw [streamLoop_ok h hf hs]; rw [hs] at hsub
          exact (hsub.trans (kept_chunkDone answered)).trans (ih _)
        | err answered => rw [streamLoop_err h hf hs]; rw [hs] at hsub; exact hsub
        | blocked waiting => rw [streamLoop_hang h hf hs]; rw [hs] at hsub; exact hsub

/-! ### Bodies, brackets and repetitions -/

theorem kept_stream (f : Fill) (total : Word) (s : State) : Kept s (stream f total s).state := by
  refine Kept.trans ?_ (kept_streamLoop f total.toNat { s with plan := { s.plan with remaining := total } })
  constructor <;> first | rfl | exact ⟨[], by simp⟩

theorem kept_body (b : Body) (s : State) : Kept s (b.run s).state := by
  cases b with
  | repeated value count => exact (kept_fillRepeated s value count).trans (kept_stream _ _ _)
  | pixels ptr count => exact (kept_setSource s ptr).trans (kept_stream _ _ _)
  | bytes ptr count => exact (kept_setSource s ptr).trans (kept_stream _ _ _)
  | single cv av payload =>
    have hload : Kept s { s with txn := framedTxn cv av payload } := by
      constructor <;> first | rfl | exact ⟨[], by simp⟩
    have h := hload.trans (kept_submit { s with txn := framedTxn cv av payload })
    simp only [Body.run]
    cases hs : State.submit { s with txn := framedTxn cv av payload } with
    | ok answered =>
      rw [hs] at h
      refine h.trans ?_
      constructor <;> first | rfl | exact ⟨[], by simp [Run.state, State.singleDone]⟩
    | err answered => rw [hs] at h; exact h
    | blocked waiting => rw [hs] at h; exact h

theorem kept_bracket (b : Body) (s : State) : Kept s (bracket b s).state := by
  have h := (kept_enterBracket s).trans (kept_body b s.enterBracket)
  simp only [bracket]
  cases hs : b.run s.enterBracket with
  | ok ended => rw [hs] at h; exact h.trans (kept_deassertSelect ended)
  | err ended => rw [hs] at h; exact h.trans (kept_deassertSelect ended)
  | blocked waiting => rw [hs] at h; exact h

theorem kept_patternLoop (ptr len : Word) (left : Nat) (s : State) :
    Kept s (patternLoop ptr len left s).state := by
  induction left generalizing s with
  | zero => exact Kept.refl s
  | succ left ih =>
    have h := kept_bracket (.bytes ptr len) s
    simp only [patternLoop]
    cases hs : bracket (.bytes ptr len) s with
    | ok ended => rw [hs] at h; exact (h.trans (kept_repetitionDone ended)).trans (ih _)
    | err ended => rw [hs] at h; exact h
    | blocked waiting => rw [hs] at h; exact h

/-- A write operation of one bracket ends in one of three ways: the OK response, the TRANSPORT_ERROR
response, or no response (R157, R263, R267). -/
theorem finishWrite_cases (r : Run) :
    (∃ s, r = .ok s ∧ finishWrite r = s.respond .ok 0 0) ∨
    (∃ s, r = .err s ∧ finishWrite r = s.respond .transportError s.plan.txDone 0) ∨
    (∃ s, r = .blocked s ∧ finishWrite r = s) := by
  cases r with
  | ok s => exact .inl ⟨s, rfl, rfl⟩
  | err s => exact .inr (.inl ⟨s, rfl, rfl⟩)
  | blocked s => exact .inr (.inr ⟨s, rfl, rfl⟩)

/-- So does `writePattern` (R235). -/
theorem finishPattern_cases (r : Run) :
    (∃ s, r = .ok s ∧ finishPattern r = s.respond .ok 0 s.plan.repDone) ∨
    (∃ s, r = .err s ∧ finishPattern r = s.respond .transportError s.plan.txDone s.plan.repDone) ∨
    (∃ s, r = .blocked s ∧ finishPattern r = s) := by
  cases r with
  | ok s => exact .inl ⟨s, rfl, rfl⟩
  | err s => exact .inr (.inl ⟨s, rfl, rfl⟩)
  | blocked s => exact .inr (.inr ⟨s, rfl, rfl⟩)

end Sys2Proof.Machine
end

