-- ==== Sys2Proof/Tests/Slice0.lean ====
section
/-! SUPPORT. The model's own tests. Expected values are the spec's: its worked examples (X) and derived
vectors (V) of spec/95_test_vectors.md, and words written out from the encoding tables of
spec/30_encoding.md R101, R104. Then one witness for each statement that has hypotheses. -/

namespace Sys2Proof.Tests

open Sys2Proof.Machine Sys2Proof.Statements

/-! ### Well-formedness: an ill-formed request for each check -/

theorem test_illFormed_pixelStream : (Instr.writePixelStream 0x100 1).WellFormed 8 = false := by decide
theorem test_illFormed_byteStream : (Instr.writeByteStream 0x100 1).WellFormed 8 = false := by decide
theorem test_illFormed_pattern : (Instr.writePattern 0x100 1 1).WellFormed 8 = false := by decide
theorem test_wellFormed_lastPointer : (Instr.writeByteStream 0xFF 1).WellFormed 8 = true := by decide

/-! ### Decoding: a written-out word for each row (V20 to V29f), and each refusal -/

theorem test_decode_open : decode 32 (descOf 0x00000000 0 0 0) = .request .openEngine := by decide
theorem test_decode_writeCommand : decode 32 (descOf 0x10290000 0 0 0) = .request (.writeCommand 0x29) := by
  decide
theorem test_decode_writeCommand16 :
    decode 32 (descOf 0x20001234 0 0 0) = .request (.writeCommand16 0x1234) := by decide
theorem test_decode_writeByte : decode 32 (descOf 0x30000055 0 0 0) = .request (.writeByte 0x55) := by decide
theorem test_decode_writeWord : decode 32 (descOf 0x4000F800 0 0 0) = .request (.writeWord 0xF800) := by decide
theorem test_decode_writeCommandWithBytes :
    decode 32 (descOf 0x503A0055 0 0 0) = .request (.writeCommandWithBytes 0x3A 0x55) := by decide
theorem test_decode_writeCommandWithWords :
    decode 32 (descOf 0x602A1234 0x013F 0 0) = .request (.writeCommandWithWords 0x2A 0x1234 0x013F) := by decide
theorem test_decode_writeRepeated :
    decode 32 (descOf 0x7000F800 5 0xDEADBEEF 7) = .request (.writeRepeated 0xF800 5) := by decide
theorem test_decode_writePixelStream :
    decode 32 (descOf 0x80000000 5 0x20000000 9) = .request (.writePixelStream 0x20000000 5) := by decide
theorem test_decode_writeByteStream :
    decode 32 (descOf 0x90000000 4 0x3FC7FFFC 9) = .request (.writeByteStream 0x3FC7FFFC 4) := by decide
theorem test_decode_writePattern :
    decode 32 (descOf 0xA0000000 3 0x20000100 2) = .request (.writePattern 0x20000100 3 2) := by decide
theorem test_decode_reservedB : decode 32 (descOf 0xB0000000 0 0 0) = .request (.reservedB 0) := by decide
theorem test_decode_reservedCtoF :
    decode 32 (descOf 0xC0000000 0 0 0) = .request (.reservedCtoF 0) ∧
    decode 32 (descOf 0xD0000000 0 0 0) = .request (.reservedCtoF 0x10000000) ∧
    decode 32 (descOf 0xF0000000 0 0 0) = .request (.reservedCtoF 0x30000000) := by decide
theorem test_decode_refused :
    decode 32 (descOf 0x00000001 0 0 0) = .rejected .unusedHeaderBits ∧
    decode 32 (descOf 0x01000000 0 0 0) = .rejected .reservedField ∧
    decode 32 (descOf 0x10290001 0 0 0) = .rejected .unusedHeaderBits ∧
    decode 32 (descOf 0x20011234 0 0 0) = .rejected .unusedHeaderBits ∧
    decode 32 (descOf 0x30000155 0 0 0) = .rejected .unusedHeaderBits ∧
    decode 32 (descOf 0x50360100 0 0 0) = .rejected .unusedHeaderBits ∧
    decode 32 (descOf 0x602A0000 0x0001013F 0 0) = .rejected .arg1HighHalf ∧
    decode 32 (descOf 0x7001F800 5 0 0) = .rejected .unusedHeaderBits ∧
    decode 32 (descOf 0x80000001 0 0 0) = .rejected .unusedHeaderBits ∧
    decode 8 (descOf 0x90000000 1 0x100 0) = .rejected .pointerTooWide := by decide

/-! ### The Byte-Order Normalizer (V3, V5, V9) and the assembler (R130) -/

theorem test_normalize : Machine.normalize 0x00FF = 0xFF00 ∧ Machine.normalize 0xF800 = 0x00F8 ∧
    Machine.normalize 0x8001 = 0x0180 := by decide
theorem test_assemble : assembleLine "writeRepeated 0xF800, 5 ; fill".toList
    = .request (descOf 0x7000F800 5 0 0) := by decide
theorem test_assemble_tooWide : assembleLine "writeByte 0x100".toList = .error := by decide

/-! ### Small states -/

/-- The parameters of spec/95_test_vectors.md's configurations, with register addresses picked here. -/
def testParams (cap : Capacity) : Params where
  cap := cap
  addrW := 32
  bankThreshold := 32
  setLow := 0x100
  clrLow := 0x104
  setHigh := 0x108
  clrHigh := 0x10C
  numPins := 49
  csActiveLow := true
  defaultClock := 1000
  defaultSpiMode := 3
  queueDepth := ⟨1, by decide⟩
  busFlags := 0
  lanes := Config.recommendedLanes

/-- Configuration K1 right after reset, with the chip-select pin `cs`. -/
def unopened (cs : Byte) : State :=
  { State.reset with
    params := testParams ⟨1, by decide⟩
    cfg := { cs := cs, sck := 12, d0 := 11, d1 := 13, d2 := 14, d3 := 9, clock := -1, mode := -1 } }

/-- Configuration K1 or K2 after `open` with pin 10 (V50), performing a request, the buffer holding `buf`. -/
def opened (cap : Capacity) (buf : List Byte) (draws : List SubmitAnswer) (mem : Memory) : State :=
  { State.reset with
    params := testParams cap
    env := { Env.reset with submits := draws, mem := mem }
    mode := .ready
    seq := .busy
    cs := .deasserted
    pins := { PinBinding.reset with csPin := 10, csMask := 0x400, csSetAddr := 0x100, csClrAddr := 0x104 }
    busContext := some 0
    deviceHandle := some 0
    bufBase := 0x3FC80000
    bufAllocated := true
    buf := buf
    trace := [.cs .deasserted] }

/-- K1 with its two-byte buffer. -/
def k1 (draws : List SubmitAnswer) (mem : Memory) : State := opened ⟨1, by decide⟩ [0, 0] draws mem

/-- K2 with its four-byte buffer. -/
def k2 (draws : List SubmitAnswer) (mem : Memory) : State := opened ⟨2, by decide⟩ [0, 0, 0, 0] draws mem

/-- The state a meaning answers, where it answers one. -/
def after (i : Instr) (s : State) : Option State :=
  match exec i s with
  | .next t => some t
  | .fault _ => none
  | .refused _ => none

/-- The events a request adds after those of `s`. -/
def events (i : Instr) (s : State) : Option (List Event) := (after i s).map fun t => t.trace.drop s.trace.length

/-- `CS+` for pin 10 in bank LOW, active low. -/
def csUp : List Event := [.regWrite 0x104 0x400, .cs .asserted]

/-- `CS-` for pin 10. -/
def csDown : List Event := [.regWrite 0x100 0x400, .cs .deasserted]

/-- `TXN(F(cv, av, p)) -> a` in the spec's shorthand, with the bit length written in. -/
def framedEvent (cv : Half) (av : Word) (p : List Byte) (len : Word) (a : Option SubmitAnswer) : Event :=
  .txn { commandBits := 8, commandValue := cv, addressBits := 24, addressValue := av, dummyBits := 0,
         payload := p, payloadBitLength := len, isFirstInSequence := true, reuseFraming := false } a

/-- `TXN(C(p)) -> a`. -/
def continuationEvent (p : List Byte) (len : Word) (a : Option SubmitAnswer) : Event :=
  .txn { commandBits := 0, commandValue := 0, addressBits := 0, addressValue := 0, dummyBits := 0,
         payload := p, payloadBitLength := len, isFirstInSequence := false, reuseFraming := true } a

/-- The bytes `AA BB CC` of X2 and X8. -/
def memABC : Memory := [(0x20000100, 0xAA), (0x20000101, 0xBB), (0x20000102, 0xCC)]

/-- The bytes of V76. -/
def memPixels : Memory :=
  [(0x20000000, 0x00), (0x20000001, 0xF8), (0x20000002, 0xE0), (0x20000003, 0x07), (0x20000004, 0x1F),
    (0x20000005, 0x00)]

/-! ### One step of each instruction -/

/-- V57: a pin of bank HIGH. -/
theorem test_open_high : (events .openEngine (unopened 40)).map (·.take 3)
    = some [.pinCfg 40, .regWrite 0x108 0x100, .cs .deasserted] := by decide

/-- V51. -/
theorem test_open_negativePin : events .openEngine (unopened (-1)) = some [.rsp 1 1 0] := by decide

/-- V30. -/
theorem test_writeCommand : events (.writeCommand 0x29) (k1 [.ok] [])
    = some (csUp ++ [framedEvent 0x02 0x002900 [] 0 (some .ok)] ++ csDown ++ [.rsp 0 0 0]) := by decide

/-- V33. -/
theorem test_writeCommand16 : events (.writeCommand16 0x1234) (k1 [.ok] [])
    = some (csUp ++ [framedEvent 0x02 0x001234 [] 0 (some .ok)] ++ csDown ++ [.rsp 0 0 0]) := by decide

/-- V36. -/
theorem test_writeByte : events (.writeByte 0x55) (k1 [.ok] [])
    = some (csUp ++ [framedEvent 0x32 0x002C00 [0x55] 8 (some .ok)] ++ csDown ++ [.rsp 0 0 0]) := by decide

/-- V45: no answer. -/
theorem test_writeByte_hang : events (.writeByte 0x55) (k1 [] [])
    = some (csUp ++ [framedEvent 0x32 0x002C00 [0x55] 8 none]) := by decide

/-- V39. -/
theorem test_writeWord : events (.writeWord 0x00FF) (k1 [.ok] [])
    = some (csUp ++ [framedEvent 0x32 0x002C00 [0x00, 0xFF] 16 (some .ok)] ++ csDown ++ [.rsp 0 0 0]) := by
  decide

/-- V44: an Err. -/
theorem test_writeWord_error : events (.writeWord 0x1234) (k1 [.err 3] [])
    = some (csUp ++ [framedEvent 0x32 0x002C00 [0x12, 0x34] 16 (some (.err 3))] ++ csDown ++ [.rsp 2 0 0]) := by
  decide

/-- V41. -/
theorem test_writeCommandWithBytes : events (.writeCommandWithBytes 0x3A 0x55) (k1 [.ok] [])
    = some (csUp ++ [framedEvent 0x02 0x003A00 [0x55] 8 (some .ok)] ++ csDown ++ [.rsp 0 0 0]) := by decide

/-- V42. -/
theorem test_writeCommandWithWords : events (.writeCommandWithWords 0x2A 0x0000 0x013F) (k1 [.ok] [])
    = some (csUp ++ [framedEvent 0x02 0x002A00 [0x00, 0x00, 0x01, 0x3F] 32 (some .ok)] ++ csDown
        ++ [.rsp 0 0 0]) := by decide

/-- V70. -/
theorem test_writeRepeated : events (.writeRepeated 0x1234 5) (k2 [.ok, .ok, .ok] [])
    = some (csUp ++ [framedEvent 0x32 0x003C00 [0x12, 0x34, 0x12, 0x34] 32 (some .ok),
        continuationEvent [0x12, 0x34, 0x12, 0x34] 32 (some .ok),
        continuationEvent [0x12, 0x34] 16 (some .ok)] ++ csDown ++ [.rsp 0 0 0]) := by decide

/-- V75: the end state after an Err on the first submission. -/
theorem test_writeRepeated_error :
    (after (.writeRepeated 0x1234 5) (k2 [.err 0] [])).map (fun t => (t.plan.remaining, t.plan.txDone, t.framing))
      = some (5, 0, .framed) := by decide

/-- V76. -/
theorem test_writePixelStream : events (.writePixelStream 0x20000000 3) (k2 [.ok, .ok] memPixels)
    = some (csUp ++ [framedEvent 0x32 0x003C00 [0xF8, 0x00, 0x07, 0xE0] 32 (some .ok),
        continuationEvent [0x00, 0x1F] 16 (some .ok)] ++ csDown ++ [.rsp 0 0 0]) := by decide

/-- V76: the buffer's words and the source address at the end. -/
theorem test_writePixelStream_buffer :
    (after (.writePixelStream 0x20000000 3) (k2 [.ok, .ok] memPixels)).map
        (fun t => (t.bufWord 0, t.bufWord 1, t.plan.srcAddr))
      = some (some 0x1F00, some 0xE007, 0x20000006) := by decide

/-- X2. -/
theorem test_writeByteStream : events (.writeByteStream 0x20000100 3) (k1 [.ok, .ok] memABC)
    = some (csUp ++ [framedEvent 0x32 0x003C00 [0xAA, 0xBB] 16 (some .ok),
        continuationEvent [0xCC] 8 (some .ok)] ++ csDown ++ [.rsp 0 0 0]) := by decide

/-- V79, in configuration K1: the last byte of the buffer. -/
theorem test_writeByteStream_alias : events (.writeByteStream 0x3FC80001 1) (k1 [] []) = some [.fault 6] := by
  decide

/-- X8. -/
theorem test_writePattern : events (.writePattern 0x20000100 3 2) (k1 [.ok, .ok, .ok, .ok] memABC)
    = some (csUp ++ [framedEvent 0x32 0x003C00 [0xAA, 0xBB] 16 (some .ok), continuationEvent [0xCC] 8 (some .ok)]
        ++ csDown ++ csUp ++ [framedEvent 0x32 0x003C00 [0xAA, 0xBB] 16 (some .ok),
        continuationEvent [0xCC] 8 (some .ok)] ++ csDown ++ [.rsp 0 0 2]) := by decide

/-- V86: an empty pattern. -/
theorem test_writePattern_empty : events (.writePattern 0x3FC80000 0 4) (k1 [] []) = some [.rsp 0 0 4] := by
  decide

/-- V29e: the reserved rows. -/
theorem test_reserved : events (.reservedB 0) (k1 [] []) = some [.fault 1] ∧
    events (.reservedCtoF 0) (k1 [] []) = some [.fault 1] := by decide

/-- How the runs of V45, V77 and V90 stand (R60). -/
theorem test_runStatus :
    (after (.writeByte 0x55) (k1 [] [])).map State.runStatus = some .hang ∧
    (after (.writePixelStream 0x20000001 1) (k2 [] [])).map State.runStatus = some .faulted ∧
    (after (.writeByteStream 0xFFFFFFFF 2) (k1 [] [(0xFFFFFFFF, 0x11)])).map State.runStatus = some .stuck := by
  decide

/-! ### Witnesses: a state and operands that meet a statement's hypotheses together -/

/-- A state with requests on its port, between requests. -/
def idleWith (s : State) (requests : List Desc) : State :=
  { s with seq := .idle, env := { s.env with requests := requests } }

theorem witness_DecodeEncodeGivesTheRequestBack :
    (Instr.writePattern 0xFFFFFFFF 3 2).WellFormed 32 = true ∧
    (Instr.writeByteStream 0xFF 3).WellFormed 8 = true := by decide

theorem witness_EncodeGivesTheUsedWordsBack :
    decode 8 (descOf 0x80000000 5 0xFF 9) = .request (.writePixelStream 0xFF 5) := by decide

theorem witness_DecodedHeaderLiesInItsRow :
    decode 32 (descOf 0xF2345678 5 6 7) = .request (.reservedCtoF 0x32345678) := by decide

theorem witness_OpcodeRowsAreDisjoint :
    (opcodeRow (.writeByte 1)).covers 0x30000055 = true ∧ (opcodeRow (.writeByte 2)).covers 0x30000055 = true := by
  decide

theorem witness_HeaderOutsideEveryRowIsRejected :
    ∀ i : Instr, (opcodeRow i).covers (hdr (descOf 0x01000000 0 0 0)) = false := by
  intro i
  cases i <;> simp only [opcodeRow] <;> decide

theorem witness_StepPerformsTheDecodedRequest :
    let s := idleWith (k1 [.ok] []) [descOf 0x30000055 0 0 0]
    s.seq = .idle ∧ s.env.requests = descOf 0x30000055 0 0 0 :: [] ∧
      decode s.params.addrW (descOf 0x30000055 0 0 0) = .request (.writeByte 0x55) := by decide

theorem witness_RefusedDescriptorRaisesIllegalRequest :
    let s := idleWith (unopened 10) [descOf 0x01000000 0 0 0]
    s.seq = .idle ∧ s.env.requests = descOf 0x01000000 0 0 0 :: [] ∧
      decode s.params.addrW (descOf 0x01000000 0 0 0) = .rejected .reservedField := by decide

theorem witness_IdleStepOnlyEndsTheResponsePulse :
    State.reset.seq = .idle ∧ State.reset.env.requests = [] := by decide

theorem witness_NoStepWhenHaltedHungOrStuck :
    (unopened 10 |>.raiseFault .badPin).seq = .halted ∧
    (after (.writeByte 0x55) (k1 [] [])).map (fun t => (t.seq, t.waiting)) = some (.busy, .busDriver) ∧
    (after (.writeByteStream 0x20000100 4) (k1 [.ok] memABC)).map (fun t => (t.seq, t.waiting))
      = some (.busy, .hostMemory) := by decide

theorem witness_WriteOutsideReadyTakesNotReady :
    isWrite (.writePixelStream 0x20000001 1) = true ∧ (unopened 10).mode ≠ .ready := by decide

theorem witness_SecondOpenTakesReopen : (k1 [] []).mode ≠ .uninit := by decide

theorem witness_OpenValidatesTheChipSelectPin :
    ((unopened (-1)).mode = .uninit ∧ (unopened (-1)).cfg.cs.toInt < 0) ∧
    ((unopened (-128)).mode = .uninit ∧ (unopened (-128)).cfg.cs.toInt < 0) ∧
    ((unopened 49).mode = .uninit ∧ 0 ≤ (unopened 49).cfg.cs.toInt ∧
      (unopened 49).params.numPins ≤ (unopened 49).cfg.cs.toNat) := by decide

/-- K1 with another bank threshold. -/
def withThreshold (cs : Byte) (threshold : Nat) : State :=
  { unopened cs with params := { testParams ⟨1, by decide⟩ with bankThreshold := threshold } }

theorem witness_OpenRefusesAPinBeyondItsBank :
    ((withThreshold 32 40).mode = .uninit ∧ 0 ≤ (withThreshold 32 40).cfg.cs.toInt ∧
      (withThreshold 32 40).cfg.cs.toNat < (withThreshold 32 40).params.numPins ∧
      (withThreshold 32 40).cfg.cs.toNat < (withThreshold 32 40).params.bankThreshold ∧
      32 ≤ (withThreshold 32 40).cfg.cs.toNat) ∧
    ((withThreshold 40 8).mode = .uninit ∧ 0 ≤ (withThreshold 40 8).cfg.cs.toInt ∧
      (withThreshold 40 8).cfg.cs.toNat < (withThreshold 40 8).params.numPins ∧
      (withThreshold 40 8).params.bankThreshold ≤ (withThreshold 40 8).cfg.cs.toNat ∧
      32 ≤ (withThreshold 40 8).cfg.cs.toNat - (withThreshold 40 8).params.bankThreshold) := by decide

/-- The first and the last pin of bank LOW and the first of bank HIGH. -/
theorem witness_OpenBindsAndBecomesReady :
    GoodPin (unopened 0) .low 0 ∧ GoodPin (unopened 31) .low 31 ∧ GoodPin (unopened 32) .high 0 ∧
    (unopened 32).env.busInit = some 0 ∧ (unopened 32).env.alloc = some 0 ∧
    (unopened 32).env.devReg = some 0 := by
  refine ⟨⟨by decide, by decide, by decide, by decide, .inl (by decide)⟩,
    ⟨by decide, by decide, by decide, by decide, .inl (by decide)⟩,
    ⟨by decide, by decide, by decide, by decide, .inr (by decide)⟩, rfl, rfl, rfl⟩

/-- K1 with the three draws of `open`. -/
def drawing (busInit alloc devReg : Option Nat) : State :=
  { unopened 10 with env := { Env.reset with busInit := busInit, alloc := alloc, devReg := devReg } }

theorem witness_OpenStopsAtTheFirstFailedCall :
    (GoodPin (drawing none none none) .low 10 ∧ (drawing none none none).env.busInit = none) ∧
    (GoodPin (drawing (some 1) none none) .low 10 ∧ (drawing (some 1) none none).env.busInit = some 1 ∧
      (drawing (some 1) none none).env.alloc = none) ∧
    (GoodPin (drawing (some 1) (some 2) none) .low 10 ∧ (drawing (some 1) (some 2) none).env.busInit = some 1 ∧
      (drawing (some 1) (some 2) none).env.alloc = some 2 ∧
      (drawing (some 1) (some 2) none).env.devReg = none) := by
  refine ⟨⟨⟨by decide, by decide, by decide, by decide, .inl (by decide)⟩, rfl⟩,
    ⟨⟨by decide, by decide, by decide, by decide, .inl (by decide)⟩, rfl, rfl⟩,
    ⟨⟨by decide, by decide, by decide, by decide, .inl (by decide)⟩, rfl, rfl, rfl⟩⟩

/-- An allocator's number beyond `ADDR_W` bits is read modulo `2^ADDR_W` (R38; log 15). -/
theorem test_open_allocWidth :
    (after .openEngine (drawing (some 1) (some 0x1FFFFFFFF) none)).map (·.bufBase) = some 0xFFFFFFFF := by decide

theorem witness_SingleShotSendsItsOneTransaction :
    (∀ i ∈ [Instr.writeCommand 0x29, .writeCommand16 0x1234, .writeByte 0x55, .writeWord 0xF800,
        .writeCommandWithBytes 0x3A 0x55, .writeCommandWithWords 0x2A 0 0x013F],
      (singleShotOf i).isSome = true) ∧
    singleShotOf (.writeByte 0x55) = some (0x0032, 0x2C00, [0x55]) ∧ (k1 [.ok] []).mode = .ready ∧
    (k1 [.ok] []).env.submits = .ok :: [] := by decide

theorem witness_SingleShotReportsATransportError :
    singleShotOf (.writeCommand 0x29) = some (0x0002, 0x2900, []) ∧ (k1 [.err 7] []).mode = .ready ∧
    (k1 [.err 7] []).env.submits = .err 7 :: [] := by decide

theorem witness_SingleShotHangsWithoutAnAnswer :
    singleShotOf (.writeWord 0xF800) = some (0x0032, 0x2C00, [0xF8, 0x00]) ∧ (k1 [] []).mode = .ready ∧
    (k1 [] []).env.submits = [] := by decide

theorem witness_EmptyStreamOnlyResponds :
    (k1 [] []).mode = .ready ∧ ((0 : Word) = 0 ∨ (4 : Word) = 0) ∧ ((3 : Word) = 0 ∨ (0 : Word) = 0) := by decide

theorem witness_OddPixelSourceTakesMisaligned :
    (k1 [] []).mode = .ready ∧ (1 : Word) ≠ 0 ∧ (0x3FC80001 : Word).toNat % 2 = 1 := by decide

/-- The last byte before the buffer with two bytes, the buffer's last word, and its last byte. -/
theorem witness_SourceOverTheBufferTakesAlias :
    let s := k1 [] []
    s.mode = .ready ∧ (1 : Word) ≠ 0 ∧ (2 : Word) ≠ 0 ∧
    ((0x3FC80000 : Word).toNat % 2 = 0 ∧ (0x3FC80000 : Word).toNat < s.bufBase + 2 * s.params.cap.val ∧
      s.bufBase < (0x3FC80000 : Word).toNat + 2 * (1 : Word).toNat) ∧
    ((0x3FC7FFFF : Word).toNat < s.bufBase + 2 * s.params.cap.val ∧
      s.bufBase < (0x3FC7FFFF : Word).toNat + (2 : Word).toNat) ∧
    ((0x3FC80001 : Word).toNat < s.bufBase + 2 * s.params.cap.val ∧
      s.bufBase < (0x3FC80001 : Word).toNat + (1 : Word).toNat) := by decide

theorem streams_repeated (draws : List SubmitAnswer) :
    Streams (.writeRepeated 0x1234 5) (k2 draws []) [0x12, 0x34, 0x12, 0x34, 0x12, 0x34, 0x12, 0x34, 0x12, 0x34] :=
  have h : Streams (.writeRepeated 0x1234 5) (k2 [] [])
      [0x12, 0x34, 0x12, 0x34, 0x12, 0x34, 0x12, 0x34, 0x12, 0x34] := ⟨by decide, by decide⟩
  h

theorem streams_pixels (draws : List SubmitAnswer) :
    Streams (.writePixelStream 0x20000000 3) (k2 draws memPixels) [0xF8, 0x00, 0x07, 0xE0, 0x00, 0x1F] :=
  have h : Streams (.writePixelStream 0x20000000 3) (k2 [] memPixels) [0xF8, 0x00, 0x07, 0xE0, 0x00, 0x1F] :=
    ⟨by decide, by decide, .inr (by decide), by decide, by decide⟩
  h

theorem streams_bytes (draws : List SubmitAnswer) :
    Streams (.writeByteStream 0x20000100 3) (k1 draws memABC) [0xAA, 0xBB, 0xCC] :=
  have h : Streams (.writeByteStream 0x20000100 3) (k1 [] memABC) [0xAA, 0xBB, 0xCC] :=
    ⟨by decide, .inr (by decide), by decide, by decide⟩
  h

/-- All Ok: three chunks, two chunks, two chunks. -/
theorem witness_StreamSendsItsBytesInChunks :
    (∃ bytes, Streams (.writeRepeated 0x1234 5) (k2 (oks 3) []) bytes ∧
      (k2 (oks 3) []).env.submits = oks (transactions (.writeRepeated 0x1234 5) (k2 (oks 3) [])) ++ []) ∧
    (∃ bytes, Streams (.writePixelStream 0x20000000 3) (k2 (oks 2) memPixels) bytes ∧
      (k2 (oks 2) memPixels).env.submits
        = oks (transactions (.writePixelStream 0x20000000 3) (k2 (oks 2) memPixels)) ++ []) ∧
    (∃ bytes, Streams (.writeByteStream 0x20000100 3) (k1 (oks 2) memABC) bytes ∧
      (k1 (oks 2) memABC).env.submits
        = oks (transactions (.writeByteStream 0x20000100 3) (k1 (oks 2) memABC)) ++ []) ∧
    (k1 (oks 2) memABC).mode = .ready ∧ (k2 (oks 3) []).mode = .ready :=
  ⟨⟨_, streams_repeated _, by decide⟩, ⟨_, streams_pixels _, by decide⟩, ⟨_, streams_bytes _, by decide⟩,
    rfl, rfl⟩

/-- Two pixels of a fourth whose source is not admitted: the first chunk of K2. -/
theorem streamsUpTo_pixels (draws : List SubmitAnswer) :
    StreamsUpTo (.writePixelStream 0x20000000 4) (k2 draws memPixels)
      (elementsThrough (.writePixelStream 0x20000000 4) (k2 draws memPixels) 0) [0xF8, 0x00, 0x07, 0xE0] :=
  have h : StreamsUpTo (.writePixelStream 0x20000000 4) (k2 [] memPixels)
      (elementsThrough (.writePixelStream 0x20000000 4) (k2 [] memPixels) 0) [0xF8, 0x00, 0x07, 0xE0] :=
    ⟨by decide, by decide, .inr (by decide), by decide, by decide⟩
  h

/-- Two bytes of five whose fourth is not admitted: the first chunk of K1. -/
theorem streamsUpTo_bytes (draws : List SubmitAnswer) :
    StreamsUpTo (.writeByteStream 0x20000100 5) (k1 draws memABC)
      (elementsThrough (.writeByteStream 0x20000100 5) (k1 draws memABC) 0) [0xAA, 0xBB] :=
  have h : StreamsUpTo (.writeByteStream 0x20000100 5) (k1 [] memABC)
      (elementsThrough (.writeByteStream 0x20000100 5) (k1 [] memABC) 0) [0xAA, 0xBB] :=
    ⟨by decide, .inr (by decide), by decide, by decide⟩
  h

/-- The whole of three bytes: the second and last chunk of K1. -/
theorem streamsUpTo_lastBytes (draws : List SubmitAnswer) :
    StreamsUpTo (.writeByteStream 0x20000100 3) (k1 draws memABC)
      (elementsThrough (.writeByteStream 0x20000100 3) (k1 draws memABC) 1) [0xAA, 0xBB, 0xCC] :=
  streams_bytes draws

/-- An Err at a middle submission, at the last, and before source elements that are not admitted. -/
theorem witness_StreamStopsAtTheFirstFailedChunk :
    (∃ bytes, (k2 [.ok, .err 9] []).mode = .ready ∧
      1 < transactions (.writeRepeated 0x1234 5) (k2 [.ok, .err 9] []) ∧
      StreamsUpTo (.writeRepeated 0x1234 5) (k2 [.ok, .err 9] [])
        (elementsThrough (.writeRepeated 0x1234 5) (k2 [.ok, .err 9] []) 1) bytes ∧
      (k2 [.ok, .err 9] []).env.submits = oks 1 ++ .err 9 :: []) ∧
    (∃ bytes, 0 < transactions (.writePixelStream 0x20000000 4) (k2 [.err 9] memPixels) ∧
      StreamsUpTo (.writePixelStream 0x20000000 4) (k2 [.err 9] memPixels)
        (elementsThrough (.writePixelStream 0x20000000 4) (k2 [.err 9] memPixels) 0) bytes ∧
      (k2 [.err 9] memPixels).env.submits = oks 0 ++ .err 9 :: [] ∧
      (k2 [.err 9] memPixels).env.mem.read16 32 0x20000006 = none) ∧
    (∃ bytes, 0 < transactions (.writeByteStream 0x20000100 5) (k1 [.err 0] memABC) ∧
      StreamsUpTo (.writeByteStream 0x20000100 5) (k1 [.err 0] memABC)
        (elementsThrough (.writeByteStream 0x20000100 5) (k1 [.err 0] memABC) 0) bytes ∧
      (k1 [.err 0] memABC).env.submits = oks 0 ++ .err 0 :: [] ∧
      (k1 [.err 0] memABC).env.mem.read8 32 0x20000103 = none) ∧
    (∃ bytes, 1 < transactions (.writeByteStream 0x20000100 3) (k1 [.ok, .err 0] memABC) ∧
      StreamsUpTo (.writeByteStream 0x20000100 3) (k1 [.ok, .err 0] memABC)
        (elementsThrough (.writeByteStream 0x20000100 3) (k1 [.ok, .err 0] memABC) 1) bytes ∧
      (k1 [.ok, .err 0] memABC).env.submits = oks 1 ++ .err 0 :: []) :=
  ⟨⟨_, rfl, by decide, ⟨by decide, rfl⟩, by decide⟩, ⟨_, by decide, streamsUpTo_pixels _, by decide, by decide⟩,
    ⟨_, by decide, streamsUpTo_bytes _, by decide, by decide⟩,
    ⟨_, by decide, streamsUpTo_lastBytes _, by decide⟩⟩

/-- A hang at the first submission, and before source elements that are not admitted. -/
theorem witness_StreamHangsWithoutAnAnswer :
    (∃ bytes, (k2 [] []).mode = .ready ∧ 0 < transactions (.writeRepeated 0x1234 5) (k2 [] []) ∧
      StreamsUpTo (.writeRepeated 0x1234 5) (k2 [] [])
        (elementsThrough (.writeRepeated 0x1234 5) (k2 [] []) 0) bytes ∧
      (k2 [] []).env.submits = oks 0) ∧
    (∃ bytes, 0 < transactions (.writePixelStream 0x20000000 4) (k2 [] memPixels) ∧
      StreamsUpTo (.writePixelStream 0x20000000 4) (k2 [] memPixels)
        (elementsThrough (.writePixelStream 0x20000000 4) (k2 [] memPixels) 0) bytes ∧
      (k2 [] memPixels).env.submits = oks 0) ∧
    (∃ bytes, 1 < transactions (.writeByteStream 0x20000100 3) (k1 [.ok] memABC) ∧
      StreamsUpTo (.writeByteStream 0x20000100 3) (k1 [.ok] memABC)
        (elementsThrough (.writeByteStream 0x20000100 3) (k1 [.ok] memABC) 1) bytes ∧
      (k1 [.ok] memABC).env.submits = oks 1) :=
  ⟨⟨_, rfl, by decide, ⟨by decide, rfl⟩, by decide⟩, ⟨_, by decide, streamsUpTo_pixels _, by decide⟩,
    ⟨_, by decide, streamsUpTo_lastBytes _, by decide⟩⟩

/-- V90: the last byte of the address space is admitted and the next is not; and an unlisted byte. -/
theorem witness_ByteStreamSticksAtAnUnadmittedRead :
    (let s := k1 [] [(0xFFFFFFFF, 0x11)]
     s.mode = .ready ∧ SourceAdmitted s 0xFFFFFFFF (2 : Word).toNat ∧ [(0x11 : Byte)].length < (2 : Word).toNat ∧
      SourceBytes s 0xFFFFFFFF [0x11] ∧
      s.env.mem.read8 s.params.addrW ((0xFFFFFFFF : Word).toNat + 1) = none ∧
      0 = 1 / capBytes s.params ∧ s.env.submits = oks 0 ++ []) ∧
    (let s := k1 [.ok] memABC
     s.mode = .ready ∧ SourceAdmitted s 0x20000100 (4 : Word).toNat ∧
      [(0xAA : Byte), 0xBB, 0xCC].length < (4 : Word).toNat ∧ SourceBytes s 0x20000100 [0xAA, 0xBB, 0xCC] ∧
      s.env.mem.read8 s.params.addrW ((0x20000100 : Word).toNat + 3) = none ∧
      1 = 3 / capBytes s.params ∧ s.env.submits = oks 1 ++ []) :=
  ⟨⟨rfl, .inl (by decide), by decide, by unfold SourceBytes; decide, by decide, by decide, by decide⟩,
    ⟨rfl, .inr (by decide), by decide, by unfold SourceBytes; decide, by decide, by decide, by decide⟩⟩

theorem witness_PixelStreamSticksAtAnUnadmittedRead :
    let s := k2 [.ok] memPixels
    s.mode = .ready ∧ (0x20000000 : Word).toNat % 2 = 0 ∧ SourceAdmitted s 0x20000000 (2 * (5 : Word).toNat) ∧
      3 < (5 : Word).toNat ∧ [(0xF8 : Byte), 0x00, 0x07, 0xE0, 0x00, 0x1F].length = 2 * 3 ∧
      (∀ k < 3, [(0xF8 : Byte), 0x00, 0x07, 0xE0, 0x00, 0x1F][2 * k + 1]?
          = s.env.mem.read8 s.params.addrW ((0x20000000 : Word).toNat + 2 * k) ∧
        [(0xF8 : Byte), 0x00, 0x07, 0xE0, 0x00, 0x1F][2 * k]?
          = s.env.mem.read8 s.params.addrW ((0x20000000 : Word).toNat + 2 * k + 1)) ∧
      s.env.mem.read16 s.params.addrW ((0x20000000 : Word).toNat + 2 * 3) = none ∧
      1 = 3 / s.params.cap.val ∧ s.env.submits = oks 1 ++ [] :=
  ⟨rfl, by decide, .inr (by decide), by decide, by decide, by decide, by decide, by decide, by decide⟩

theorem witness_PatternRepeatsWholeBrackets :
    let s := k1 (oks 4) memABC
    s.mode = .ready ∧ (3 : Word) ≠ 0 ∧ (2 : Word) ≠ 0 ∧ SourceAdmitted s 0x20000100 (3 : Word).toNat ∧
      [(0xAA : Byte), 0xBB, 0xCC].length = (3 : Word).toNat ∧ SourceBytes s 0x20000100 [0xAA, 0xBB, 0xCC] ∧
      s.env.submits = oks ((2 : Word).toNat * ceilDiv (3 : Word).toNat (capBytes s.params)) ++ [] :=
  ⟨rfl, by decide, by decide, .inr (by decide), by decide, by unfold SourceBytes; decide, by decide⟩

/-- V84: the second repetition fails at its second submission; and the first repetition fails before a
pattern byte that is not admitted. -/
theorem witness_PatternStopsAtTheFirstError :
    (let s := k1 [.ok, .ok, .ok, .err 5] memABC
     s.mode = .ready ∧ (3 : Word) ≠ 0 ∧ 1 < (3 : Word).toNat ∧ SourceAdmitted s 0x20000100 (3 : Word).toNat ∧
      [(0xAA : Byte), 0xBB, 0xCC].length = patternThrough s 3 1 1 ∧ SourceBytes s 0x20000100 [0xAA, 0xBB, 0xCC] ∧
      1 < ceilDiv (3 : Word).toNat (capBytes s.params) ∧
      s.env.submits = oks (1 * ceilDiv (3 : Word).toNat (capBytes s.params) + 1) ++ .err 5 :: []) ∧
    (let s := k1 [.err 5] memABC
     s.mode = .ready ∧ (5 : Word) ≠ 0 ∧ 0 < (3 : Word).toNat ∧ SourceAdmitted s 0x20000100 (5 : Word).toNat ∧
      [(0xAA : Byte), 0xBB].length = patternThrough s 5 0 0 ∧ SourceBytes s 0x20000100 [0xAA, 0xBB] ∧
      0 < ceilDiv (5 : Word).toNat (capBytes s.params) ∧
      s.env.submits = oks (0 * ceilDiv (5 : Word).toNat (capBytes s.params) + 0) ++ .err 5 :: []) :=
  ⟨⟨rfl, by decide, by decide, .inr (by decide), by decide, by unfold SourceBytes; decide, by decide, by decide⟩,
    ⟨rfl, by decide, by decide, .inr (by decide), by decide, by unfold SourceBytes; decide, by decide, by decide⟩⟩

/-- The first repetition hangs before a pattern byte that is not admitted; and the second hangs. -/
theorem witness_PatternHangsWithoutAnAnswer :
    (let s := k1 [] memABC
     s.mode = .ready ∧ (5 : Word) ≠ 0 ∧ 0 < (3 : Word).toNat ∧ SourceAdmitted s 0x20000100 (5 : Word).toNat ∧
      [(0xAA : Byte), 0xBB].length = patternThrough s 5 0 0 ∧ SourceBytes s 0x20000100 [0xAA, 0xBB] ∧
      0 < ceilDiv (5 : Word).toNat (capBytes s.params) ∧
      s.env.submits = oks (0 * ceilDiv (5 : Word).toNat (capBytes s.params) + 0)) ∧
    (let s := k1 (oks 3) memABC
     s.mode = .ready ∧ (3 : Word) ≠ 0 ∧ 1 < (3 : Word).toNat ∧ SourceAdmitted s 0x20000100 (3 : Word).toNat ∧
      [(0xAA : Byte), 0xBB, 0xCC].length = patternThrough s 3 1 1 ∧ SourceBytes s 0x20000100 [0xAA, 0xBB, 0xCC] ∧
      1 < ceilDiv (3 : Word).toNat (capBytes s.params) ∧
      s.env.submits = oks (1 * ceilDiv (3 : Word).toNat (capBytes s.params) + 1)) :=
  ⟨⟨rfl, by decide, by decide, .inr (by decide), by decide, by unfold SourceBytes; decide, by decide, by decide⟩,
    ⟨rfl, by decide, by decide, .inr (by decide), by decide, by unfold SourceBytes; decide, by decide, by decide⟩⟩

theorem witness_PatternSticksAtAnUnadmittedRead :
    let s := k1 [.ok] memABC
    s.mode = .ready ∧ (2 : Word) ≠ 0 ∧ SourceAdmitted s 0x20000100 (4 : Word).toNat ∧
      [(0xAA : Byte), 0xBB, 0xCC].length < (4 : Word).toNat ∧ SourceBytes s 0x20000100 [0xAA, 0xBB, 0xCC] ∧
      s.env.mem.read8 s.params.addrW ((0x20000100 : Word).toNat + 3) = none ∧
      1 = 3 / capBytes s.params ∧ s.env.submits = oks 1 ++ [] :=
  ⟨rfl, by decide, .inr (by decide), by decide, by unfold SourceBytes; decide, by decide, by decide, by decide⟩

theorem witness_UnspecifiedResetValuesAreNeverRead : (unopened 10).mode = .uninit := by decide

theorem witness_NormalizeIsAPermutationOfWires : 0 < 16 ∧ 15 < 16 := by decide

/-- An admitted word, and the last address of the space with the first beyond it. -/
theorem witness_MemoryReadsAreLittleEndianAndBounded :
    Memory.read16 memABC 32 0x20000100 = some 0xBBAA ∧ 2 ^ 32 ≤ 0x100000000 ∧ 2 ^ 32 ≤ 0xFFFFFFFF + 1 := by decide

theorem witness_FramedBitsFollowTheLayout :
    0 < 8 ∧ 7 < 8 ∧ 23 < 24 ∧ [(0xAA : Byte), 0xBB][1]? = some 0xBB := by decide

theorem witness_SelectRegistersAreWriteOne :
    let p := testParams ⟨1, by decide⟩
    [p.setLow, p.clrLow, p.setHigh, p.clrHigh].Nodup := by decide

/-- K1 in mode READY, between requests, meets the invariant, whatever draws and requests stand ready. -/
theorem opened_inv (draws : List SubmitAnswer) (requests : List Desc) :
    (idleWith (k1 draws []) requests).Inv :=
  have h : (idleWith (k1 [] []) []).Inv :=
    { protocol := by decide
      level := by decide
      released := by decide
      undriven := by decide
      halted := by decide
      faultCode := by decide
      status := by decide
      ready := fun _ => ⟨⟨by decide, by decide, by decide, by decide, ⟨10, by decide, by decide⟩, by decide,
        by decide⟩, by decide⟩
      widths := by decide
      memory := by decide }
  ⟨h.protocol, h.level, h.released, h.undriven, h.halted, h.faultCode, h.status, h.ready, h.widths, h.memory⟩

/-- With `writeByte 0x55` on the port, its step answers a next state. -/
theorem opened_step : ∃ t, step (idleWith (k1 [.ok] []) [descOf 0x30000055 0 0 0]) = .next t ∧
    t.seq = .idle ∧ t.mode = .ready := ⟨_, rfl, by decide, by decide⟩

theorem witness_EveryStepKeepsTheInvariant :
    ∃ s t : State, s.Inv ∧ step s = .next t :=
  ⟨_, opened_step.choose, opened_inv _ _, opened_step.choose_spec.1⟩

theorem witness_BindingIsImmutableAfterOpen :
    ∃ s t : State, step s = .next t ∧ s.mode ≠ .uninit :=
  ⟨idleWith (k1 [.ok] []) [descOf 0x30000055 0 0 0], _, rfl, by decide⟩

theorem witness_NoStepWritesHostMemory : ∃ s t : State, step s = .next t ∧ s.env.mem ≠ [] :=
  ⟨idleWith (k1 [.ok, .ok] memABC) [descOf 0x90000000 3 0x20000100 0], _, rfl, by decide⟩

/-- A framed record and a continuation. -/
theorem witness_SubmittedRecordsObeyTheRecordRules : ∃ s t : State, step s = .next t ∧
    framedEvent 0x32 0x003C00 [0xAA, 0xBB] 16 (some .ok) ∈ t.trace ∧ continuationEvent [0xCC] 8 (some .ok) ∈ t.trace :=
  ⟨idleWith (k1 [.ok, .ok] memABC) [descOf 0x90000000 3 0x20000100 0], _, rfl, by decide, by decide⟩

theorem witness_FaultsPrecedeEveryExternalEffect :
    ∃ s t : State, step s = .next t ∧ t.seq = .halted ∧ s.Inv :=
  ⟨idleWith (k1 [] []) [descOf 0x00000000 0 0 0], _, rfl, by decide, opened_inv _ _⟩

/-- A request that is answered and one that hangs. -/
theorem witness_OneResponsePerCompletedRequest :
    (∃ s t : State, s.env.requests ≠ [] ∧ step s = .next t ∧ t.seq = .idle) ∧
    (∃ s t : State, s.env.requests ≠ [] ∧ step s = .next t ∧ t.seq ≠ .idle) :=
  ⟨⟨idleWith (k1 [.ok] []) [descOf 0x30000055 0 0 0], _, by decide, rfl, by decide⟩,
    ⟨idleWith (k1 [] []) [descOf 0x30000055 0 0 0], _, by decide, rfl, by decide⟩⟩

/-- No bracket, one bracket, two brackets. -/
theorem witness_CompletedWritesReleaseChipSelect :
    (∃ t, isWrite (.writeRepeated 0 0) = true ∧ exec (.writeRepeated 0 0) (k1 [] []) = .next t ∧
      t.seq = .idle ∧ (k1 [] []).seq = .busy) ∧
    (∃ t, isWrite (.writeByte 0x55) = true ∧ exec (.writeByte 0x55) (k1 [.err 1] []) = .next t ∧
      t.seq = .idle ∧ (k1 [.err 1] []).seq = .busy) ∧
    (∃ t, isWrite (.writePattern 0x20000100 2 2) = true ∧
      exec (.writePattern 0x20000100 2 2) (k1 (oks 2) memABC) = .next t ∧ t.seq = .idle ∧
      (k1 (oks 2) memABC).seq = .busy) :=
  ⟨⟨_, by decide, rfl, by decide, by decide⟩, ⟨_, by decide, rfl, by decide, by decide⟩,
    ⟨_, by decide, rfl, by decide, by decide⟩⟩

/-- A tick of each kind: an event, a chip-select primitive, an answer, a source read, no event at all. -/
theorem witness_EachTickIsOneEvent :
    (∃ m', tick ⟨unopened 10, .begin .openEngine⟩ = some m') ∧
    (∃ m', tick ⟨k1 [.ok] [], .begin (.writeByte 0x55)⟩ = some m') ∧
    (∃ m', tick ⟨k1 [.ok] [], .answer (.once (.single 0x32 0x002C00 [0x55]))⟩ = some m') ∧
    (∃ m', (tick ⟨k1 [.ok] memABC, .begin (.writeByteStream 0x20000100 2)⟩).bind tick = some m') ∧
    (∃ m', tick ⟨k1 [] [], .done⟩ = some m') :=
  ⟨⟨_, rfl⟩, ⟨_, rfl⟩, ⟨_, rfl⟩, ⟨_, rfl⟩, ⟨_, rfl⟩⟩

/-- A response, and the tick after it. -/
theorem witness_IdleFollowsTheResponse :
    (∃ m', tick ⟨k1 [] [], .begin (.writeRepeated 0 0)⟩ = some m' ∧ (k1 [] []).seq = .busy ∧
      m'.st.trace = (k1 [] []).trace ++ [.rsp 0 0 0]) ∧
    (∃ m', tick ⟨k1 [] [], .done⟩ = some m' ∧ (k1 [] []).seq = .busy) :=
  ⟨⟨_, rfl, rfl, by decide⟩, ⟨_, rfl, rfl⟩⟩

theorem witness_UnusedOperandWordsAreIgnored :
    (Instr.writePixelStream 0xFF 5).WellFormed 8 = true ∧ (Instr.writeCommand 0x29).WellFormed 8 = true := by
  decide

theorem witness_StepIsARunOfTicks :
    ∃ s t : State, s.seq = .idle ∧ s.env.requests ≠ [] ∧ step s = .next t :=
  ⟨idleWith (k1 [.ok] []) [descOf 0x30000055 0 0 0], _, by decide, by decide, rfl⟩

end Sys2Proof.Tests
end

section
/-! PROOFS. What a request or a step can do to the state, said once: a request other than an `open` in
UNINIT ends in a fault, a response or a wait, with everything of `Kept` as it was before. Then O46. -/

namespace Sys2Proof.Machine

/-! ### How a request ends -/

/-- How a request that is no `open` in UNINIT ends: with a model fault (R266), with a response (R157,
R235), or waiting for ever (R263, R267); before the response it changed nothing of `Kept`. -/
inductive RequestEnd (s : State) : State → Prop
  | faulted (c : FaultCode) : RequestEnd s (s.raiseFault c)
  | answered {u : State} (kept : Kept s u) (st : Status) (i0 i1 : Word) : RequestEnd s (u.respond st i0 i1)
  | waits {u : State} (kept : Kept s u) : RequestEnd s u

theorem requestEnd_finishWrite {s : State} {r : Run} (h : Kept s r.state) : RequestEnd s (finishWrite r) := by
  rcases finishWrite_cases r with ⟨u, rfl, e⟩ | ⟨u, rfl, e⟩ | ⟨u, rfl, e⟩ <;> rw [e]
  · exact .answered h _ _ _
  · exact .answered h _ _ _
  · exact .waits h

theorem requestEnd_finishPattern {s : State} {r : Run} (h : Kept s r.state) :
    RequestEnd s (finishPattern r) := by
  rcases finishPattern_cases r with ⟨u, rfl, e⟩ | ⟨u, rfl, e⟩ | ⟨u, rfl, e⟩ <;> rw [e]
  · exact .answered h _ _ _
  · exact .answered h _ _ _
  · exact .waits h

theorem requestEnd_whenReady {s t : State} {run : State → State} (hrun : RequestEnd s (run s))
    (h : whenReady s run = .next t) : RequestEnd s t := by
  by_cases hm : s.mode = .ready
  · rw [whenReady_ready hm] at h; cases h; exact hrun
  · rw [whenReady_notReady hm] at h; cases h; exact .faulted _

theorem requestEnd_singleShot {s t : State} {cv : Byte} {av : BitVec 24} {p : List Byte}
    (h : singleShot cv av p s = .next t) : RequestEnd s t :=
  requestEnd_whenReady (requestEnd_finishWrite (kept_bracket _ s)) h

theorem requestEnd_writeRepeated {s t : State} {value : Half} {count : Word}
    (h : execWriteRepeated value count s = .next t) : RequestEnd s t := by
  refine requestEnd_whenReady ?_ h
  split
  · exact .answered (Kept.refl s) _ _ _
  · exact requestEnd_finishWrite (kept_bracket _ s)

theorem requestEnd_writePixelStream {s t : State} {ptr count : Word}
    (h : execWritePixelStream ptr count s = .next t) : RequestEnd s t := by
  refine requestEnd_whenReady ?_ h
  split
  · exact .answered (Kept.refl s) _ _ _
  · split
    · exact .faulted _
    · exact requestEnd_finishWrite (kept_bracket _ s)

theorem requestEnd_writeByteStream {s t : State} {ptr count : Word}
    (h : execWriteByteStream ptr count s = .next t) : RequestEnd s t := by
  refine requestEnd_whenReady ?_ h
  split
  · exact .answered (Kept.refl s) _ _ _
  · split
    · exact .faulted _
    · exact requestEnd_finishWrite (kept_bracket _ s)

theorem kept_clearRepDone (s : State) : Kept s { s with plan := { s.plan with repDone := 0 } } := by
  constructor <;> simp

theorem requestEnd_writePattern {s t : State} {ptr len reps : Word}
    (h : execWritePattern ptr len reps s = .next t) : RequestEnd s t := by
  refine requestEnd_whenReady ?_ h
  split
  · exact .answered (Kept.refl s) _ _ _
  · split
    · exact .faulted _
    · exact requestEnd_finishPattern ((kept_clearRepDone s).trans (kept_patternLoop _ _ _ _))

theorem requestEnd_refuseRequest {s t : State} (h : refuseRequest s = .next t) : RequestEnd s t := by
  cases h; exact .faulted _

/-- A second `open` is the fault REOPEN (R265, R291). -/
theorem execOpen_reopen {s : State} (h : s.mode ≠ .uninit) : execOpen s = .next (s.raiseFault .reopen) :=
  if_pos h

/-- Everything a request can do: be the `open` of an UNINIT engine, or end in one of the three ways. -/
theorem exec_cases {i : Instr} {s t : State} (h : exec i s = .next t) :
    (s.mode = .uninit ∧ execOpen s = .next t) ∨ RequestEnd s t := by
  cases i with
  | openEngine =>
    by_cases hm : s.mode = .uninit
    · exact .inl ⟨hm, h⟩
    · cases (execOpen_reopen hm).symm.trans h; exact .inr (.faulted _)
  | writeCommand c => exact .inr (requestEnd_singleShot h)
  | writeCommand16 w => exact .inr (requestEnd_singleShot h)
  | writeByte b => exact .inr (requestEnd_singleShot h)
  | writeWord w => exact .inr (requestEnd_singleShot h)
  | writeCommandWithBytes c b => exact .inr (requestEnd_singleShot h)
  | writeCommandWithWords c w1 w2 => exact .inr (requestEnd_singleShot h)
  | writeRepeated value count => exact .inr (requestEnd_writeRepeated h)
  | writePixelStream ptr count => exact .inr (requestEnd_writePixelStream h)
  | writeByteStream ptr count => exact .inr (requestEnd_writeByteStream h)
  | writePattern ptr len reps => exact .inr (requestEnd_writePattern h)
  | reservedB low => exact .inr (requestEnd_refuseRequest h)
  | reservedCtoF low => exact .inr (requestEnd_refuseRequest h)

theorem perform_cases {d : Desc} {s t : State} (h : perform d s = .next t) :
    (s.mode = .uninit ∧ execOpen s = .next t) ∨ RequestEnd s t := by
  unfold perform at h
  split at h
  · exact exec_cases h
  · exact .inr (requestEnd_refuseRequest h)

/-- Everything a step can do: wait for a request, or accept one and perform it (R31, R41, R50). -/
theorem step_cases {s t : State} (h : step s = .next t) :
    t = s.idleStep ∨ ∃ d rest, (s.mode = .uninit ∧ execOpen (s.accept d rest) = .next t) ∨
      RequestEnd (s.accept d rest) t := by
  unfold step at h
  split at h
  · cases h
  · cases h
  · split at h
    · cases h; exact .inl rfl
    next d rest _ => exact .inr ⟨d, rest, perform_cases h⟩

/-! ### `open` and the parameters (R8) -/

@[simp] theorem State.bindPins_params (s : State) : s.bindPins.params = s.params := rfl

@[simp] theorem State.configureCsPin_params (s : State) : s.configureCsPin.params = s.params := rfl

@[simp] theorem State.resolveTransferConfig_params (s : State) : s.resolveTransferConfig.params = s.params := rfl

@[simp] theorem State.openDevice_params (s : State) : s.openDevice.params = s.params := by
  unfold State.openDevice
  split <;> simp

@[simp] theorem State.openBuffer_params (s : State) : s.openBuffer.params = s.params := by
  unfold State.openBuffer
  split <;> simp

@[simp] theorem State.openBus_params (s : State) : s.openBus.params = s.params := by
  unfold State.openBus
  split <;> simp

theorem execOpen_params {s t : State} (h : execOpen s = .next t) : t.params = s.params := by
  unfold execOpen at h
  split at h
  · cases h; exact State.raiseFault_params s _
  · split at h
    · cases h; exact State.initError_params s _
    · split at h
      · cases h; exact State.raiseFault_params s _
      · cases h; simp

/-! ### What is fixed once `open` has run -/

/-- The parameters and what `open` alone may write: `mode`, PinBinding, TransferConfig, the handles and the
buffer's place (R8, R32, R33, R35, R37, R38). -/
structure SameSession (s t : State) : Prop where
  params : t.params = s.params
  mode : t.mode = s.mode
  pins : t.pins = s.pins
  xfer : t.xfer = s.xfer
  busContext : t.busContext = s.busContext
  deviceHandle : t.deviceHandle = s.deviceHandle
  bufBase : t.bufBase = s.bufBase
  bufAllocated : t.bufAllocated = s.bufAllocated

theorem Kept.sameSession {s t : State} (h : Kept s t) : SameSession s t :=
  ⟨h.params, h.mode, h.pins, h.xfer, h.busContext, h.deviceHandle, h.bufBase, h.bufAllocated⟩

/-- No end of a request touches the session: a fault and a response write other registers. -/
theorem RequestEnd.sameSession {s t : State} (h : RequestEnd s t) : SameSession s t := by
  cases h with
  | faulted c => constructor <;> simp
  | answered kept st i0 i1 =>
    obtain ⟨hparams, hmode, hpins, hxfer, hbus, hdevice, hbase, halloc⟩ := kept.sameSession
    constructor <;> simpa
  | waits kept => exact kept.sameSession

theorem sameSession_idleStep (s : State) : SameSession s s.idleStep := by
  constructor <;> simp

/-- Acceptance does not touch the session either, so what keeps it after acceptance keeps it throughout. -/
theorem sameSession_of_accept {s t : State} {d : Desc} {rest : List Desc}
    (h : SameSession (s.accept d rest) t) : SameSession s t :=
  ⟨h.params, h.mode, h.pins, h.xfer, h.busContext, h.deviceHandle, h.bufBase, h.bufAllocated⟩

/-- A step that changes the session is the `open` of an UNINIT engine (R306), which leaves the parameters. -/
theorem step_sameSession {s t : State} (h : step s = .next t) :
    SameSession s t ∨ (s.mode = .uninit ∧ t.params = s.params) := by
  rcases step_cases h with rfl | ⟨d, rest, ⟨hm, hopen⟩ | hend⟩
  · exact .inl (sameSession_idleStep s)
  · exact .inr ⟨hm, (execOpen_params hopen).trans (State.accept_params s d rest)⟩
  · exact .inl (sameSession_of_accept hend.sameSession)

/-- Settles O46: by what a step can do, only the `open` of an UNINIT engine writes the session. -/
theorem bindingIsImmutableAfterOpen : Obligations.BindingIsImmutableAfterOpen := by
  unfold Obligations.BindingIsImmutableAfterOpen
  intro s t h
  rcases step_sameSession h with same | ⟨hm, hparams⟩
  · exact ⟨same.params, fun _ => ⟨same.mode, same.pins, same.xfer, same.busContext, same.deviceHandle,
      same.bufBase, same.bufAllocated⟩⟩
  · exact ⟨hparams, fun hne => absurd hm hne⟩

end Sys2Proof.Machine
end

section
/-! PROOFS. What a write adds to the trace, as a grammar of events: brackets of legal transactions. The
operations of the model are tied to it once; the record rules, the counts of events and the bus protocol
then follow from the grammar by induction. -/

namespace Sys2Proof.Machine

/-! ### The records a write submits are legal (R111, R112) -/

theorem fits_of_length_le {p : Params} {t : Transaction} (h : t.payload.length ≤ capBytes p) :
    t.fits p = true := by simp [Transaction.fits, h]

/-- A framed record is legal when its opcode is one of the two, its address has bits 23:16 zero, and its
payload fits. -/
theorem framedTxn_legal {p : Params} {cv : Byte} {av : BitVec 24} {bytes : List Byte}
    (hcv : cv = opcCmd ∨ cv = opcData) (hav : av.toNat < 2 ^ 16)
    (hfits : (framedTxn cv av bytes).fits p = true) : (framedTxn cv av bytes).legal p = true := by
  have hcode : (framedTxn cv av bytes).commandValue = 0x0002 ∨
      (framedTxn cv av bytes).commandValue = 0x0032 := by
    rcases hcv with rfl | rfl
    · exact .inl rfl
    · exact .inr rfl
  have haddr : (framedTxn cv av bytes).addressValue.extractLsb' 16 16 = 0 := by
    apply BitVec.eq_of_toNat_eq
    simp only [framedTxn, BitVec.extractLsb'_toNat, BitVec.toNat_setWidth, Nat.shiftRight_eq_div_pow,
      BitVec.ofNat_eq_ofNat, BitVec.toNat_ofNat]
    omega
  simp only [Transaction.legal, hfits, haddr]
  rcases hcode with h | h <;> rw [h] <;> simp [framedTxn, cmdBitsFixed, addrBitsFixed, firstFlag, reuseFlag]

theorem continuationTxn_legal {p : Params} {bytes : List Byte} (h : bytes.length ≤ capBytes p) :
    (continuationTxn bytes).legal p = true := by
  have hfits : (continuationTxn bytes).fits p = true := fits_of_length_le h
  simp only [Transaction.legal, hfits]
  simp [continuationTxn, firstFlag, reuseFlag]

theorem chunkTxn_legal {p : Params} (f : Framing) {bytes : List Byte} (h : bytes.length ≤ capBytes p) :
    (chunkTxn f bytes).legal p = true := by
  cases f
  · exact framedTxn_legal (.inr rfl) (by decide) (fits_of_length_le h)
  · exact continuationTxn_legal h

theorem chunkTxn_first (f : Framing) (bytes : List Byte) :
    (chunkTxn f bytes).isFirstInSequence = (f == .framed) := by cases f <;> rfl

/-- The framed chunk is the record that opens a stream (R117, R201). -/
theorem chunkTxn_framed_opensStream (bytes : List Byte) :
    (chunkTxn .framed bytes).opensStream = true := by
  rfl

/-! ### The grammar -/

/-- What the body of a bracket adds to the trace, from its first transaction (`framed`) or a later one
(`continuation`): legal transactions, each but the last answered Ok, more than one only in a stream. -/
inductive Transfers (p : Params) : Framing → List Event → Prop
  | nil (f : Framing) : Transfers p f []
  | last {f : Framing} {r : Transaction} (a : Option SubmitAnswer) (legal : r.legal p = true)
      (first : r.isFirstInSequence = (f == .framed)) : Transfers p f [.txn r a]
  | more {f : Framing} {r : Transaction} {es : List Event} (legal : r.legal p = true)
      (first : r.isFirstInSequence = (f == .framed)) (stream : f = .framed → r.opensStream = true)
      (rest : Transfers p .continuation es) : Transfers p f (.txn r (some .ok) :: es)

/-- What a write adds to the trace before its response, with the level of chip select before and after:
whole brackets, the last of which may stay open (R152, R154). -/
inductive Brackets (p : Params) : CsLevel → List Event → CsLevel → Prop
  | nil (l : CsLevel) : Brackets p l [] l
  | held {l : CsLevel} {es : List Event} (a : Nat) (m : Word) (body : Transfers p .framed es) :
      Brackets p l (.regWrite a m :: .cs .asserted :: es) .asserted
  | closed {l l' : CsLevel} {es fs : List Event} (a a' : Nat) (m m' : Word)
      (body : Transfers p .framed es) (rest : Brackets p .deasserted fs l') :
      Brackets p l (.regWrite a m :: .cs .asserted :: (es ++ .regWrite a' m' :: .cs .deasserted :: fs)) l'

/-- The events of a write: chip-select writes and levels, and legal transactions. -/
def Event.isWriteEvent (p : Params) (e : Event) : Bool :=
  match e with
  | .regWrite _ _ => true
  | .cs _ => true
  | .txn r _ => r.legal p
  | _ => false

theorem Transfers.isWriteEvent {p : Params} {f : Framing} {es : List Event} (h : Transfers p f es) :
    ∀ e ∈ es, e.isWriteEvent p = true := by
  induction h with
  | nil f => simp
  | last a legal first => simpa [Event.isWriteEvent] using legal
  | more legal first stream rest ih => simpa [Event.isWriteEvent, legal] using ih

theorem Brackets.isWriteEvent {p : Params} {l l' : CsLevel} {es : List Event} (h : Brackets p l es l') :
    ∀ e ∈ es, e.isWriteEvent p = true := by
  induction h with
  | nil l => simp
  | held a m body => simpa [Event.isWriteEvent] using body.isWriteEvent
  | closed a a' m m' body rest ih =>
    simp only [List.forall_mem_cons, List.forall_mem_append]
    exact ⟨rfl, rfl, body.isWriteEvent, rfl, rfl, ih⟩

/-- Brackets after closed brackets. -/
theorem Brackets.append {p : Params} {l l' l'' : CsLevel} {es fs : List Event} (h : Brackets p l es l')
    (hl : l' = .deasserted) (g : Brackets p .deasserted fs l'') : Brackets p l (es ++ fs) l'' := by
  induction h with
  | nil l => subst hl; exact g
  | held a m body => cases hl
  | closed a a' m m' body rest ih =>
    simpa [List.append_assoc] using Brackets.closed a a' m m' body (ih hl)

/-! ### The grammar obeys the bus protocol -/

/-- The observer inside a bracket, before its first transaction or between two of its stream. -/
def Monitor.Expects (m : Monitor) (f : Framing) : Prop :=
  m.good = true ∧ m.level = .asserted ∧ m.failed = false ∧
    match f with
    | .framed => m.sent = 0
    | .continuation => m.sent ≠ 0 ∧ m.streaming = true

/-- A legal transaction in its place is good, and leaves chip select alone. -/
theorem Monitor.next_txn_good {p : Params} {m : Monitor} {f : Framing} {r : Transaction}
    {a : Option SubmitAnswer} (hm : m.Expects f) (legal : r.legal p = true)
    (first : r.isFirstInSequence = (f == .framed)) :
    (m.next p (.txn r a)).good = true ∧ (m.next p (.txn r a)).level = .asserted := by
  obtain ⟨good, level, failed, place⟩ := hm
  cases f
  · have sent : m.sent = 0 := place
    simp [Monitor.next, good, level, failed, legal, first, sent]
  · obtain ⟨sent, streaming⟩ : m.sent ≠ 0 ∧ m.streaming = true := place
    simp [Monitor.next, good, level, failed, legal, first, sent, streaming]

theorem Monitor.next_txn_expects {p : Params} {m : Monitor} {f : Framing} {r : Transaction}
    (hm : m.Expects f) (legal : r.legal p = true) (first : r.isFirstInSequence = (f == .framed))
    (stream : f = .framed → r.opensStream = true) :
    (m.next p (.txn r (some .ok))).Expects .continuation := by
  obtain ⟨good, level⟩ := Monitor.next_txn_good (a := some .ok) hm legal first
  refine ⟨good, level, rfl, by simp [Monitor.next], ?_⟩
  cases f
  · simp [Monitor.next, stream rfl]
  · simp [Monitor.next, hm.2.2.2.2]

theorem Transfers.monitor {p : Params} {f : Framing} {es : List Event} (h : Transfers p f es)
    {m : Monitor} (hm : m.Expects f) :
    (es.foldl (Monitor.next p) m).good = true ∧ (es.foldl (Monitor.next p) m).level = .asserted := by
  induction h generalizing m with
  | nil f => exact ⟨hm.1, hm.2.1⟩
  | last a legal first => exact Monitor.next_txn_good hm legal first
  | more legal first stream rest ih => exact ih (Monitor.next_txn_expects hm legal first stream)

theorem Monitor.next_deasserted_good {p : Params} {m : Monitor} (good : m.good = true)
    (level : m.level = .asserted) : (m.next p (.cs .deasserted)).good = true := by
  simp [Monitor.next, good, level]

/-- The observer right after chip select was asserted. -/
theorem Monitor.next_asserted_expects {p : Params} {m : Monitor} (good : m.good = true)
    (level : m.level = .deasserted) : (m.next p (.cs .asserted)).Expects .framed := by
  simp [Monitor.Expects, Monitor.next, good, level]

theorem Brackets.monitor {p : Params} {l l' : CsLevel} {es : List Event} (h : Brackets p l es l')
    (hl : l = .deasserted) {m : Monitor} (good : m.good = true) (level : m.level = l) :
    (es.foldl (Monitor.next p) m).good = true ∧ (es.foldl (Monitor.next p) m).level = l' := by
  induction h generalizing m with
  | nil l => exact ⟨good, level⟩
  | held a w body => exact body.monitor (Monitor.next_asserted_expects good (level.trans hl))
  | closed a a' w w' body rest ih =>
    obtain ⟨good', level'⟩ :=
      body.monitor (p := p) (Monitor.next_asserted_expects good (level.trans hl))
    simp only [List.foldl_cons, List.foldl_append]
    exact ih rfl (Monitor.next_deasserted_good good' level') rfl

/-! ### What an operation inside a bracket does -/

/-- Between two chip-select edges: `es` is added to the trace, chip select stays, and so does the size of
an allocated buffer (R40). -/
structure Emitted (s t : State) (es : List Event) : Prop where
  params : t.params = s.params
  trace : t.trace = s.trace ++ es
  cs : t.cs = s.cs
  buf : s.buf.length = capBytes s.params → t.buf.length = capBytes s.params

theorem Emitted.trans {s t u : State} {es fs : List Event} (h : Emitted s t es) (g : Emitted t u fs) :
    Emitted s u (es ++ fs) where
  params := g.params.trans h.params
  trace := by rw [g.trace, h.trace, List.append_assoc]
  cs := g.cs.trans h.cs
  buf hs := by simpa [h.params] using g.buf (by simpa [h.params] using h.buf hs)

/-- An update that touches none of the four. -/
theorem Emitted.silent {s t : State} (params : t.params = s.params) (trace : t.trace = s.trace)
    (cs : t.cs = s.cs) (buf : t.buf = s.buf) : Emitted s t [] :=
  ⟨params, by simpa using trace, cs, fun h => by rw [buf, h]⟩

/-- A chunk of at most `capElems` elements fits the buffer (R200, R203). -/
theorem Fill.mul_elemBytes_le {f : Fill} {p : Params} {n : Nat} (h : n ≤ f.capElems p) :
    n * f.elemBytes ≤ capBytes p := by
  cases f <;> simp only [Fill.capElems, Fill.elemBytes, capWords, capBytes] at h ⊢ <;> omega

theorem emitted_overwrite {s : State} {bs : List Byte} (h : bs.length ≤ capBytes s.params) :
    Emitted s { s with buf := overwrite s.buf bs } [] where
  params := rfl
  trace := by simp
  cs := rfl
  buf hs := (overwrite_length_of_le _ _ (by omega)).trans hs

theorem emitted_fromSource {f : Fill} {s : State} {n : Nat} (h : n ≤ f.capElems s.params) :
    Emitted s (Fill.fromSource f s n).state [] := by
  have size : (f.sourceBytes s n).length ≤ capBytes s.params :=
    (sourceBytes_length_le f s n).trans (Fill.mul_elemBytes_le h)
  have written := emitted_overwrite size
  by_cases hall : (f.sourceBytes s n).length = n * f.elemBytes
  · rw [fromSource_ok hall]
    exact written.trans (.silent rfl rfl rfl rfl)
  · rw [fromSource_blocked hall]
    exact written.trans (.silent rfl rfl rfl rfl)

theorem emitted_fill {f : Fill} {s : State} {n : Nat} (h : n ≤ f.capElems s.params) :
    Emitted s (f.run s n).state [] := by
  cases f
  · exact .silent rfl rfl rfl rfl
  · exact emitted_fromSource (f := .pixel) h
  · exact emitted_fromSource (f := .byte) h

/-- A fill leaves the loop's registers but `srcAddr` (R221, R231). -/
theorem fill_framing_plan (f : Fill) (s : State) (n : Nat) :
    (f.run s n).state.framing = s.framing ∧ ∃ a, (f.run s n).state.plan = { s.plan with srcAddr := a } := by
  cases f
  · exact ⟨rfl, s.plan.srcAddr, rfl⟩
  all_goals
    simp only [Fill.run, Fill.fromSource]
    split <;> exact ⟨rfl, _, rfl⟩

/-- `Submit(T)` adds one TXN, with the answer Ok when it ends Ok. -/
theorem emitted_submit (s : State) : ∃ a, Emitted s s.submit.state [.txn s.txn a] ∧
    ∀ t, s.submit = .ok t → a = some .ok := by
  rcases submit_cases s with ⟨rest, -, h⟩ | ⟨n, rest, -, h⟩ | ⟨-, h⟩ <;> rw [h]
  · exact ⟨some .ok, ⟨rfl, rfl, rfl, fun hs => hs⟩, fun _ _ => rfl⟩
  · exact ⟨some (.err n), ⟨rfl, rfl, rfl, fun hs => hs⟩, fun _ ht => by cases ht⟩
  · exact ⟨none, ⟨rfl, rfl, rfl, fun hs => hs⟩, fun _ ht => by cases ht⟩

/-- The fill of an iteration adds nothing to the trace. -/
theorem emitted_chunkFill {f : Fill} {s : State} (h : s.plan.remaining ≠ 0) :
    Emitted s (f.run (s.setChunk f) (s.setChunk f).plan.chunk.toNat).state [] := by
  have hset : Emitted s (s.setChunk f) [] := .silent rfl rfl rfl rfl
  have hcap : (s.setChunk f).plan.chunk.toNat ≤ f.capElems s.params := by
    have := (setChunk_bounds f s h).1
    omega
  exact hset.trans (emitted_fill (s := s.setChunk f) hcap)

/-- An iteration whose fill ends loads a chunk of at most `CAP_BYTES` in the form of its framing. -/
theorem loadChunk_of_fill {f : Fill} {s filled : State} (h : s.plan.remaining ≠ 0)
    (hf : f.run (s.setChunk f) (s.setChunk f).plan.chunk.toNat = .ok filled) :
    Emitted s (filled.loadChunk f filled.plan.chunk.toNat) [] ∧
      ∃ bytes : List Byte, bytes.length ≤ capBytes s.params ∧
        (filled.loadChunk f filled.plan.chunk.toNat).txn = chunkTxn s.framing bytes := by
  obtain ⟨hframing, a, hplan⟩ := fill_framing_plan f (s.setChunk f) (s.setChunk f).plan.chunk.toNat
  have hfill := emitted_chunkFill (f := f) h
  rw [hf] at hframing hplan hfill
  have hload : Emitted filled (filled.loadChunk f filled.plan.chunk.toNat) [] := .silent rfl rfl rfl rfl
  refine ⟨hfill.trans hload, filled.bufB (filled.plan.chunk.toNat * f.elemBytes), ?_, ?_⟩
  · have hcap : filled.plan.chunk.toNat ≤ f.capElems s.params := by
      have hsame : filled.plan.chunk = (s.setChunk f).plan.chunk := by
        rw [show filled.plan = _ from hplan]
      have := (setChunk_bounds f s h).1
      rw [hsame]
      omega
    exact (List.length_take_le _ _).trans (Fill.mul_elemBytes_le hcap)
  · exact congrArg (chunkTxn · _) hframing

/-- The chunk loop adds the transfers of its framing (R200 to R203). -/
theorem streamLoop_transfers (f : Fill) (bound : Nat) (s : State) :
    ∃ es, Emitted s (streamLoop f bound s).state es ∧ Transfers s.params s.framing es := by
  induction bound generalizing s with
  | zero => exact ⟨[], .silent rfl rfl rfl rfl, .nil _⟩
  | succ bound ih =>
    by_cases h : s.plan.remaining = 0
    · rw [streamLoop_zero f _ s h]
      exact ⟨[], .silent rfl rfl rfl rfl, .nil _⟩
    cases hf : f.run (s.setChunk f) (s.setChunk f).plan.chunk.toNat with
    | err filled => exact absurd hf (fill_ne_err f _ _ _)
    | blocked stuck =>
      have hfill := emitted_chunkFill (f := f) h
      rw [hf] at hfill
      rw [streamLoop_stuck h hf]
      exact ⟨[], hfill, .nil _⟩
    | ok filled =>
      obtain ⟨hload, bytes, hfits, htxn⟩ := loadChunk_of_fill h hf
      have hlegal := chunkTxn_legal s.framing hfits
      have hfirst := chunkTxn_first s.framing bytes
      obtain ⟨a, hsubmit, hok⟩ := emitted_submit (filled.loadChunk f filled.plan.chunk.toNat)
      have hsent := hload.trans hsubmit
      rw [htxn] at hsent
      cases hs : (filled.loadChunk f filled.plan.chunk.toNat).submit with
      | ok answered =>
        obtain rfl := hok answered hs
        rw [hs] at hsent
        rw [streamLoop_ok h hf hs]
        have hdone : Emitted answered answered.chunkDone [] := .silent rfl rfl rfl rfl
        obtain ⟨es, hrest, htransfers⟩ := ih answered.chunkDone
        have hparams : answered.chunkDone.params = s.params := hsent.params
        rw [hparams] at htransfers
        refine ⟨_, hsent.trans (hdone.trans hrest), .more hlegal hfirst ?_ htransfers⟩
        intro hframed
        rw [hframed]
        exact chunkTxn_framed_opensStream bytes
      | err answered =>
        rw [hs] at hsent
        rw [streamLoop_err h hf hs]
        exact ⟨_, hsent, .last a hlegal hfirst⟩
      | blocked waiting =>
        rw [hs] at hsent
        rw [streamLoop_hang h hf hs]
        exact ⟨_, hsent, .last a hlegal hfirst⟩

theorem stream_transfers (f : Fill) (total : Word) (s : State) :
    ∃ es, Emitted s (stream f total s).state es ∧ Transfers s.params s.framing es := by
  obtain ⟨es, hes, htransfers⟩ :=
    streamLoop_transfers f total.toNat { s with plan := { s.plan with remaining := total } }
  have hset : Emitted s { s with plan := { s.plan with remaining := total } } [] := .silent rfl rfl rfl rfl
  exact ⟨es, hset.trans hes, htransfers⟩

/-! ### Bodies, brackets and repetitions -/

/-- A single-shot body's record is legal; the chunk loop makes its own records. -/
def Body.Legal (p : Params) (b : Body) : Prop :=
  match b with
  | .single cv av payload => (framedTxn cv av payload).legal p = true
  | _ => True

theorem emitted_fillRepeated (s : State) (value : Half) (count : Word) :
    Emitted s (s.fillRepeated value count) [] := by
  refine (emitted_overwrite ?_).trans (.silent rfl rfl rfl rfl)
  simp only [wordsLE_length, List.length_replicate, capWords, capBytes]
  omega

theorem emitted_setSource (s : State) (ptr : Word) : Emitted s (s.setSource ptr) [] :=
  .silent rfl rfl rfl rfl

theorem body_transfers {b : Body} {s : State} (hb : b.Legal s.params) (hframing : s.framing = .framed) :
    ∃ es, Emitted s (b.run s).state es ∧ Transfers s.params .framed es := by
  cases b with
  | repeated value count =>
    obtain ⟨es, hes, htransfers⟩ := stream_transfers .reuse count (s.fillRepeated value count)
    exact ⟨es, (emitted_fillRepeated s value count).trans hes, hframing ▸ htransfers⟩
  | pixels ptr count =>
    obtain ⟨es, hes, htransfers⟩ := stream_transfers .pixel count (s.setSource ptr)
    exact ⟨es, (emitted_setSource s ptr).trans hes, hframing ▸ htransfers⟩
  | bytes ptr count =>
    obtain ⟨es, hes, htransfers⟩ := stream_transfers .byte count (s.setSource ptr)
    exact ⟨es, (emitted_setSource s ptr).trans hes, hframing ▸ htransfers⟩
  | single cv av payload =>
    have hload : Emitted s { s with txn := framedTxn cv av payload } [] := .silent rfl rfl rfl rfl
    obtain ⟨a, hsub, -⟩ := emitted_submit { s with txn := framedTxn cv av payload }
    have h := hload.trans hsub
    refine ⟨_, ?_, .last a hb rfl⟩
    simp only [Body.run]
    cases hs : State.submit { s with txn := framedTxn cv av payload } with
    | ok answered =>
      rw [hs] at h
      exact h.trans (.silent (t := answered.singleDone) rfl rfl rfl rfl)
    | err answered => rw [hs] at h; exact h
    | blocked waiting => rw [hs] at h; exact h

/-- What a write has done before its response: nothing to what `Kept` names, brackets to the trace and
chip select, and nothing to the buffer's size. -/
structure Written (s t : State) : Prop where
  kept : Kept s t
  brackets : ∃ es, t.trace = s.trace ++ es ∧ Brackets s.params s.cs es t.cs
  buf : s.buf.length = capBytes s.params → t.buf.length = capBytes s.params

theorem Written.refl (s : State) : Written s s := ⟨Kept.refl s, ⟨[], by simp, .nil _⟩, id⟩

theorem Written.trans {s t u : State} (h : Written s t) (ht : t.cs = .deasserted) (g : Written t u) :
    Written s u := by
  obtain ⟨es, htrace, hes⟩ := h.brackets
  obtain ⟨fs, gtrace, hfs⟩ := g.brackets
  rw [ht, h.kept.params] at hfs
  refine ⟨h.kept.trans g.kept, ⟨es ++ fs, by rw [gtrace, htrace, List.append_assoc], hes.append ht hfs⟩, ?_⟩
  intro hs
  simpa [h.kept.params] using g.buf (by simpa [h.kept.params] using h.buf hs)

/-- A planner update between brackets. -/
theorem written_plan (s : State) (plan : Planner) : Written s { s with plan := plan } :=
  ⟨by constructor <;> simp, ⟨[], by simp, .nil _⟩, id⟩

theorem written_repetitionDone (s : State) : Written s s.repetitionDone := written_plan s _

/-- The run has ended, Ok or Err, in the state `u`: it does not wait (R157). -/
def Run.EndedIn (r : Run) (u : State) : Prop := r = .ok u ∨ r = .err u

theorem bracket_ended_cs {b : Body} {s u : State} (h : (bracket b s).EndedIn u) : u.cs = .deasserted := by
  unfold bracket at h
  cases hr : b.run s.enterBracket <;> rw [hr] at h <;> rcases h with h | h <;> cases h <;> rfl

theorem written_bracket {b : Body} {s : State} (hb : b.Legal s.params) : Written s (bracket b s).state := by
  obtain ⟨es, hes, htransfers⟩ := body_transfers (s := s.enterBracket) hb rfl
  have closed : Brackets s.params s.cs (.regWrite s.assertAddr s.pins.csMask :: .cs .asserted ::
      (es ++ .regWrite (b.run s.enterBracket).state.deassertAddr (b.run s.enterBracket).state.pins.csMask ::
        .cs .deasserted :: [])) .deasserted := .closed _ _ _ _ htransfers (.nil _)
  refine ⟨kept_bracket b s, ?_, ?_⟩
  · have htrace := hes.trace
    have hcs := hes.cs
    unfold bracket
    cases hr : b.run s.enterBracket with
    | ok ended =>
      rw [hr] at htrace closed
      exact ⟨_, by simp_all [Run.state], closed⟩
    | err ended =>
      rw [hr] at htrace closed
      exact ⟨_, by simp_all [Run.state], closed⟩
    | blocked waiting =>
      rw [hr] at htrace hcs
      have hlevel : waiting.cs = .asserted := hcs
      show ∃ fs, waiting.trace = s.trace ++ fs ∧ Brackets s.params s.cs fs waiting.cs
      rw [hlevel]
      exact ⟨_, by simp_all [Run.state], .held s.assertAddr s.pins.csMask htransfers⟩
  · have hbuf := hes.buf
    unfold bracket
    cases hr : b.run s.enterBracket <;> rw [hr] at hbuf <;> exact hbuf

theorem patternLoop_ended_cs {ptr len : Word} {left : Nat} {s u : State}
    (h : (patternLoop ptr len left s).EndedIn u) (hs : s.cs ≠ .asserted) : u.cs ≠ .asserted := by
  induction left generalizing s with
  | zero => rcases h with h | h <;> cases h; exact hs
  | succ left ih =>
    have hended : ∀ v, (bracket (.bytes ptr len) s).EndedIn v → v.cs ≠ .asserted := fun v hv => by
      simp [bracket_ended_cs hv]
    simp only [patternLoop] at h
    cases hr : bracket (.bytes ptr len) s with
    | ok ended => rw [hr] at h; exact ih h (hended ended (.inl hr))
    | err ended => rw [hr] at h; rcases h with h | h <;> cases h; exact hended u (.inr hr)
    | blocked waiting => rw [hr] at h; rcases h with h | h <;> cases h

theorem written_patternLoop (ptr len : Word) (left : Nat) (s : State) :
    Written s (patternLoop ptr len left s).state := by
  induction left generalizing s with
  | zero => exact Written.refl s
  | succ left ih =>
    have h : Written s (bracket (.bytes ptr len) s).state := written_bracket trivial
    simp only [patternLoop]
    cases hr : bracket (.bytes ptr len) s with
    | ok ended =>
      rw [hr] at h
      have hcs : ended.cs = .deasserted := bracket_ended_cs (.inl hr)
      exact h.trans hcs ((written_repetitionDone ended).trans hcs (ih ended.repetitionDone))
    | err ended => rw [hr] at h; exact h
    | blocked waiting => rw [hr] at h; exact h

end Sys2Proof.Machine
end

section
/-! PROOFS. How a request ends, with what it added to the trace: a write by the grammar of brackets, an
`open` by its calls. Every statement about one step is then a walk over these few ends. -/

namespace Sys2Proof.Machine

/-! ### How a write ends -/

/-- `RequestEnd` with the events of the write: a write answers or waits in mode READY alone, and answers
only with chip select released. -/
inductive WriteEnd (s : State) : State → Prop
  | faulted (c : FaultCode) : WriteEnd s (s.raiseFault c)
  | answered {u : State} (written : Written s u) (ready : s.mode = .ready)
      (released : s.cs ≠ .asserted → u.cs ≠ .asserted) (st : Status) (i0 i1 : Word) :
      WriteEnd s (u.respond st i0 i1)
  | waits {u : State} (written : Written s u) (ready : s.mode = .ready) : WriteEnd s u

theorem writeEnd_finishWrite {s : State} {b : Body} (ready : s.mode = .ready) (hb : b.Legal s.params) :
    WriteEnd s (finishWrite (bracket b s)) := by
  have hw := written_bracket (s := s) hb
  have released : ∀ u, (bracket b s).EndedIn u → s.cs ≠ .asserted → u.cs ≠ .asserted := by
    intro u hu _
    simp [bracket_ended_cs hu]
  rcases finishWrite_cases (bracket b s) with ⟨u, hr, e⟩ | ⟨u, hr, e⟩ | ⟨u, hr, e⟩ <;> rw [e] <;> rw [hr] at hw
  · exact .answered hw ready (released u (.inl hr)) _ _ _
  · exact .answered hw ready (released u (.inr hr)) _ _ _
  · exact .waits hw ready

theorem writeEnd_finishPattern {s : State} {ptr len : Word} {n : Nat} {plan : Planner}
    (ready : s.mode = .ready) : WriteEnd s (finishPattern (patternLoop ptr len n { s with plan := plan })) := by
  have hw : Written s (patternLoop ptr len n { s with plan := plan }).state := by
    obtain ⟨kept, brackets, buf⟩ := written_patternLoop ptr len n { s with plan := plan }
    exact ⟨(written_plan s plan).kept.trans kept, brackets, buf⟩
  have released : ∀ u, (patternLoop ptr len n { s with plan := plan }).EndedIn u →
      s.cs ≠ .asserted → u.cs ≠ .asserted := fun u hu hs => patternLoop_ended_cs hu hs
  rcases finishPattern_cases (patternLoop ptr len n { s with plan := plan }) with
    ⟨u, hr, e⟩ | ⟨u, hr, e⟩ | ⟨u, hr, e⟩ <;> rw [e] <;> rw [hr] at hw
  · exact .answered hw ready (released u (.inl hr)) _ _ _
  · exact .answered hw ready (released u (.inr hr)) _ _ _
  · exact .waits hw ready

/-- The empty range of a stream: the OK response and nothing else (R204). -/
theorem writeEnd_empty {s : State} (ready : s.mode = .ready) (i1 : Word) : WriteEnd s (s.respond .ok 0 i1) :=
  .answered (Written.refl s) ready id _ _ _

theorem writeEnd_whenReady {s t : State} {run : State → State} (h : whenReady s run = .next t)
    (hrun : s.mode = .ready → WriteEnd s (run s)) : WriteEnd s t := by
  by_cases ready : s.mode = .ready
  · rw [whenReady_ready ready] at h
    cases h
    exact hrun ready
  · rw [whenReady_notReady ready] at h
    cases h
    exact .faulted _

theorem writeEnd_singleShot {s t : State} {cv : Byte} {av : BitVec 24} {payload : List Byte}
    (hcv : cv = opcCmd ∨ cv = opcData) (hav : av.toNat < 2 ^ 16)
    (hfits : (framedTxn cv av payload).fits s.params = true)
    (h : singleShot cv av payload s = .next t) : WriteEnd s t :=
  writeEnd_whenReady h fun ready => writeEnd_finishWrite ready (framedTxn_legal hcv hav hfits)

theorem writeEnd_writeRepeated {s t : State} {value : Half} {count : Word}
    (h : execWriteRepeated value count s = .next t) : WriteEnd s t :=
  writeEnd_whenReady h fun ready => by
    split
    · exact writeEnd_empty ready _
    · exact writeEnd_finishWrite ready trivial

theorem writeEnd_writePixelStream {s t : State} {ptr count : Word}
    (h : execWritePixelStream ptr count s = .next t) : WriteEnd s t :=
  writeEnd_whenReady h fun ready => by
    split
    · exact writeEnd_empty ready _
    split
    · exact .faulted _
    · exact writeEnd_finishWrite ready trivial

theorem writeEnd_writeByteStream {s t : State} {ptr count : Word}
    (h : execWriteByteStream ptr count s = .next t) : WriteEnd s t :=
  writeEnd_whenReady h fun ready => by
    split
    · exact writeEnd_empty ready _
    split
    · exact .faulted _
    · exact writeEnd_finishWrite ready trivial

theorem writeEnd_writePattern {s t : State} {ptr len reps : Word}
    (h : execWritePattern ptr len reps s = .next t) : WriteEnd s t :=
  writeEnd_whenReady h fun ready => by
    split
    · exact writeEnd_empty ready _
    split
    · exact .faulted _
    · exact writeEnd_finishPattern ready

theorem writeEnd_refuseRequest {s t : State} (h : refuseRequest s = .next t) : WriteEnd s t := by
  cases h
  exact .faulted _

/-! ### The single-shot records fit (R111, R175) -/

theorem cmdAddr8_lt (c : Byte) : (cmdAddr8 c).toNat < 2 ^ 16 := by
  have := c.isLt
  simp only [cmdAddr8, BitVec.toNat_shiftLeft, BitVec.toNat_setWidth, Nat.shiftLeft_eq]
  omega

theorem cmdAddr16_lt (w : Half) : (cmdAddr16 w).toNat < 2 ^ 16 := by
  have := w.isLt
  simp only [cmdAddr16, BitVec.toNat_setWidth]
  omega

theorem addrSingle_lt : addrSingle.toNat < 2 ^ 16 := by decide

theorem framedTxn_fits {p : Params} {cv : Byte} {av : BitVec 24} {bytes : List Byte} (h : bytes.length ≤ 2) :
    (framedTxn cv av bytes).fits p = true := by
  have := p.cap.property.1
  refine fits_of_length_le ?_
  simp only [framedTxn_payload, capBytes]
  omega

/-- The four bytes of `writeCommandWithWords`: beyond `CAP_BYTES` only where `CAP = 1` (log 13). -/
theorem framedTxn_words_fits {p : Params} {av : BitVec 24} (w1 w2 : Half) :
    (framedTxn opcCmd av (be16 w1 ++ be16 w2)).fits p = true := by
  have := p.cap.property.1
  by_cases hcap : p.cap.val = 1
  · simp [Transaction.fits, hcap, framedTxn, opcCmd, be16]
  · refine fits_of_length_le ?_
    simp only [framedTxn_payload, be16, List.length_append, List.length_cons, List.length_nil, capBytes]
    omega

/-! ### How `open` ends -/

/-- The calls of `open` to the bus driver and the allocator (R145 to R147). -/
def Event.isBusCall (e : Event) : Bool :=
  match e with
  | .busInit _ _ => true
  | .alloc _ _ => true
  | .devReg _ _ => true
  | _ => false

/-- What `open` has done before its response: bound the pins, driven chip select deasserted, made calls
(R142 to R147). -/
structure Opening (s u : State) : Prop where
  params : u.params = s.params
  cfg : u.cfg = s.cfg
  env : u.env = s.env
  seq : u.seq = s.seq
  fault : u.fault = s.fault
  rsp : u.rsp = s.rsp
  pins : u.pins = s.bindPins.pins
  cs : u.cs = .deasserted
  bufBase : s.bufBase < 2 ^ s.params.addrW → u.bufBase < 2 ^ s.params.addrW
  trace : ∃ calls, u.trace = s.trace ++ (.pinCfg s.cfg.cs ::
      .regWrite s.bindPins.deassertAddr s.bindPins.pins.csMask :: .cs .deasserted :: calls) ∧
    ∀ e ∈ calls, e.isBusCall = true

theorem opening_start (s : State) : Opening s s.bindPins.configureCsPin.resolveTransferConfig where
  params := rfl
  cfg := rfl
  env := rfl
  seq := rfl
  fault := rfl
  rsp := rfl
  pins := rfl
  cs := rfl
  bufBase := id
  trace := ⟨[], by
    simp only [State.resolveTransferConfig, State.configureCsPin, State.deassertSelect_trace,
      State.emit_trace, List.append_assoc]
    rfl, by simp⟩

theorem Opening.call {s u : State} (h : Opening s u) {e : Event} (he : e.isBusCall = true) :
    Opening s (u.emit e) := by
  obtain ⟨calls, htrace, hcalls⟩ := h.trace
  refine { h with trace := ⟨calls ++ [e], by simp [htrace], ?_⟩ }
  simpa [or_imp, forall_and] using ⟨hcalls, he⟩

/-- How the `open` of an UNINIT engine ends (R141, R142, R148, R149): with BAD_PIN, with the response to a
negative pin, or with the response after its calls, in the mode `m` it leaves. -/
inductive OpenEnd (s : State) : State → Prop
  | badPin : OpenEnd s (s.raiseFault .badPin)
  | pinInvalid : OpenEnd s (s.initError .csPinInvalid)
  | answered {u : State} (opening : Opening s u) (m : Mode) (left : m ≠ .uninit)
      (ready : m = .ready → u.ReadyInv) (st : Status) (i0 i1 : Word) :
      OpenEnd s (({ u with mode := m }).respond st i0 i1)

theorem openEnd_failed {s u : State} (h : Opening s u) (c : InitCause) : OpenEnd s (u.initError c) :=
  .answered h .failed (by decide) nofun .initError c.code 0

/-- The chip-select registers an opening engine has bound (R33, R142). -/
theorem Opening.pins_ready {s u : State} (h : Opening s u) (hbit : pinBit s.params s.cfg.cs.toNat < 32) :
    (∃ k < 32, u.pins.csMask = 1 <<< k) ∧ u.pins.csSetAddr = setAddr u.params u.pins.csBank ∧
      u.pins.csClrAddr = clrAddr u.params u.pins.csBank := by
  rw [h.pins, h.params]
  exact ⟨⟨_, hbit, rfl⟩, rfl, rfl⟩

theorem openEnd_openDevice {s u : State} (h : Opening s u) (hbit : pinBit s.params s.cfg.cs.toNat < 32)
    (hbus : u.busContext.isSome = true) (halloc : u.bufAllocated = true)
    (hbuf : u.buf.length = capBytes u.params) : OpenEnd s u.openDevice := by
  have told : Opening s (u.emit (.devReg (deviceFraming u.params) u.env.devReg)) := h.call rfl
  unfold State.openDevice
  split
  · exact openEnd_failed told _
  next handle _ =>
    obtain ⟨hmask, hset, hclr⟩ := h.pins_ready hbit
    exact .answered (u := { u.emit (.devReg (deviceFraming u.params) u.env.devReg) with
        deviceHandle := some handle }) { told with } .ready (by decide)
      (fun _ => ⟨halloc, hbuf, hbus, rfl, hmask, hset, hclr⟩) .ok 0 0

theorem openEnd_openBuffer {s u : State} (h : Opening s u) (hbit : pinBit s.params s.cfg.cs.toNat < 32)
    (hbus : u.busContext.isSome = true) : OpenEnd s u.openBuffer := by
  have told : Opening s (u.emit (.alloc (capBytes u.params) u.allocAnswer)) := h.call rfl
  unfold State.openBuffer
  split
  · exact openEnd_failed told _
  next base hbase =>
    have hlt : base < 2 ^ s.params.addrW := h.params ▸ u.allocAnswer_lt base hbase
    exact openEnd_openDevice { told with bufBase := fun _ => hlt } hbit hbus rfl (freshBuf_length _ _)

theorem openEnd_openBus {s u : State} (h : Opening s u) (hbit : pinBit s.params s.cfg.cs.toNat < 32) :
    OpenEnd s u.openBus := by
  have told : Opening s (u.emit (.busInit u.busInitArgs u.env.busInit)) := h.call rfl
  unfold State.openBus
  split
  · exact openEnd_failed told _
  · exact openEnd_openBuffer { told with } hbit rfl

theorem execOpen_ends {s t : State} (hm : s.mode = .uninit) (h : execOpen s = .next t) : OpenEnd s t := by
  unfold execOpen at h
  rw [if_neg (not_not.mpr hm)] at h
  split at h
  · cases h
    exact .pinInvalid
  split at h
  · cases h
    exact .badPin
  next hpin =>
    cases h
    exact openEnd_openBus (opening_start s) (by omega)

/-! ### How a request and a step end -/

theorem exec_ends {i : Instr} {s t : State} (h : exec i s = .next t) :
    (s.mode = .uninit ∧ OpenEnd s t) ∨ WriteEnd s t := by
  cases i with
  | openEngine =>
    by_cases hm : s.mode = .uninit
    · exact .inl ⟨hm, execOpen_ends hm h⟩
    · cases (execOpen_reopen hm).symm.trans h
      exact .inr (.faulted _)
  | writeCommand c => exact .inr (writeEnd_singleShot (.inl rfl) (cmdAddr8_lt c) (framedTxn_fits (by simp)) h)
  | writeCommand16 w => exact .inr (writeEnd_singleShot (.inl rfl) (cmdAddr16_lt w) (framedTxn_fits (by simp)) h)
  | writeByte b => exact .inr (writeEnd_singleShot (.inr rfl) addrSingle_lt (framedTxn_fits (by simp)) h)
  | writeWord w => exact .inr (writeEnd_singleShot (.inr rfl) addrSingle_lt (framedTxn_fits (by simp [be16])) h)
  | writeCommandWithBytes c b =>
    exact .inr (writeEnd_singleShot (.inl rfl) (cmdAddr8_lt c) (framedTxn_fits (by simp)) h)
  | writeCommandWithWords c w1 w2 =>
    exact .inr (writeEnd_singleShot (.inl rfl) (cmdAddr8_lt c) (framedTxn_words_fits w1 w2) h)
  | writeRepeated value count => exact .inr (writeEnd_writeRepeated h)
  | writePixelStream ptr count => exact .inr (writeEnd_writePixelStream h)
  | writeByteStream ptr count => exact .inr (writeEnd_writeByteStream h)
  | writePattern ptr len reps => exact .inr (writeEnd_writePattern h)
  | reservedB low => exact .inr (writeEnd_refuseRequest h)
  | reservedCtoF low => exact .inr (writeEnd_refuseRequest h)

/-- Everything a step can do, with what it adds to the trace: wait in IDLE for a request, or accept one and
bring it to one of its ends. -/
theorem step_ends {s t : State} (h : step s = .next t) : s.seq = .idle ∧
    ((s.env.requests = [] ∧ t = s.idleStep) ∨ ∃ d rest,
      (s.mode = .uninit ∧ OpenEnd (s.accept d rest) t) ∨ WriteEnd (s.accept d rest) t) := by
  unfold step at h
  split at h
  · cases h
  · cases h
  next hseq =>
    refine ⟨hseq, ?_⟩
    unfold State.fetch at h
    cases hreq : s.env.requests with
    | nil =>
      rw [hreq] at h
      cases h
      exact .inl ⟨rfl, rfl⟩
    | cons d rest =>
      rw [hreq] at h
      refine .inr ⟨d, rest, ?_⟩
      replace h : perform d (s.accept d rest) = .next t := h
      unfold perform at h
      split at h
      · exact exec_ends h
      · exact .inr (writeEnd_refuseRequest h)

end Sys2Proof.Machine
end

section
/-! PROOFS. The machine's invariant: it holds at reset, acceptance keeps it, and each end of a request keeps
it. Then O44 and O45. -/

namespace Sys2Proof.Machine

/-! ### The observer and the trace -/

theorem Monitor.run_append (p : Params) (trace es : List Event) :
    Monitor.run p (trace ++ es) = es.foldl (Monitor.next p) (Monitor.run p trace) := List.foldl_append

/-- Acceptances, responses and faults: the events of the host's port. -/
def Event.isPortEvent (e : Event) : Bool :=
  match e with
  | .accept _ => true
  | .rsp _ _ _ => true
  | .fault _ => true
  | _ => false

theorem Monitor.next_port {p : Params} {m : Monitor} {e : Event} (he : e.isPortEvent = true) :
    m.next p e = { m with good := m.good && m.level != .asserted } := by
  cases e with
  | accept d => rfl
  | rsp status i0 i1 => rfl
  | fault code => rfl
  | _ => cases he

theorem Monitor.next_call {p : Params} {m : Monitor} {e : Event} (he : e.isBusCall = true) :
    m.next p e = { m with good := m.good && m.level == .deasserted } := by
  cases e with
  | busInit args answer => rfl
  | alloc bytes answer => rfl
  | devReg framing answer => rfl
  | _ => cases he

/-- Bus calls with chip select deasserted are good and leave it so (R145 to R147). -/
theorem Monitor.foldl_calls {p : Params} {calls : List Event} (hcalls : ∀ e ∈ calls, e.isBusCall = true)
    {m : Monitor} (good : m.good = true) (level : m.level = .deasserted) :
    (calls.foldl (Monitor.next p) m).good = true ∧ (calls.foldl (Monitor.next p) m).level = .deasserted := by
  induction calls generalizing m with
  | nil => exact ⟨good, level⟩
  | cons e calls ih =>
    have ⟨he, hrest⟩ := List.forall_mem_cons.mp hcalls
    rw [List.foldl_cons, Monitor.next_call he]
    exact ih hrest (by simp [good, level]) level

/-- The part of the invariant about the trace: it obeys the protocol, and `csAsserted` is its level. -/
structure State.Watched (s : State) : Prop where
  good : (Monitor.run s.params s.trace).good = true
  level : (Monitor.run s.params s.trace).level = s.cs

theorem State.Inv.watched {s : State} (h : s.Inv) : s.Watched := ⟨h.protocol, h.level⟩

/-- An event of the host's port outside a bracket. -/
theorem State.Watched.port {s t : State} (h : s.Watched) (hs : s.cs ≠ .asserted) {e : Event}
    (he : e.isPortEvent = true) (params : t.params = s.params) (cs : t.cs = s.cs)
    (trace : t.trace = s.trace ++ [e]) : t.Watched := by
  have hrun : Monitor.run t.params t.trace = (Monitor.run s.params s.trace).next s.params e := by
    rw [params, trace, Monitor.run_append]
    rfl
  rw [Monitor.next_port he] at hrun
  constructor <;> simp [hrun, h.good, h.level, hs, cs]

theorem State.Watched.written {s t : State} (h : s.Watched) (hs : s.cs = .deasserted) (w : Written s t) :
    t.Watched := by
  obtain ⟨es, htrace, hes⟩ := w.brackets
  have hrun : Monitor.run t.params t.trace = es.foldl (Monitor.next s.params) (Monitor.run s.params s.trace) := by
    rw [w.kept.params, htrace, Monitor.run_append]
  obtain ⟨good, level⟩ := hes.monitor hs h.good h.level
  exact ⟨hrun ▸ good, hrun ▸ level⟩

theorem State.Watched.opening {s u : State} (h : s.Watched) (hs : s.cs = .undriven) (o : Opening s u) :
    u.Watched := by
  obtain ⟨calls, htrace, hcalls⟩ := o.trace
  have hrun : Monitor.run u.params u.trace = calls.foldl (Monitor.next s.params)
      ((Monitor.run s.params s.trace).next s.params (.cs .deasserted)) := by
    rw [o.params, htrace, Monitor.run_append]
    rfl
  have level := h.level.trans hs
  obtain ⟨good, level'⟩ := Monitor.foldl_calls (p := s.params) hcalls
    (m := (Monitor.run s.params s.trace).next s.params (.cs .deasserted))
    (by simp [Monitor.next, h.good, level]) rfl
  exact ⟨hrun ▸ good, (hrun ▸ level').trans o.cs.symm⟩

/-- Chip select, once driven, stays driven. -/
theorem Brackets.driven {p : Params} {l l' : CsLevel} {es : List Event} (h : Brackets p l es l')
    (hl : l ≠ .undriven) : l' ≠ .undriven := by
  induction h with
  | nil l => exact hl
  | held a m body => decide
  | closed a a' m m' body rest ih => exact ih (by decide)

/-! ### The invariant at each end of a request -/

theorem State.Inv.not_halted {s : State} (h : s.Inv) (hs : s.seq ≠ .halted) : s.fault = 0 := by
  by_contra hf
  exact hs (h.halted.mpr hf)

theorem inv_idleStep {s : State} (h : s.Inv) : s.idleStep.Inv :=
  ⟨h.protocol, h.level, h.released, h.undriven, h.halted, h.faultCode, h.status, h.ready, h.widths, h.memory⟩

theorem inv_accept {s : State} (h : s.Inv) (hs : s.seq = .idle) (d : Desc) (rest : List Desc) :
    (s.accept d rest).Inv :=
  have hcs : s.cs ≠ .asserted := h.released (by simp [hs])
  have watched : (s.accept d rest).Watched := h.watched.port hcs (e := .accept d) rfl rfl rfl rfl
  { protocol := watched.good
    level := watched.level
    released := fun _ => hcs
    undriven := h.undriven
    halted := by simp [h.not_halted (by simp [hs])]
    faultCode := h.faultCode
    status := h.status
    ready := h.ready
    widths := h.widths
    memory := h.memory }

theorem inv_raiseFault {s : State} (h : s.Inv) (hs : s.cs ≠ .asserted) (c : FaultCode) :
    (s.raiseFault c).Inv :=
  have watched : (s.raiseFault c).Watched := h.watched.port hs (e := .fault c.code) rfl rfl rfl rfl
  { protocol := watched.good
    level := watched.level
    released := fun _ => hs
    undriven := h.undriven
    halted := by simpa using c.code_pos
    faultCode := c.code_le
    status := h.status
    ready := h.ready
    widths := h.widths
    memory := h.memory }

theorem inv_respond {s : State} (h : s.Inv) (hs : s.cs ≠ .asserted) (hseq : s.seq = .busy) (st : Status)
    (i0 i1 : Word) : (s.respond st i0 i1).Inv :=
  have watched : (s.respond st i0 i1).Watched := h.watched.port hs (e := .rsp st.code i0 i1) rfl rfl rfl rfl
  { protocol := watched.good
    level := watched.level
    released := fun _ => hs
    undriven := h.undriven
    halted := by simp [h.not_halted (by simp [hseq])]
    faultCode := h.faultCode
    status := st.code_ne_three
    ready := h.ready
    widths := h.widths
    memory := h.memory }

/-- A write in mode READY finds chip select released and driven, so its brackets start deasserted (R294). -/
theorem State.Inv.ready_deasserted {s : State} (h : s.Inv) (ready : s.mode = .ready)
    (hs : s.cs ≠ .asserted) : s.cs = .deasserted := by
  have driven := (h.ready ready).2
  cases hcs : s.cs <;> simp_all

theorem inv_written {s t : State} (h : s.Inv) (ready : s.mode = .ready) (hs : s.cs ≠ .asserted)
    (hseq : s.seq = .busy) (w : Written s t) : t.Inv := by
  have hcs := h.ready_deasserted ready hs
  have watched := h.watched.written hcs w
  have kept := w.kept
  obtain ⟨⟨halloc, hbuf, hbus, hdevice, hmask, hset, hclr⟩, hdriven⟩ := h.ready ready
  obtain ⟨es, -, hes⟩ := w.brackets
  exact
    { protocol := watched.good
      level := watched.level
      released := fun hne => absurd (kept.seq.trans hseq) hne
      undriven := fun hu => by simp [kept.mode, ready] at hu
      halted := by rw [kept.seq, kept.fault]; exact h.halted
      faultCode := by rw [kept.fault]; exact h.faultCode
      status := by rw [kept.rsp]; exact h.status
      ready := fun _ => by
        refine ⟨⟨?_, ?_, ?_, ?_, ?_, ?_, ?_⟩, hes.driven hdriven⟩
        · rw [kept.bufAllocated, halloc]
        · rw [w.buf hbuf, kept.params]
        · rw [kept.busContext, hbus]
        · rw [kept.deviceHandle, hdevice]
        · rw [kept.pins]; exact hmask
        · rw [kept.pins, kept.params, hset]
        · rw [kept.pins, kept.params, hclr]
      widths := by rw [kept.pins, kept.params, kept.bufBase]; exact h.widths
      memory := by rw [kept.mem]; exact h.memory }

/-- After its calls `open` leaves UNINIT, so the invariant's clause about chip select there asks nothing. -/
theorem inv_opening {s u : State} (h : s.Inv) (hm : s.mode = .uninit) (hseq : s.seq = .busy)
    (o : Opening s u) {m : Mode} (left : m ≠ .uninit) (ready : m = .ready → u.ReadyInv) :
    State.Inv { u with mode := m } := by
  have watched := h.watched.opening (h.undriven hm) o
  obtain ⟨-, -, hbase⟩ := h.widths
  exact
    { protocol := watched.good
      level := watched.level
      released := fun hne => absurd (o.seq.trans hseq) hne
      undriven := fun hu => absurd hu left
      halted := by simpa [o.seq, o.fault] using h.halted
      faultCode := by simpa [o.fault] using h.faultCode
      status := by simpa [o.rsp] using h.status
      ready := fun hr => ⟨ready hr, by simp [o.cs]⟩
      widths := by
        simp only [o.pins, o.params]
        exact ⟨s.bindPins_widths.1, s.bindPins_widths.2, o.bufBase hbase⟩
      memory := by simpa [o.env] using h.memory }

/-- `open` with a negative chip-select pin fails before it drives anything (R141, R149). -/
theorem inv_pinInvalid {s : State} (h : s.Inv) (hs : s.cs ≠ .asserted) (hseq : s.seq = .busy) :
    (s.initError .csPinInvalid).Inv :=
  have failed : State.Inv { s with mode := .failed } :=
    ⟨h.protocol, h.level, h.released, nofun, h.halted, h.faultCode, h.status, nofun, h.widths, h.memory⟩
  inv_respond failed hs hseq .initError InitCause.csPinInvalid.code 0

theorem inv_openEnd {s t : State} (h : s.Inv) (hm : s.mode = .uninit) (hs : s.cs ≠ .asserted)
    (hseq : s.seq = .busy) (hend : OpenEnd s t) : t.Inv := by
  cases hend with
  | badPin => exact inv_raiseFault h hs .badPin
  | pinInvalid => exact inv_pinInvalid h hs hseq
  | answered o m left ready st i0 i1 =>
    exact inv_respond (inv_opening h hm hseq o left ready) (by simp [o.cs]) (o.seq.trans hseq) st i0 i1

theorem inv_writeEnd {s t : State} (h : s.Inv) (hs : s.cs ≠ .asserted) (hseq : s.seq = .busy)
    (hend : WriteEnd s t) : t.Inv := by
  cases hend with
  | faulted c => exact inv_raiseFault h hs c
  | answered w ready released st i0 i1 =>
    exact inv_respond (inv_written h ready hs hseq w) (released hs) (w.kept.seq.trans hseq) st i0 i1
  | waits w ready => exact inv_written h ready hs hseq w

/-- Settles O44: every clause is a fact about the fixed state of reset. -/
theorem resetMeetsTheInvariant : Obligations.ResetMeetsTheInvariant where
  protocol := rfl
  level := rfl
  released := fun _ => by decide
  undriven := fun _ => rfl
  halted := by decide
  faultCode := by decide
  status := by decide
  ready := nofun
  widths := ⟨Nat.two_pow_pos _, Nat.two_pow_pos _, Nat.two_pow_pos _⟩
  memory := reset_memory_wf

/-- Settles O45: acceptance keeps the invariant, and so does each end of a request. -/
theorem everyStepKeepsTheInvariant : Obligations.EveryStepKeepsTheInvariant := by
  unfold Obligations.EveryStepKeepsTheInvariant
  intro s t h hstep
  obtain ⟨hseq, ⟨-, rfl⟩ | ⟨d, rest, ⟨hm, hend⟩ | hend⟩⟩ := step_ends hstep
  · exact inv_idleStep h
  · exact inv_openEnd (inv_accept h hseq d rest) hm (h.released (by simp [hseq])) rfl hend
  · exact inv_writeEnd (inv_accept h hseq d rest) (h.released (by simp [hseq])) rfl hend

end Sys2Proof.Machine
end

section
/-! PROOFS. Statements about one step: its cases (O8 to O11), what it leaves alone, what it adds to the trace
(O47 to O50), what `open` reads (O36), and the phases of a record (O42). -/

namespace Sys2Proof.Machine

open Sys2Proof.Statements

/-! ### The cases of a step -/

theorem step_accepts {s : State} {d : Desc} {rest : List Desc} (hs : s.seq = .idle)
    (hreq : s.env.requests = d :: rest) : step s = perform d (s.accept d rest) := by
  simp [step, hs, State.fetch, hreq]

theorem perform_request {d : Desc} {s : State} {i : Instr} (h : decode s.params.addrW d = .request i) :
    perform d s = exec i s := by
  simp [perform, State.decodeDesc, h]

theorem perform_rejected {d : Desc} {s : State} {why : Reject} (h : decode s.params.addrW d = .rejected why) :
    perform d s = .next (s.raiseFault .illegalRequest) := by
  simp [perform, State.decodeDesc, h, refuseRequest]

/-- Settles O8. -/
theorem stepPerformsTheDecodedRequest : Obligations.StepPerformsTheDecodedRequest := by
  unfold Obligations.StepPerformsTheDecodedRequest
  intro s d rest i hs hreq hdec
  rw [step_accepts hs hreq, perform_request (s := s.accept d rest) hdec]
  rfl

/-- Settles O9. -/
theorem refusedDescriptorRaisesIllegalRequest : Obligations.RefusedDescriptorRaisesIllegalRequest := by
  unfold Obligations.RefusedDescriptorRaisesIllegalRequest
  intro s d rest why hs hreq hdec
  rw [step_accepts hs hreq, perform_rejected (s := s.accept d rest) hdec]
  simp [State.raiseFault, State.accept, FaultCode.code]

/-- Settles O10. -/
theorem idleStepOnlyEndsTheResponsePulse : Obligations.IdleStepOnlyEndsTheResponsePulse := by
  unfold Obligations.IdleStepOnlyEndsTheResponsePulse
  intro s hs hreq
  simp [step, hs, State.fetch, hreq, State.idleStep]

/-- Settles O11. -/
theorem noStepWhenHaltedHungOrStuck : Obligations.NoStepWhenHaltedHungOrStuck := by
  unfold Obligations.NoStepWhenHaltedHungOrStuck
  intro s
  refine ⟨fun hs => ?_, fun hs hw => ?_, fun hs hw => ?_⟩
  · simp [step, hs]
  · simp [step, hs, hw, busyFault]
  · simp [step, hs, hw, busyFault]

/-! ### What no request writes -/

/-- Every end of a request leaves the host's side: the configuration inputs, host memory and the
parameters (R52, R53). -/
structure SameHost (s t : State) : Prop where
  params : t.params = s.params
  cfg : t.cfg = s.cfg
  mem : t.env.mem = s.env.mem

theorem OpenEnd.sameHost {s t : State} (h : OpenEnd s t) : SameHost s t := by
  cases h with
  | badPin => exact ⟨rfl, rfl, rfl⟩
  | pinInvalid => exact ⟨rfl, rfl, rfl⟩
  | answered o m left ready st i0 i1 => exact ⟨o.params, o.cfg, congrArg Env.mem o.env⟩

theorem WriteEnd.sameHost {s t : State} (h : WriteEnd s t) : SameHost s t := by
  cases h with
  | faulted c => exact ⟨rfl, rfl, rfl⟩
  | answered w ready released st i0 i1 => exact ⟨w.kept.params, w.kept.cfg, w.kept.mem⟩
  | waits w ready => exact ⟨w.kept.params, w.kept.cfg, w.kept.mem⟩

theorem step_sameHost {s t : State} (h : step s = .next t) : SameHost s t := by
  obtain ⟨-, ⟨-, rfl⟩ | ⟨d, rest, ⟨-, hend⟩ | hend⟩⟩ := step_ends h
  · exact ⟨rfl, rfl, rfl⟩
  · exact ⟨hend.sameHost.params, hend.sameHost.cfg, hend.sameHost.mem⟩
  · exact ⟨hend.sameHost.params, hend.sameHost.cfg, hend.sameHost.mem⟩

/-- Settles O47. -/
theorem noStepWritesHostMemory : Obligations.NoStepWritesHostMemory := by
  unfold Obligations.NoStepWritesHostMemory
  intro s t h
  have same := step_sameHost h
  exact ⟨same.cfg, fun a => by rw [same.mem, same.params]⟩

/-! ### What a request adds to the trace -/

/-- The events before a response or a fault: those of a write, and those of `open`. -/
def Event.isInner (p : Params) (e : Event) : Bool :=
  match e with
  | .pinCfg _ => true
  | _ => e.isWriteEvent p || e.isBusCall

theorem Event.isInner_of_isWriteEvent {p : Params} {e : Event} (h : e.isWriteEvent p = true) :
    e.isInner p = true := by
  cases e <;> simp_all [Event.isInner]

theorem Event.isInner_of_isBusCall {p : Params} {e : Event} (h : e.isBusCall = true) :
    e.isInner p = true := by
  cases e <;> simp_all [Event.isInner]

/-- A request adds inner events, and after them its one response, its one fault, or nothing when it waits:
then `seq` and `rsp_valid` say which (R51, R260, R266). -/
inductive Adds (s t : State) : Prop
  | responds (es : List Event) (inner : ∀ e ∈ es, e.isInner s.params = true) (st : Status) (i0 i1 : Word)
      (trace : t.trace = s.trace ++ es ++ [.rsp st.code i0 i1]) (seq : t.seq = .idle)
      (valid : t.rsp.valid = true)
  | faults (c : FaultCode) (eq : t = s.raiseFault c)
  | waits (es : List Event) (inner : ∀ e ∈ es, e.isInner s.params = true) (trace : t.trace = s.trace ++ es)
      (seq : t.seq = s.seq) (rsp : t.rsp = s.rsp)

theorem Opening.inner {s u : State} (o : Opening s u) :
    ∃ es, u.trace = s.trace ++ es ∧ ∀ e ∈ es, e.isInner s.params = true := by
  obtain ⟨calls, htrace, hcalls⟩ := o.trace
  refine ⟨_, htrace, ?_⟩
  simp only [List.forall_mem_cons]
  exact ⟨rfl, rfl, rfl, fun e he => Event.isInner_of_isBusCall (hcalls e he)⟩

theorem Written.inner {s u : State} (w : Written s u) :
    ∃ es, u.trace = s.trace ++ es ∧ ∀ e ∈ es, e.isInner s.params = true := by
  obtain ⟨es, htrace, hes⟩ := w.brackets
  exact ⟨es, htrace, fun e he => Event.isInner_of_isWriteEvent (hes.isWriteEvent e he)⟩

theorem OpenEnd.adds {s t : State} (h : OpenEnd s t) : Adds s t := by
  cases h with
  | badPin => exact .faults .badPin rfl
  | pinInvalid => exact .responds [] (by simp) .initError InitCause.csPinInvalid.code 0 (by simp [Status.code]) rfl rfl
  | answered o m left ready st i0 i1 =>
    obtain ⟨es, htrace, hes⟩ := o.inner
    exact .responds es hes st i0 i1 (by simp [htrace]) rfl rfl

theorem WriteEnd.adds {s t : State} (h : WriteEnd s t) : Adds s t := by
  cases h with
  | faulted c => exact .faults c rfl
  | answered w ready released st i0 i1 =>
    obtain ⟨es, htrace, hes⟩ := w.inner
    exact .responds es hes st i0 i1 (by simp [htrace]) rfl rfl
  | waits w ready =>
    obtain ⟨es, htrace, hes⟩ := w.inner
    exact .waits es hes htrace w.kept.seq w.kept.rsp

/-- A step waits for a request, or accepts one and adds its events. -/
theorem step_adds {s t : State} (h : step s = .next t) : s.seq = .idle ∧
    ((s.env.requests = [] ∧ t = s.idleStep) ∨ ∃ d rest, Adds (s.accept d rest) t) := by
  obtain ⟨hseq, hidle | ⟨d, rest, ⟨-, hend⟩ | hend⟩⟩ := step_ends h
  · exact ⟨hseq, .inl hidle⟩
  · exact ⟨hseq, .inr ⟨d, rest, hend.adds⟩⟩
  · exact ⟨hseq, .inr ⟨d, rest, hend.adds⟩⟩

/-! ### The record rules (O48) -/

/-- What a legal record is, in the numbers of R47, R81, R110 to R112. -/
theorem record_rules_of_legal {p : Params} {r : Transaction} (h : r.legal p = true) :
    (r.commandBits = 8 ∧ r.addressBits = 24 ∧ (r.commandValue = 0x0002 ∨ r.commandValue = 0x0032) ∨
        r.commandBits = 0 ∧ r.addressBits = 0 ∧ r.commandValue = 0 ∧ r.addressValue = 0) ∧
      r.dummyBits = 0 ∧
      (8 * r.payload.length < 2 ^ 32 → r.payloadBitLength.toNat = 8 * r.payload.length) ∧
      (r.payload.length ≤ 2 * p.cap.val ∨ p.cap.val = 1 ∧ r.commandValue = 0x0002 ∧ r.payload.length = 4) ∧
      (r.isFirstInSequence = true ↔ r.commandBits = 8) ∧ r.reuseFraming = !r.isFirstInSequence ∧
      r.addressValue.toNat < 2 ^ 16 := by
  simp only [Transaction.legal, Transaction.fits, Bool.and_eq_true, Bool.or_eq_true, beq_iff_eq,
    decide_eq_true_eq, and_assoc] at h
  obtain ⟨form, dummy, bits, size, first, reuse, high⟩ := h
  refine ⟨form, dummy, ?_, size, by simp [first], reuse, ?_⟩
  · intro hfit
    rw [bits, bitLength_toNat _ hfit]
  · have hhigh : r.addressValue.toNat / 2 ^ 16 % 2 ^ 16 = 0 := by
      simpa [BitVec.extractLsb'_toNat, Nat.shiftRight_eq_div_pow] using congrArg BitVec.toNat high
    have := r.addressValue.isLt
    omega

/-- An inner event that is a TXN is a write's, and legal. -/
theorem Event.legal_of_isInner {p : Params} {r : Transaction} {a : Option SubmitAnswer}
    (h : (Event.txn r a).isInner p = true) : r.legal p = true := by
  simpa [Event.isInner, Event.isWriteEvent, Event.isBusCall] using h

/-- The events that a request adds, and its legal transactions. -/
theorem Adds.legal {s t : State} (h : Adds s t) : ∃ es, t.trace = s.trace ++ es ∧
    ∀ r a, Event.txn r a ∈ es → r.legal s.params = true := by
  cases h with
  | responds es inner st i0 i1 trace seq valid =>
    refine ⟨es ++ [.rsp st.code i0 i1], by rw [trace, List.append_assoc], fun r a hmem => ?_⟩
    simp only [List.mem_append, List.mem_singleton, reduceCtorEq, or_false] at hmem
    exact Event.legal_of_isInner (inner _ hmem)
  | faults c eq => exact ⟨[.fault c.code], eq ▸ rfl, by simp⟩
  | waits es inner trace seq rsp => exact ⟨es, trace, fun r a hmem => Event.legal_of_isInner (inner _ hmem)⟩

/-- Settles O48: what a step adds is the acceptance and the request's events, and its TXNs are legal. -/
theorem submittedRecordsObeyTheRecordRules : Obligations.SubmittedRecordsObeyTheRecordRules := by
  unfold Obligations.SubmittedRecordsObeyTheRecordRules
  intro s t h
  obtain ⟨-, ⟨-, rfl⟩ | ⟨d, rest, hadds⟩⟩ := step_adds h
  · exact ⟨[], by simp, by simp⟩
  · obtain ⟨es, htrace, hlegal⟩ := hadds.legal
    refine ⟨.accept d :: es, by simp [htrace], fun r a hmem => ?_⟩
    simp only [List.mem_cons, reduceCtorEq, false_or] at hmem
    exact record_rules_of_legal (hlegal r a hmem)

/-! ### Faults come first (O49) -/

/-- Settles O49: an answered request ends IDLE and a waiting one BUSY, so a HALTED engine raised its fault
right after acceptance. -/
theorem faultsPrecedeEveryExternalEffect : Obligations.FaultsPrecedeEveryExternalEffect := by
  unfold Obligations.FaultsPrecedeEveryExternalEffect
  intro s t h halted
  obtain ⟨hseq, ⟨-, rfl⟩ | ⟨d, rest, hadds⟩⟩ := step_adds h
  · simp [hseq] at halted
  · cases hadds with
    | responds es inner st i0 i1 trace seq valid => simp [seq] at halted
    | waits es inner trace seq rsp => simp [seq] at halted
    | faults c eq =>
      subst eq
      exact ⟨d, c.code, by simp, rfl, rfl, rfl, rfl, rfl, rfl, rfl, fun hinv => hinv.released (by simp [hseq])⟩

/-! ### Responses (O50) -/

theorem responses_append (trace es : List Event) :
    responses (trace ++ es) = responses trace + responses es := List.countP_append

theorem responses_inner {p : Params} {es : List Event} (h : ∀ e ∈ es, e.isInner p = true) :
    responses es = 0 := by
  refine List.countP_eq_zero.mpr fun e he => ?_
  have := h e he
  cases e <;> simp_all [Event.isInner, Event.isWriteEvent, Event.isBusCall]

/-- A request adds one response when it ends IDLE, and `rsp_valid` says so. -/
theorem Adds.responses_eq {s t : State} (h : Adds s t) (hseq : s.seq = .busy) (hvalid : s.rsp.valid = false) :
    responses t.trace = responses s.trace + (if t.seq = .idle then 1 else 0) ∧
      (t.seq = .idle ↔ t.rsp.valid = true) := by
  cases h with
  | responds es inner st i0 i1 trace seq valid =>
    rw [trace, responses_append, responses_append, responses_inner inner]
    exact ⟨by rw [if_pos seq]; rfl, by simp [seq, valid]⟩
  | faults c eq =>
    subst eq
    exact ⟨responses_append s.trace [.fault c.code], by simp [hvalid]⟩
  | waits es inner trace seq rsp =>
    rw [trace, responses_append, responses_inner inner]
    simp [seq, rsp, hseq, hvalid]

/-- Settles O50. -/
theorem oneResponsePerCompletedRequest : Obligations.OneResponsePerCompletedRequest := by
  unfold Obligations.OneResponsePerCompletedRequest
  intro s t hreq h
  obtain ⟨-, ⟨hnone, -⟩ | ⟨d, rest, hadds⟩⟩ := step_adds h
  · exact absurd hnone hreq
  · have haccept : responses (s.accept d rest).trace = responses s.trace := responses_append s.trace [.accept d]
    rw [← haccept]
    exact hadds.responses_eq rfl rfl

/-! ### What an `open` reads (O36) -/

/-- A write outside READY (R265). -/
theorem exec_write_notReady {i : Instr} {s : State} (hi : isWrite i = true) (hs : s.mode ≠ .ready) :
    exec i s = .next (s.raiseFault .notReady) := by
  cases i with
  | openEngine => cases hi
  | reservedB low => cases hi
  | reservedCtoF low => cases hi
  | _ =>
    simp only [exec, execWriteCommand, execWriteCommand16, execWriteByte, execWriteWord,
      execWriteCommandWithBytes, execWriteCommandWithWords, singleShot, execWriteRepeated,
      execWritePixelStream, execWriteByteStream, execWritePattern, whenReady_notReady hs]

/-- In UNINIT every request but `open` is a fault that the request alone decides (R105, R265). -/
theorem exec_uninit (i : Instr) : i = .openEngine ∨
    ∃ c, ∀ s : State, s.mode = .uninit → exec i s = .next (s.raiseFault c) := by
  cases i with
  | openEngine => exact .inl rfl
  | reservedB low => exact .inr ⟨.illegalRequest, fun _ _ => rfl⟩
  | reservedCtoF low => exact .inr ⟨.illegalRequest, fun _ _ => rfl⟩
  | _ => exact .inr ⟨.notReady, fun s hs => exec_write_notReady rfl (by simp [hs])⟩

/-- What O36 compares of the two ends of a request. -/
structure Alike (t u : State) : Prop where
  trace : u.trace = t.trace
  rsp : u.rsp = t.rsp
  seq : u.seq = t.seq
  fault : u.fault = t.fault
  mode : u.mode = t.mode
  platform : u.platform = t.platform
  ready : t.mode = .ready → u.pins = t.pins ∧ u.xfer = t.xfer ∧ u.bufBase = t.bufBase ∧ u.buf = t.buf

/-- An end outside READY asks nothing of the binding. -/
theorem alike_of_not_ready {t u : State} (trace : u.trace = t.trace) (rsp : u.rsp = t.rsp)
    (seq : u.seq = t.seq) (fault : u.fault = t.fault) (mode : u.mode = t.mode)
    (platform : u.platform = t.platform) (hm : t.mode ≠ .ready) : Alike t u :=
  ⟨trace, rsp, seq, fault, mode, platform, fun h => absurd h hm⟩

theorem alike_openDevice (v : State) (txn : Transaction) :
    Alike v.openDevice (State.openDevice { v with txn := txn }) := by
  cases h : v.env.devReg with
  | none =>
    simp only [State.openDevice, h]
    exact alike_of_not_ready rfl rfl rfl rfl rfl rfl (by simp)
  | some handle =>
    simp only [State.openDevice, h]
    exact ⟨rfl, rfl, rfl, rfl, rfl, rfl, fun _ => ⟨rfl, rfl, rfl, rfl⟩⟩

/-- The allocator's answer overwrites the old `bufBase` (R38, R146). -/
theorem alike_openBuffer (v : State) (base : Nat) (txn : Transaction) :
    Alike v.openBuffer (State.openBuffer { v with bufBase := base, txn := txn }) := by
  have same : State.allocAnswer { v with bufBase := base, txn := txn } = v.allocAnswer := rfl
  cases h : v.allocAnswer with
  | none =>
    simp only [State.openBuffer, same, h]
    exact alike_of_not_ready rfl rfl rfl rfl rfl rfl (by simp)
  | some held =>
    simp only [State.openBuffer, same, h]
    exact alike_openDevice _ txn

theorem alike_openBus (v : State) (base : Nat) (txn : Transaction) :
    Alike v.openBus (State.openBus { v with bufBase := base, txn := txn }) := by
  cases h : v.env.busInit with
  | none =>
    simp only [State.openBus, h]
    exact alike_of_not_ready rfl rfl rfl rfl rfl rfl (by simp)
  | some ctx =>
    simp only [State.openBus, h]
    exact alike_openBuffer _ base txn

/-- `open` binds the pins and resolves the TransferConfig from the configuration inputs before it reads
either (R142, R144). -/
theorem execOpen_alike {s : State} (pins : PinBinding) (xfer : TransferConfig) (base : Nat) (txn : Transaction)
    (hs : s.mode = .uninit) : ∃ t u, execOpen s = .next t ∧
      execOpen { s with pins := pins, xfer := xfer, bufBase := base, txn := txn } = .next u ∧ Alike t u := by
  have hu : ¬ s.mode ≠ .uninit := not_not.mpr hs
  by_cases hneg : negative8 s.cfg.cs = true
  · refine ⟨_, _, by simp only [execOpen, if_neg hu, if_pos hneg]; rfl,
      by simp only [execOpen, if_neg hu, if_pos hneg]; rfl, ?_⟩
    exact alike_of_not_ready rfl rfl rfl rfl rfl rfl (by simp)
  by_cases hpin : s.params.numPins ≤ s.cfg.cs.toNat ∨ 32 ≤ pinBit s.params s.cfg.cs.toNat
  · refine ⟨_, _, by simp only [execOpen, if_neg hu, if_neg hneg, if_pos hpin]; rfl,
      by simp only [execOpen, if_neg hu, if_neg hneg, if_pos hpin]; rfl, ?_⟩
    exact alike_of_not_ready rfl rfl rfl rfl rfl rfl (by simp [hs])
  · refine ⟨_, _, by simp only [execOpen, if_neg hu, if_neg hneg, if_neg hpin]; rfl,
      by simp only [execOpen, if_neg hu, if_neg hneg, if_neg hpin]; rfl, ?_⟩
    exact alike_openBus s.bindPins.configureCsPin.resolveTransferConfig base txn

/-- Settles O36. -/
theorem unspecifiedResetValuesAreNeverRead : Obligations.UnspecifiedResetValuesAreNeverRead := by
  unfold Obligations.UnspecifiedResetValuesAreNeverRead
  intro i s pins xfer base txn hs
  rcases exec_uninit i with rfl | ⟨c, hfault⟩
  · obtain ⟨t, u, ht, hu, a⟩ := execOpen_alike pins xfer base txn hs
    exact ⟨t, u, ht, hu, a.trace, a.rsp, a.seq, a.fault, a.mode, a.platform, a.ready⟩
  · exact ⟨_, _, hfault s hs, hfault _ hs, rfl, rfl, rfl, rfl, rfl, rfl, fun hr => by simp [hs] at hr⟩

/-! ### The phases of a record (O42) -/

theorem bitsOf_length {w : Nat} (v : BitVec w) : (bitsOf v).length = w := by simp [bitsOf]

theorem payloadBits_length (bytes : List Byte) : (payloadBits bytes).length = 8 * bytes.length := by
  induction bytes with
  | nil => rfl
  | cons b bytes ih =>
    simp only [payloadBits, List.flatMap_cons, List.length_append, bitsOf_length, List.length_cons] at ih ⊢
    omega

/-- Settles O42. -/
theorem phasesFollowTheFormOfTheRecord : Obligations.PhasesFollowTheFormOfTheRecord := by
  unfold Obligations.PhasesFollowTheFormOfTheRecord
  intro p held cv av bytes
  by_cases h : bytes = []
  · simp [wirePhases, dataPhase, h, bitsOf_length]
  · simp [wirePhases, dataPhase, h, bitsOf_length, payloadBits_length]

end Sys2Proof.Machine
end

section
/-! PROOFS. The one-event-a-step machine: what one tick can do, said once, and which ticks read host memory.
Then O52 and O54. -/

namespace Sys2Proof.Machine

open Sys2Proof.Statements

/-! ### What a tick can do -/

/-- `es` is added to the trace; `seq` and `waiting` stay. -/
structure TickAdds (s t : State) (es : List Event) : Prop where
  trace : t.trace = s.trace ++ es
  seq : t.seq = s.seq
  waiting : t.waiting = s.waiting

/-- An update of other fields. -/
theorem TickAdds.silent {s t : State} (trace : t.trace = s.trace) (seq : t.seq = s.seq)
    (waiting : t.waiting = s.waiting) : TickAdds s t [] := ⟨by simpa using trace, seq, waiting⟩

/-- The event is a response (R45, R60). -/
def Event.isRsp (e : Event) : Bool :=
  match e with
  | .rsp _ _ _ => true
  | _ => false

/-- What a tick can make of a state, but for the return to IDLE after a response: accept, fault, respond, add
one event or the two of a chip-select primitive, fill in an answer, or add nothing (R31, R85, R150). -/
inductive Ticked (s : State) (m : Micro) : Prop
  | accepts (d : Desc) (rest : List Desc) (idle : s.seq = .idle) (eq : m.st = s.accept d rest)
  | faults (c : FaultCode) (eq : m.st = s.raiseFault c)
  | responds (u : State) (silent : TickAdds s u []) (st : Status) (i0 i1 : Word)
      (eq : m = ⟨u.giveResponse st i0 i1, .done⟩)
  | adds (e : Event) (noRsp : e.isRsp = false) (eq : TickAdds s m.st [e])
  | drives (a : Nat) (w : Word) (l : CsLevel) (eq : TickAdds s m.st [.regWrite a w, .cs l])
  | answers (a : SubmitAnswer) (trace : m.st.trace = s.trace.dropLast ++ [.txn s.txn (some a)])
      (seq : m.st.seq = s.seq) (waiting : m.st.waiting = s.waiting)
  | reads (eq : TickAdds s m.st [])

theorem ticked_response {s : State} (st : Status) (i0 i1 : Word) : Ticked s ⟨s.giveResponse st i0 i1, .done⟩ :=
  .responds s (.silent rfl rfl rfl) st i0 i1 rfl

theorem TickAdds.refl (s : State) : TickAdds s s [] := .silent rfl rfl rfl

theorem body_start_adds (b : Body) (s : State) : TickAdds s (b.start s) [] := by
  cases b <;> exact .silent rfl rfl rfl

theorem ticked_select {s u : State} (h : TickAdds s u []) (j : Job) : Ticked s (selectTick j u) := by
  obtain ⟨trace, seq, waiting⟩ := body_start_adds j.body u.enterBracket
  exact .drives u.assertAddr u.pins.csMask .asserted
    ⟨by simp [selectTick, trace, h.trace], seq.trans h.seq, waiting.trans h.waiting⟩

theorem ticked_beginWrite {s : State} {run : State → Micro} (h : Ticked s (run s)) :
    Ticked s (beginWrite s run) := by
  unfold beginWrite
  split
  · exact h
  · exact .faults .notReady rfl

theorem ticked_beginSource {s : State} {empty aligned : Bool} {reps ptr : Word} {len : Nat}
    {go : State → Micro} (h : Ticked s (go s)) : Ticked s (beginSource s empty reps aligned ptr len go) := by
  unfold beginSource
  split
  · exact ticked_response _ _ _
  split
  · exact .faults _ rfl
  · exact h

/-! ### The first tick of `open` (R140, R141) -/

theorem beginOpen_reopen {s : State} (hm : s.mode ≠ .uninit) :
    beginOpen s = ⟨s.raiseFault .reopen, .idle⟩ := if_pos hm

theorem beginOpen_pinInvalid {s : State} (hm : s.mode = .uninit) (hneg : negative8 s.cfg.cs = true) :
    beginOpen s = ⟨s.giveInitError .csPinInvalid, .done⟩ := by
  rw [beginOpen, if_neg (not_not.mpr hm), if_pos hneg]

theorem beginOpen_badPin {s : State} (hm : s.mode = .uninit) (hneg : ¬ negative8 s.cfg.cs = true)
    (hpin : s.params.numPins ≤ s.cfg.cs.toNat ∨ 32 ≤ pinBit s.params s.cfg.cs.toNat) :
    beginOpen s = ⟨s.raiseFault .badPin, .idle⟩ := by
  rw [beginOpen, if_neg (not_not.mpr hm), if_neg hneg, if_pos hpin]

theorem beginOpen_pin {s : State} (hm : s.mode = .uninit) (hneg : ¬ negative8 s.cfg.cs = true)
    (hpin : ¬ (s.params.numPins ≤ s.cfg.cs.toNat ∨ 32 ≤ pinBit s.params s.cfg.cs.toNat)) :
    beginOpen s = ⟨s.bindPins.emit (.pinCfg s.bindPins.pins.csPin), .openPin⟩ := by
  rw [beginOpen, if_neg (not_not.mpr hm), if_neg hneg, if_neg hpin]

theorem ticked_beginOpen (s : State) : Ticked s (beginOpen s) := by
  unfold beginOpen
  split
  · exact .faults .reopen rfl
  split
  · exact .responds { s with mode := .failed } (.silent rfl rfl rfl) .initError InitCause.csPinInvalid.code 0 rfl
  split
  · exact .faults .badPin rfl
  · exact .adds (.pinCfg s.cfg.cs) rfl ⟨rfl, rfl, rfl⟩

/-! ### The first tick of every request -/

theorem ticked_beginSingle (s : State) (cv : Byte) (av : BitVec 24) (payload : List Byte) :
    Ticked s (beginSingle s cv av payload) := by
  unfold beginSingle
  exact ticked_beginWrite (ticked_select (.refl s) _)

theorem ticked_begin (i : Instr) (s : State) : Ticked s (beginTick i s) := by
  cases i <;> unfold beginTick
  case openEngine => exact ticked_beginOpen s
  case reservedB => exact .faults .illegalRequest rfl
  case reservedCtoF => exact .faults .illegalRequest rfl
  case writeRepeated value count =>
    refine ticked_beginWrite ?_
    split
    · exact ticked_response _ _ _
    · exact ticked_select (.refl s) _
  case writePixelStream ptr count =>
    refine ticked_beginWrite (ticked_beginSource ?_)
    exact ticked_select (.refl s) _
  case writeByteStream ptr count =>
    refine ticked_beginWrite (ticked_beginSource ?_)
    exact ticked_select (.refl s) _
  case writePattern ptr len reps =>
    refine ticked_beginWrite (ticked_beginSource ?_)
    refine ticked_select ?_ _
    exact .silent rfl rfl rfl
  all_goals exact ticked_beginSingle s _ _ _

theorem ticked_openBus (s : State) : Ticked s (openBusTick s) := by
  refine .adds (.busInit s.busInitArgs s.env.busInit) rfl ?_
  unfold openBusTick
  split <;> exact ⟨rfl, rfl, rfl⟩

theorem ticked_openBuffer (s : State) : Ticked s (openBufferTick s) := by
  refine .adds (.alloc (capBytes s.params) s.allocAnswer) rfl ?_
  unfold openBufferTick
  split <;> exact ⟨rfl, rfl, rfl⟩

theorem ticked_openDevice (s : State) : Ticked s (openDeviceTick s) := by
  refine .adds (.devReg (deviceFraming s.params) s.env.devReg) rfl ?_
  unfold openDeviceTick
  split <;> exact ⟨rfl, rfl, rfl⟩

theorem ticked_accept {s : State} {m : Micro} (h : acceptTick s = some m) : Ticked s m := by
  unfold acceptTick at h
  split at h
  next idle =>
    split at h
    · cases h
    next d rest _ =>
      split at h <;> cases h <;> exact .accepts d rest idle rfl
  · cases h

/-- After an Ok answer the loop's registers move on, and nothing else. -/
theorem afterOk_adds (j : Job) (s : State) : TickAdds s (afterOk j s).st [] := by
  unfold afterOk
  split
  · exact .silent rfl rfl rfl
  · split <;> exact .silent rfl rfl rfl

theorem ticked_answer {j : Job} {s : State} {m : Micro} (h : answerTick j s = some m) : Ticked s m := by
  unfold answerTick at h
  split at h
  · cases h
  next rest _ =>
    cases h
    obtain ⟨trace, seq, waiting⟩ := afterOk_adds j (s.answered rest .ok)
    exact .answers .ok (by simp [trace]) seq waiting
  next n rest _ =>
    cases h
    exact .answers (.err n) rfl rfl rfl

theorem afterBracket_adds (j : Job) (ok : Bool) (s : State) : TickAdds s (afterBracket j ok s).st [] := by
  unfold afterBracket
  split <;> exact .silent rfl rfl rfl

theorem ticked_deselect (j : Job) (ok : Bool) (s : State) : Ticked s (afterBracket j ok s.deassertSelect) := by
  obtain ⟨trace, seq, waiting⟩ := afterBracket_adds j ok s.deassertSelect
  exact .drives s.deassertAddr s.pins.csMask .deasserted ⟨by simp [trace], seq, waiting⟩

theorem ticked_reply (j : Job) (ok : Bool) (s : State) : Ticked s ⟨j.reply ok s, .done⟩ := by
  cases j <;> cases ok <;> exact ticked_response _ _ _

/-! ### Ticks at `fill` -/

/-- At `fill` a single-shot body submits its record (R176). -/
theorem fillTick_single {j : Job} {k : Nat} {cv : Byte} {av : BitVec 24} {payload : List Byte}
    (hb : j.body = .single cv av payload) (s : State) :
    fillTick j k s = some ⟨State.handOver { s with txn := framedTxn cv av payload }, .answer j⟩ := by
  simp [fillTick, hb]

/-- `writeRepeated` submits from the buffer it filled before its loop (R210). -/
theorem fillTick_reuse {j : Job} {k : Nat} (hb : j.body.fill = some .reuse) (s : State) :
    fillTick j k s = some ⟨(s.loadChunk .reuse s.plan.chunk.toNat).handOver, .answer j⟩ := by
  cases hj : j.body <;> simp_all [Body.fill, fillTick]

/-- A source fill whose chunk is whole submits it (R221, R231). -/
theorem fillTick_whole {j : Job} {k : Nat} {f : Fill} {s : State} (hb : j.body.fill = some f) (hf : f ≠ .reuse)
    (hk : k = s.plan.chunk.toNat) :
    fillTick j k s = some ⟨((f.finish s k).loadChunk f k).handOver, .answer j⟩ := by
  cases hj : j.body <;> simp_all [Body.fill] <;> subst hb <;> simp_all [fillTick, fillTick.sourceTick]

/-- Before that it reads one element (R221, R231). -/
theorem fillTick_element {j : Job} {k : Nat} {f : Fill} {s : State} (hb : j.body.fill = some f)
    (hf : f ≠ .reuse) (hk : k ≠ s.plan.chunk.toNat) :
    fillTick j k s = (f.element s k).map fun bs =>
      ⟨{ s with buf := overwriteAt s.buf (k * f.elemBytes) bs }, .fill j (k + 1)⟩ := by
  cases hj : j.body <;> simp_all [Body.fill] <;> subst hb <;> simp_all [fillTick, fillTick.sourceTick]

theorem handOver_adds {s u : State} (h : TickAdds s u []) : TickAdds s u.handOver [.txn u.txn none] :=
  ⟨by simp [h.trace], h.seq, h.waiting⟩

theorem finish_adds (f : Fill) (s : State) (n : Nat) : TickAdds s (f.finish s n) [] := by
  cases f <;> exact .silent rfl rfl rfl

theorem ticked_fillSource {j : Job} {k : Nat} {f : Fill} {s : State} {m : Micro} (hb : j.body.fill = some f)
    (hf : f ≠ .reuse) (h : fillTick j k s = some m) : Ticked s m := by
  by_cases hk : k = s.plan.chunk.toNat
  · rw [fillTick_whole hb hf hk] at h
    cases h
    obtain ⟨trace, seq, waiting⟩ := finish_adds f s k
    exact .adds _ rfl (handOver_adds (u := (f.finish s k).loadChunk f k) ⟨trace, seq, waiting⟩)
  · rw [fillTick_element hb hf hk] at h
    obtain ⟨bs, -, rfl⟩ := Option.map_eq_some_iff.mp h
    exact .reads (.silent rfl rfl rfl)

theorem ticked_fill {j : Job} {k : Nat} {s : State} {m : Micro} (h : fillTick j k s = some m) : Ticked s m := by
  cases hb : j.body with
  | single cv av payload =>
    rw [fillTick_single hb] at h
    cases h
    exact .adds (.txn (framedTxn cv av payload) none) rfl ⟨rfl, rfl, rfl⟩
  | repeated value count =>
    rw [fillTick_reuse (by rw [hb]; rfl)] at h
    cases h
    exact .adds _ rfl (handOver_adds (u := s.loadChunk .reuse s.plan.chunk.toNat) (.silent rfl rfl rfl))
  | pixels ptr count => exact ticked_fillSource (f := .pixel) (by rw [hb]; rfl) (by decide) h
  | bytes ptr count => exact ticked_fillSource (f := .byte) (by rw [hb]; rfl) (by decide) h

/-- Everything a tick can do. -/
theorem tick_cases {m m' : Micro} (h : tick m = some m') :
    (m.pos = .done ∧ m' = ⟨m.st.returnIdle, .idle⟩) ∨ (m.pos ≠ .done ∧ Ticked m.st m') := by
  obtain ⟨s, pos⟩ := m
  cases pos with
  | done => cases h; exact .inl ⟨rfl, rfl⟩
  | idle => exact .inr ⟨nofun, ticked_accept h⟩
  | begin i => cases h; exact .inr ⟨nofun, ticked_begin i s⟩
  | illegal => cases h; exact .inr ⟨nofun, .faults .illegalRequest rfl⟩
  | openPin => cases h; exact .inr ⟨nofun, .adds (.regWrite s.deassertAddr s.pins.csMask) rfl ⟨rfl, rfl, rfl⟩⟩
  | openLevel => cases h; exact .inr ⟨nofun, .adds (.cs .deasserted) rfl ⟨rfl, rfl, rfl⟩⟩
  | openBus => cases h; exact .inr ⟨nofun, ticked_openBus s⟩
  | openBuffer => cases h; exact .inr ⟨nofun, ticked_openBuffer s⟩
  | openDevice => cases h; exact .inr ⟨nofun, ticked_openDevice s⟩
  | openDone => cases h; exact .inr ⟨nofun, .responds { s with mode := .ready } (.silent rfl rfl rfl) _ _ _ rfl⟩
  | openFailed c =>
    cases h; exact .inr ⟨nofun, .responds { s with mode := .failed } (.silent rfl rfl rfl) _ _ _ rfl⟩
  | select j => cases h; exact .inr ⟨nofun, ticked_select (.refl s) j⟩
  | fill j k => exact .inr ⟨nofun, ticked_fill h⟩
  | answer j => exact .inr ⟨nofun, ticked_answer h⟩
  | deselect j ok => cases h; exact .inr ⟨nofun, ticked_deselect j ok s⟩
  | reply j ok => cases h; exact .inr ⟨nofun, ticked_reply j ok s⟩

/-! ### The response and the return to IDLE (O54) -/

/-- Equal traces have equal last events. -/
theorem append_eq_append_rsp {trace old : List Event} {e : Event} {status : BitVec 2} {i0 i1 : Word}
    (h : trace ++ [e] = old ++ [.rsp status i0 i1]) : e = .rsp status i0 i1 := by
  have := congrArg List.getLast? h
  simpa using this

/-- The response tick of a BUSY engine leaves it BUSY, at the position before the return to IDLE. -/
theorem Ticked.response {s : State} {m : Micro} (h : Ticked s m) (busy : s.seq = .busy) {status : BitVec 2}
    {i0 i1 : Word} (htrace : m.st.trace = s.trace ++ [.rsp status i0 i1]) :
    m.pos = .done ∧ m.st.seq = .busy ∧ m.st.rsp = response status i0 i1 := by
  cases h with
  | accepts d rest idle eq => simp [idle] at busy
  | faults c eq => simp [eq] at htrace
  | responds u silent st j0 j1 eq =>
    subst eq
    have htrace' : s.trace ++ [.rsp st.code j0 j1] = s.trace ++ [.rsp status i0 i1] := by
      simpa [silent.trace] using htrace
    cases append_eq_append_rsp htrace'
    exact ⟨rfl, silent.seq.trans busy, rfl⟩
  | adds e noRsp eq =>
    rw [eq.trace] at htrace
    cases append_eq_append_rsp htrace
    cases noRsp
  | drives a w l eq => rw [eq.trace] at htrace; simp at htrace
  | answers a trace seq waiting =>
    rw [trace] at htrace
    cases append_eq_append_rsp htrace
  | reads eq => rw [eq.trace] at htrace; simp at htrace

theorem Ticked.not_idle {s : State} {m : Micro} (h : Ticked s m) (busy : s.seq = .busy) : m.st.seq ≠ .idle := by
  cases h with
  | accepts d rest idle eq => simp [idle] at busy
  | faults c eq => simp [eq]
  | responds u silent st j0 j1 eq => subst eq; simp [silent.seq, busy]
  | adds e noRsp eq => simp [eq.seq, busy]
  | drives a w l eq => simp [eq.seq, busy]
  | answers a trace seq waiting => simp [seq, busy]
  | reads eq => simp [eq.seq, busy]

/-- Settles O54. -/
theorem idleFollowsTheResponse : Obligations.IdleFollowsTheResponse := by
  unfold Obligations.IdleFollowsTheResponse
  intro m m' h busy
  rcases tick_cases h with ⟨done, rfl⟩ | ⟨notDone, ticked⟩
  · exact ⟨fun status i0 i1 htrace => by simp at htrace, fun _ => rfl, by simp [done]⟩
  · exact ⟨fun status i0 i1 htrace => ticked.response busy htrace, fun done => absurd done notDone,
      by simp [ticked.not_idle busy, notDone]⟩

/-! ### Ticks and host memory (O52) -/

/-- The tick reads one element of the source. -/
def Micro.Reads (m : Micro) : Prop :=
  ∃ j k f, m.pos = .fill j k ∧ j.body.fill = some f ∧ f ≠ .reuse ∧ k ≠ m.st.plan.chunk.toNat

/-- The state with another host memory. -/
def State.withMem (s : State) (mem : Memory) : State := { s with env := { s.env with mem := mem } }

theorem acceptTick_withMem (s : State) (mem : Memory) :
    acceptTick (s.withMem mem) = (acceptTick s).map (withMemory · mem) := by
  unfold acceptTick State.fetch
  by_cases hs : s.seq = .idle
  · cases hreq : s.env.requests with
    | nil => simp [State.withMem, hs, hreq]
    | cons d rest =>
      cases hdec : s.decodeDesc d <;>
        simp_all [State.withMem, State.decodeDesc, withMemory, State.accept]
  · simp [State.withMem, hs]

theorem selectTick_withMem (j : Job) (s : State) (mem : Memory) :
    selectTick j (s.withMem mem) = withMemory (selectTick j s) mem := by
  cases j with
  | pattern ptr len left => rfl
  | once b => cases b <;> rfl

theorem beginWrite_withMem {s : State} {run : State → Micro} {mem : Memory}
    (h : run (s.withMem mem) = withMemory (run s) mem) :
    beginWrite (s.withMem mem) run = withMemory (beginWrite s run) mem := by
  by_cases hm : s.mode = .ready
  · simpa [beginWrite, State.withMem, hm] using h
  · simp [beginWrite, State.withMem, hm, withMemory, State.raiseFault]

theorem beginSource_withMem {s : State} {empty aligned : Bool} {reps ptr : Word} {len : Nat}
    {go : State → Micro} {mem : Memory} (h : go (s.withMem mem) = withMemory (go s) mem) :
    beginSource (s.withMem mem) empty reps aligned ptr len go =
      withMemory (beginSource s empty reps aligned ptr len go) mem := by
  have same : (s.withMem mem).sourceFault aligned ptr len = s.sourceFault aligned ptr len := rfl
  unfold beginSource
  rw [same]
  cases empty
  · cases s.sourceFault aligned ptr len with
    | none => exact h
    | some c => rfl
  · rfl

theorem beginOpen_withMem (s : State) (mem : Memory) :
    beginOpen (s.withMem mem) = withMemory (beginOpen s) mem := by
  by_cases hm : s.mode = .uninit
  · by_cases hneg : negative8 s.cfg.cs = true
    · rw [beginOpen_pinInvalid hm hneg, beginOpen_pinInvalid (s := s.withMem mem) hm hneg]; rfl
    · by_cases hpin : s.params.numPins ≤ s.cfg.cs.toNat ∨ 32 ≤ pinBit s.params s.cfg.cs.toNat
      · rw [beginOpen_badPin hm hneg hpin, beginOpen_badPin (s := s.withMem mem) hm hneg hpin]; rfl
      · rw [beginOpen_pin hm hneg hpin, beginOpen_pin (s := s.withMem mem) hm hneg hpin]; rfl
  · rw [beginOpen_reopen hm, beginOpen_reopen (s := s.withMem mem) hm]; rfl

theorem beginTick_withMem (i : Instr) (s : State) (mem : Memory) :
    beginTick i (s.withMem mem) = withMemory (beginTick i s) mem := by
  cases i <;> unfold beginTick
  case openEngine => exact beginOpen_withMem s mem
  case reservedB => rfl
  case reservedCtoF => rfl
  case writeRepeated value count =>
    refine beginWrite_withMem ?_
    split
    · rfl
    · exact selectTick_withMem _ s mem
  case writePixelStream ptr count =>
    exact beginWrite_withMem (beginSource_withMem (selectTick_withMem _ s mem))
  case writeByteStream ptr count =>
    exact beginWrite_withMem (beginSource_withMem (selectTick_withMem _ s mem))
  case writePattern ptr len reps => exact beginWrite_withMem (beginSource_withMem rfl)
  all_goals exact beginWrite_withMem (selectTick_withMem _ s mem)

theorem openBusTick_withMem (s : State) (mem : Memory) :
    openBusTick (s.withMem mem) = withMemory (openBusTick s) mem := by
  cases h : s.env.busInit <;> simp [openBusTick, State.withMem, h, withMemory, State.emit, State.busInitArgs]

theorem openBufferTick_withMem (s : State) (mem : Memory) :
    openBufferTick (s.withMem mem) = withMemory (openBufferTick s) mem := by
  have same : (s.withMem mem).allocAnswer = s.allocAnswer := rfl
  unfold openBufferTick
  rw [same]
  cases s.allocAnswer <;> rfl

theorem openDeviceTick_withMem (s : State) (mem : Memory) :
    openDeviceTick (s.withMem mem) = withMemory (openDeviceTick s) mem := by
  cases h : s.env.devReg <;> simp [openDeviceTick, State.withMem, h, withMemory, State.emit]

theorem afterOk_withMem (j : Job) (s : State) (mem : Memory) :
    afterOk j (s.withMem mem) = withMemory (afterOk j s) mem := by
  unfold afterOk
  cases j.body.fill with
  | none => rfl
  | some f =>
    by_cases hr : s.chunkDone.plan.remaining = 0
    · have hr' : (s.withMem mem).chunkDone.plan.remaining = 0 := hr
      simp only [if_pos hr, if_pos hr']; rfl
    · have hr' : ¬ (s.withMem mem).chunkDone.plan.remaining = 0 := hr
      simp only [if_neg hr, if_neg hr']; rfl

theorem answerTick_withMem (j : Job) (s : State) (mem : Memory) :
    answerTick j (s.withMem mem) = (answerTick j s).map (withMemory · mem) := by
  have same : (s.withMem mem).env.submits = s.env.submits := rfl
  unfold answerTick
  rw [same]
  match s.env.submits with
  | [] => rfl
  | .ok :: rest => exact congrArg some (afterOk_withMem j (s.answered rest .ok) mem)
  | .err n :: rest => rfl

theorem afterBracket_withMem (j : Job) (ok : Bool) (s : State) (mem : Memory) :
    afterBracket j ok (s.withMem mem) = withMemory (afterBracket j ok s) mem := by
  match j, ok with
  | .pattern ptr len (left + 1), true => rfl
  | .pattern ptr len 0, true => rfl
  | .pattern ptr len (left + 1), false => rfl
  | .pattern ptr len 0, false => rfl
  | .once b, ok => rfl

/-- A fill that reads nothing submits, whatever host memory holds. -/
theorem fillTick_withMem {j : Job} {k : Nat} {s : State} (h : ¬ Micro.Reads ⟨s, .fill j k⟩) (mem : Memory) :
    fillTick j k (s.withMem mem) = (fillTick j k s).map (withMemory · mem) := by
  have whole {f : Fill} (hb : j.body.fill = some f) (hf : f ≠ .reuse) : k = s.plan.chunk.toNat :=
    by_contra fun hk => h ⟨j, k, f, rfl, hb, hf, hk⟩
  cases hj : j.body with
  | single cv av payload => rw [fillTick_single hj, fillTick_single hj]; rfl
  | repeated value count => 
    have hb : j.body.fill = some .reuse := by rw [hj]; rfl
    rw [fillTick_reuse hb, fillTick_reuse hb]; rfl
  | pixels ptr count =>
    have hb : j.body.fill = some .pixel := by rw [hj]; rfl
    have hk := whole hb (by decide)
    rw [fillTick_whole hb (by decide) hk, fillTick_whole (s := s.withMem mem) hb (by decide) hk]; rfl
  | bytes ptr count =>
    have hb : j.body.fill = some .byte := by rw [hj]; rfl
    have hk := whole hb (by decide)
    rw [fillTick_whole hb (by decide) hk, fillTick_whole (s := s.withMem mem) hb (by decide) hk]; rfl

/-- A tick that reads no element does the same with any other host memory. -/
theorem tick_withMemory {m : Micro} (h : ¬ m.Reads) (mem : Memory) :
    tick (withMemory m mem) = (tick m).map (withMemory · mem) := by
  obtain ⟨s, pos⟩ := m
  cases pos with
  | idle => exact acceptTick_withMem s mem
  | begin i => exact congrArg some (beginTick_withMem i s mem)
  | openBus => exact congrArg some (openBusTick_withMem s mem)
  | openBuffer => exact congrArg some (openBufferTick_withMem s mem)
  | openDevice => exact congrArg some (openDeviceTick_withMem s mem)
  | select j => exact congrArg some (selectTick_withMem j s mem)
  | fill j k => exact fillTick_withMem h mem
  | answer j => exact answerTick_withMem j s mem
  | deselect j ok => exact congrArg some (afterBracket_withMem j ok s.deassertSelect mem)
  | reply j ok => cases j <;> cases ok <;> rfl
  | _ => rfl

/-- An element is at most two bytes of host memory, at one place (R221, R231). -/
theorem element_reads {f : Fill} (hf : f ≠ .reuse) (s : State) (k : Nat) : ∃ a n, n ≤ 2 ∧ ∀ mem,
    (∀ i < n, Memory.read8 mem s.params.addrW (a + i) = s.env.mem.read8 s.params.addrW (a + i)) →
    f.element (s.withMem mem) k = f.element s k := by
  cases f with
  | reuse => exact absurd rfl hf
  | byte =>
    refine ⟨s.plan.srcAddr + k, 1, by omega, fun mem h => ?_⟩
    exact congrArg (Option.map fun b => [b]) (h 0 (by omega))
  | pixel =>
    refine ⟨s.plan.srcAddr + 2 * k, 2, by omega, fun mem h => ?_⟩
    have h0 := h 0 (by omega)
    have h1 := h 1 (by omega)
    have same : Memory.read16 mem s.params.addrW (s.plan.srcAddr + 2 * k) =
        s.env.mem.read16 s.params.addrW (s.plan.srcAddr + 2 * k) := by
      rw [Nat.add_zero] at h0
      simp only [Memory.read16, h0, h1]
    exact congrArg (Option.map fun w => le16 (normalize w)) same

/-- A tick that reads an element adds no event, and depends on no other byte of host memory. -/
theorem tick_reads {m m' : Micro} (hr : m.Reads) (h : tick m = some m') :
    m'.st.trace = m.st.trace ∧ ∃ a n, n ≤ 2 ∧ ∀ mem,
      (∀ k < n, Memory.read8 mem m.st.params.addrW (a + k) = m.st.env.mem.read8 m.st.params.addrW (a + k)) →
      tick (withMemory m mem) = some (withMemory m' mem) := by
  obtain ⟨s, pos⟩ := m
  obtain ⟨j, k, f, rfl, hb, hf, hk⟩ := hr
  replace h : fillTick j k s = some m' := h
  rw [fillTick_element hb hf hk] at h
  obtain ⟨bs, hbs, rfl⟩ := Option.map_eq_some_iff.mp h
  obtain ⟨a, n, hn, hsame⟩ := element_reads hf s k
  refine ⟨rfl, a, n, hn, fun mem hmem => ?_⟩
  have hother : fillTick j k (s.withMem mem) = _ := fillTick_element (s := s.withMem mem) hb hf hk
  rw [hsame mem hmem, hbs] at hother
  exact hother

/-- Settles O52. -/
theorem eachTickIsOneEvent : Obligations.EachTickIsOneEvent := by
  unfold Obligations.EachTickIsOneEvent
  intro m m' h
  by_cases hr : m.Reads
  · exact .inr (tick_reads hr h)
  have same : ∀ mem, tick (withMemory m mem) = some (withMemory m' mem) := fun mem => by
    rw [tick_withMemory hr, h]
    rfl
  rcases tick_cases h with ⟨-, rfl⟩ | ⟨-, ticked⟩
  · exact .inr ⟨rfl, 0, 0, by omega, fun mem _ => same mem⟩
  cases ticked with
  | accepts d rest idle eq => exact .inl ⟨.inl ⟨.accept d, by simp [eq]⟩, same⟩
  | faults c eq => exact .inl ⟨.inl ⟨.fault c.code, by simp [eq]⟩, same⟩
  | responds u silent st i0 i1 eq =>
    exact .inl ⟨.inl ⟨.rsp st.code i0 i1, by simp [eq, silent.trace]⟩, same⟩
  | adds e noRsp eq => exact .inl ⟨.inl ⟨e, eq.trace⟩, same⟩
  | drives a w l eq => exact .inl ⟨.inr (.inl ⟨a, w, l, eq.trace⟩), same⟩
  | answers a trace seq waiting => exact .inl ⟨.inr (.inr ⟨a, trace⟩), same⟩
  | reads eq => exact .inr ⟨by simpa using eq.trace, 0, 0, by omega, fun mem _ => same mem⟩

end Sys2Proof.Machine
end

section
/-! PROOFS. A step that accepts a request is a run of ticks (O53): each part of a request's meaning, on the
one side, is reached by the ticks of its positions, on the other. -/

namespace Sys2Proof.Machine

/-! ### Runs of ticks -/

/-- Some number of ticks leads from `m` to `m'`. -/
def Runs (m m' : Micro) : Prop := ∃ n, ticks n m = some m'

theorem Runs.refl (m : Micro) : Runs m m := ⟨0, rfl⟩

theorem Runs.step {m m₁ m₂ : Micro} (h : tick m = some m₁) (g : Runs m₁ m₂) : Runs m m₂ := by
  obtain ⟨n, hn⟩ := g
  exact ⟨n + 1, by rw [ticks, h]; exact hn⟩

theorem Runs.trans {m m₁ m₂ : Micro} (h : Runs m m₁) (g : Runs m₁ m₂) : Runs m m₂ := by
  obtain ⟨n, hn⟩ := h
  induction n generalizing m with
  | zero => cases hn; exact g
  | succ n ih =>
    obtain ⟨m', htick, hrest⟩ := Option.bind_eq_some_iff.mp hn
    exact .step htick (ih hrest)

theorem tick_waiting {m m' : Micro} (h : tick m = some m') (hw : m.st.waiting = .nothing) :
    m'.st.waiting = .nothing := by
  rcases tick_cases h with ⟨-, rfl⟩ | ⟨-, ticked⟩
  · exact hw
  cases ticked with
  | accepts d rest idle eq => rw [eq]; rfl
  | faults c eq => rw [eq]; exact hw
  | responds u silent st i0 i1 eq => rw [eq]; exact silent.waiting.trans hw
  | adds e noRsp eq => exact eq.waiting.trans hw
  | drives a w l eq => exact eq.waiting.trans hw
  | answers a trace seq waiting => exact waiting.trans hw
  | reads eq => exact eq.waiting.trans hw

theorem Runs.waiting {m m' : Micro} (h : Runs m m') (hw : m.st.waiting = .nothing) :
    m'.st.waiting = .nothing := by
  obtain ⟨n, hn⟩ := h
  induction n generalizing m with
  | zero => cases hn; exact hw
  | succ n ih =>
    obtain ⟨m₁, htick, hrest⟩ := Option.bind_eq_some_iff.mp hn
    exact ih (tick_waiting htick hw) hrest

/-- The ticks from `m` end at a position without a tick, in the state `t` (R263, R267). -/
def Blocks (m : Micro) (t : State) : Prop := ∃ w, Runs m w ∧ w.settled = t ∧ tick w = none

theorem Blocks.of_runs {m m₁ : Micro} {t : State} (h : Runs m m₁) (g : Blocks m₁ t) : Blocks m t := by
  obtain ⟨w, hw, hsettled, hnone⟩ := g
  exact ⟨w, h.trans hw, hsettled, hnone⟩

/-- The ticks from `m` end in the state `t`: between requests, or without a tick. -/
def Performs (m : Micro) (t : State) : Prop := Runs m ⟨t, .idle⟩ ∨ Blocks m t

theorem performs_idle (t : State) : Performs ⟨t, .idle⟩ t := .inl (.refl _)

theorem Performs.of_runs {m m₁ : Micro} {t : State} (h : Runs m m₁) (g : Performs m₁ t) : Performs m t :=
  g.imp h.trans (.of_runs h)

theorem Performs.step {m m₁ : Micro} {t : State} (h : tick m = some m₁) (g : Performs m₁ t) : Performs m t :=
  g.of_runs (.step h (.refl _))

/-- After the response one tick is left (R31; log 1). -/
theorem performs_done (s : State) : Performs ⟨s, .done⟩ s.returnIdle := .step rfl (performs_idle _)

/-! ### Submission -/

/-- The two halves of `Submit(T)` make one TXN with its answer (R60, R263). -/
theorem handOver_answered (s : State) (rest : List SubmitAnswer) (a : SubmitAnswer) :
    s.handOver.answered rest a = { s with
      retained := retainedAfter s.params s.txn s.retained
      env := { s.env with submits := rest }
      trace := s.trace ++ [.txn s.txn (some a)] } := by
  simp [State.answered, State.handOver, State.emit]

theorem runs_answer_ok {j : Job} {u v : State} (h : u.submit = .ok v) :
    Runs ⟨u.handOver, .answer j⟩ (afterOk j v) := by
  rcases submit_cases u with ⟨rest, hdraws, e⟩ | ⟨n, rest, -, e⟩ | ⟨-, e⟩ <;> rw [e] at h <;> cases h
  refine .step ?_ (.refl _)
  have hdraws' : u.handOver.env.submits = .ok :: rest := hdraws
  simp only [tick, answerTick, hdraws', handOver_answered]

theorem runs_answer_err {j : Job} {u v : State} (h : u.submit = .err v) :
    Runs ⟨u.handOver, .answer j⟩ ⟨v, .deselect j false⟩ := by
  rcases submit_cases u with ⟨rest, -, e⟩ | ⟨n, rest, hdraws, e⟩ | ⟨-, e⟩ <;> rw [e] at h <;> cases h
  refine .step ?_ (.refl _)
  have hdraws' : u.handOver.env.submits = .err n :: rest := hdraws
  simp only [tick, answerTick, hdraws', handOver_answered]
  rfl

theorem blocks_answer {j : Job} {u v : State} (h : u.submit = .blocked v) :
    Blocks ⟨u.handOver, .answer j⟩ v := by
  rcases submit_cases u with ⟨rest, -, e⟩ | ⟨n, rest, -, e⟩ | ⟨hdraws, e⟩ <;> rw [e] at h <;> cases h
  refine ⟨_, .refl _, rfl, ?_⟩
  have hdraws' : u.handOver.env.submits = [] := hdraws
  simp only [tick, answerTick, hdraws']

/-! ### Fills, element by element -/

/-- A run of reads grows at its end, by one admitted read after a whole run. -/
theorem bytesFrom_succ (m : Memory) (addrW a n : Nat) :
    m.bytesFrom addrW a (n + 1) = m.bytesFrom addrW a n ++
      if (m.bytesFrom addrW a n).length = n then (m.read8 addrW (a + n)).toList else [] := by
  induction n generalizing a with
  | zero => cases h : m.read8 addrW a <;> simp [Memory.bytesFrom, h]
  | succ n ih =>
    cases h : m.read8 addrW a with
    | none => simp [Memory.bytesFrom, h]
    | some b =>
      have hcons : ∀ k, m.bytesFrom addrW a (k + 1) = b :: m.bytesFrom addrW (a + 1) k := fun k => by
        simp [Memory.bytesFrom, h]
      have hnext : a + 1 + n = a + (n + 1) := by omega
      rw [hcons (n + 1), hcons n, ih (a + 1), hnext]
      simp

theorem wordsFrom_succ (m : Memory) (addrW a n : Nat) :
    m.wordsFrom addrW a (n + 1) = m.wordsFrom addrW a n ++
      if (m.wordsFrom addrW a n).length = n then (m.read16 addrW (a + 2 * n)).toList else [] := by
  induction n generalizing a with
  | zero => cases h : m.read16 addrW a <;> simp [Memory.wordsFrom, h]
  | succ n ih =>
    cases h : m.read16 addrW a with
    | none => simp [Memory.wordsFrom, h]
    | some w =>
      have hcons : ∀ k, m.wordsFrom addrW a (k + 1) = w :: m.wordsFrom addrW (a + 2) k := fun k => by
        simp [Memory.wordsFrom, h]
      have hnext : a + 2 + 2 * n = a + 2 * (n + 1) := by omega
      rw [hcons (n + 1), hcons n, ih (a + 2), hnext]
      simp

/-- A fill of one element more writes what element `n` puts into the buffer, after a whole fill of `n`; and
no more than a fill that was not whole (R221, R231, R267). -/
theorem sourceBytes_succ {f : Fill} (hf : f ≠ .reuse) (s : State) (n : Nat) :
    f.sourceBytes s (n + 1) = f.sourceBytes s n ++
      if (f.sourceBytes s n).length = n * f.elemBytes then ((f.element s n).getD []) else [] := by
  cases f with
  | reuse => exact absurd rfl hf
  | byte =>
    simp only [Fill.sourceBytes, bytesFrom_succ, Fill.elemBytes, Fill.element, Nat.mul_one]
    cases Memory.read8 s.env.mem s.params.addrW (s.plan.srcAddr + n) <;> rfl
  | pixel =>
    have hiff : ∀ l : Nat, 2 * l = n * 2 ↔ l = n := by omega
    simp only [Fill.sourceBytes, wordsFrom_succ, Fill.elemBytes, Fill.element, wordsLE_length,
      List.length_map, hiff, List.map_append]
    split
    · cases Memory.read16 s.env.mem s.params.addrW (s.plan.srcAddr + 2 * n) <;> simp [wordsLE]
    · simp [wordsLE]

theorem element_length {f : Fill} {s : State} {k : Nat} {bs : List Byte} (h : f.element s k = some bs) :
    bs.length = f.elemBytes := by
  cases f with
  | reuse => cases h
  | byte => obtain ⟨b, -, rfl⟩ := Option.map_eq_some_iff.mp h; rfl
  | pixel => obtain ⟨w, -, rfl⟩ := Option.map_eq_some_iff.mp h; rfl

/-- Writing after what was written is writing both. -/
theorem overwriteAt_overwrite (buf as bs : List Byte) :
    overwriteAt (overwrite buf as) as.length bs = overwrite buf (as ++ bs) := by
  simp [overwriteAt, overwrite, List.drop_append, List.drop_drop]

/-- The state with `bs` written at the start of the buffer. -/
def State.filledWith (s : State) (bs : List Byte) : State := { s with buf := overwrite s.buf bs }

theorem element_filledWith (f : Fill) (s : State) (bs : List Byte) (k : Nat) :
    f.element (s.filledWith bs) k = f.element s k := by cases f <;> rfl

/-- The tick that reads element `k` writes it after the `k` elements before it. -/
theorem fillTick_filledWith {j : Job} {f : Fill} {s : State} {k : Nat} {bs cs : List Byte}
    (hb : j.body.fill = some f) (hf : f ≠ .reuse) (hk : k ≠ s.plan.chunk.toNat)
    (hwhole : bs.length = k * f.elemBytes) (h : f.element s k = some cs) :
    fillTick j k (s.filledWith bs) = some ⟨s.filledWith (bs ++ cs), .fill j (k + 1)⟩ := by
  rw [fillTick_element (s := s.filledWith bs) hb hf hk, element_filledWith, h, Option.map_some, ← hwhole]
  simp only [State.filledWith, overwriteAt_overwrite]

/-- There is no such tick where the read is not admitted (R267). -/
theorem fillTick_unadmitted {j : Job} {f : Fill} {s : State} {k : Nat} (bs : List Byte)
    (hb : j.body.fill = some f) (hf : f ≠ .reuse) (hk : k ≠ s.plan.chunk.toNat) (h : f.element s k = none) :
    fillTick j k (s.filledWith bs) = none := by
  rw [fillTick_element (s := s.filledWith bs) hb hf hk, element_filledWith, h, Option.map_none]

/-- How far the element ticks of a source fill come: to the end of `n` elements, or to the first read that
is not admitted (R267), with what a fill of `n` writes in the buffer. -/
theorem runs_elements {j : Job} {f : Fill} {s : State} (hb : j.body.fill = some f) (hf : f ≠ .reuse) {n : Nat}
    (hn : n ≤ s.plan.chunk.toNat) :
    ∃ k, Runs ⟨s, .fill j 0⟩ ⟨s.filledWith (f.sourceBytes s n), .fill j k⟩ ∧
      ((f.sourceBytes s n).length = n * f.elemBytes ∧ k = n ∨
        (f.sourceBytes s n).length ≠ n * f.elemBytes ∧ k < n ∧ f.element s k = none) := by
  have hsize : 0 < f.elemBytes := by cases f <;> decide
  induction n with
  | zero =>
    have hnil : f.sourceBytes s 0 = [] := by
      have := sourceBytes_length_le f s 0
      exact List.length_eq_zero_iff.mp (by omega)
    rw [hnil]
    exact ⟨0, .refl _, .inl ⟨by simp, rfl⟩⟩
  | succ n ih =>
    have hsucc := sourceBytes_succ hf s n
    rw [Nat.succ_mul]
    obtain ⟨k, hruns, ⟨hwhole, rfl⟩ | ⟨hshort, hlt, hnone⟩⟩ := ih (by omega)
    · rw [if_pos hwhole] at hsucc
      cases helem : f.element s k with
      | none =>
        rw [helem, Option.getD_none, List.append_nil] at hsucc
        rw [hsucc]
        exact ⟨k, hruns, .inr ⟨by omega, by omega, helem⟩⟩
      | some bs =>
        rw [helem, Option.getD_some] at hsucc
        rw [hsucc]
        have hread := fillTick_filledWith hb hf (by omega) hwhole helem
        exact ⟨k + 1, hruns.trans (.step hread (.refl _)),
          .inl ⟨by rw [List.length_append, hwhole, element_length helem], rfl⟩⟩
    · rw [if_neg hshort, List.append_nil] at hsucc
      have hlen := sourceBytes_length_le f s n
      rw [hsucc]
      exact ⟨k, hruns, .inr ⟨by omega, by omega, hnone⟩⟩

theorem fill_eq_fromSource {f : Fill} (hf : f ≠ .reuse) (s : State) (n : Nat) :
    f.run s n = Fill.fromSource f s n := by
  cases f with
  | reuse => exact absurd rfl hf
  | _ => rfl

theorem finish_eq {f : Fill} (hf : f ≠ .reuse) (s : State) (n : Nat) :
    f.finish s n = { s with plan := { s.plan with srcAddr := s.plan.srcAddr + n * f.elemBytes } } := by
  cases f with
  | reuse => exact absurd rfl hf
  | pixel => rfl
  | byte => simp [Fill.finish, Fill.elemBytes]

/-- A chunk whose fill ends is submitted by the ticks at `fill` (R200). -/
theorem runs_fill {j : Job} {f : Fill} {s u : State} (hb : j.body.fill = some f)
    (h : f.run s s.plan.chunk.toNat = .ok u) :
    Runs ⟨s, .fill j 0⟩ ⟨(u.loadChunk f u.plan.chunk.toNat).handOver, .answer j⟩ := by
  by_cases hf : f = .reuse
  · subst hf
    cases h
    exact .step (fillTick_reuse hb s) (.refl _)
  · rw [fill_eq_fromSource hf] at h
    obtain ⟨k, hruns, ⟨hwhole, rfl⟩ | ⟨hshort, -, -⟩⟩ := runs_elements hb hf (le_refl s.plan.chunk.toNat)
    · rw [fromSource_ok hwhole] at h
      cases h
      have hsubmit := fillTick_whole (s := s.filledWith (f.sourceBytes s s.plan.chunk.toNat)) hb hf rfl
      rw [finish_eq hf] at hsubmit
      exact hruns.trans (.step hsubmit (.refl _))
    · rw [fromSource_blocked hshort] at h
      cases h

/-- A fill that is stuck has no tick at the element whose read is not admitted (R267). -/
theorem blocks_fill {j : Job} {f : Fill} {s u : State} (hb : j.body.fill = some f)
    (h : f.run s s.plan.chunk.toNat = .blocked u) : Blocks ⟨s, .fill j 0⟩ u := by
  have hf : f ≠ .reuse := by rintro rfl; cases h
  rw [fill_eq_fromSource hf] at h
  obtain ⟨k, hruns, ⟨hwhole, -⟩ | ⟨hshort, hlt, hnone⟩⟩ := runs_elements hb hf (le_refl s.plan.chunk.toNat)
  · rw [fromSource_ok hwhole] at h
    cases h
  · rw [fromSource_blocked hshort] at h
    cases h
    exact ⟨_, hruns, rfl, fillTick_unadmitted _ hb hf (Nat.ne_of_lt hlt) hnone⟩

/-! ### Bodies -/

/-- The ticks from `m` bring the body of the job's bracket to the end that the run `r` has. -/
def Lands (m : Micro) (j : Job) (r : Run) : Prop :=
  match r with
  | .ok u => Runs m ⟨u, .deselect j true⟩
  | .err u => Runs m ⟨u, .deselect j false⟩
  | .blocked u => Blocks m u

theorem Lands.of_runs {m m₁ : Micro} {j : Job} {r : Run} (h : Runs m m₁) (g : Lands m₁ j r) : Lands m j r := by
  cases r with
  | ok u => exact Runs.trans h g
  | err u => exact Runs.trans h g
  | blocked u => exact Blocks.of_runs h g

/-- What remains after an iteration is less than before (R205). -/
theorem chunkDone_remaining_lt {f : Fill} {s filled answered : State} (h : s.plan.remaining ≠ 0)
    (hf : f.run (s.setChunk f) (s.setChunk f).plan.chunk.toNat = .ok filled)
    (hs : (filled.loadChunk f filled.plan.chunk.toNat).submit = .ok answered) :
    answered.chunkDone.plan.remaining.toNat < s.plan.remaining.toNat := by
  obtain ⟨-, a, hplan⟩ := fill_framing_plan f (s.setChunk f) (s.setChunk f).plan.chunk.toNat
  obtain ⟨-, hpos, hle⟩ := setChunk_bounds f s h
  have hsame : answered.plan = filled.plan := by
    rcases submit_cases (filled.loadChunk f filled.plan.chunk.toNat) with
      ⟨rest, -, e⟩ | ⟨n, rest, -, e⟩ | ⟨-, e⟩ <;> rw [e] at hs <;> cases hs
    rfl
  rw [hf] at hplan
  replace hplan : filled.plan = { (s.setChunk f).plan with srcAddr := a } := hplan
  have hremaining : answered.chunkDone.plan.remaining = s.plan.remaining - (s.setChunk f).plan.chunk := by
    simp only [State.chunkDone_plan, hsame, hplan, State.setChunk_plan]
  rw [hremaining]
  bv_omega

theorem lands_streamLoop {j : Job} {f : Fill} (hb : j.body.fill = some f) {bound : Nat} {s : State}
    (hne : s.plan.remaining ≠ 0) (hbound : s.plan.remaining.toNat ≤ bound) :
    Lands ⟨s.setChunk f, .fill j 0⟩ j (streamLoop f bound s) := by
  induction bound generalizing s with
  | zero => exact absurd (BitVec.eq_of_toNat_eq (by simpa using hbound)) hne
  | succ bound ih =>
    cases hf : f.run (s.setChunk f) (s.setChunk f).plan.chunk.toNat with
    | err filled => exact absurd hf (fill_ne_err f _ _ _)
    | blocked stuck =>
      rw [streamLoop_stuck hne hf]
      exact blocks_fill hb hf
    | ok filled =>
      refine .of_runs (runs_fill hb hf) ?_
      cases hs : (filled.loadChunk f filled.plan.chunk.toNat).submit with
      | blocked waiting => rw [streamLoop_hang hne hf hs]; exact blocks_answer hs
      | err answered => rw [streamLoop_err hne hf hs]; exact runs_answer_err hs
      | ok answered =>
        have hless := chunkDone_remaining_lt hne hf hs
        rw [streamLoop_ok hne hf hs]
        refine .of_runs (runs_answer_ok hs) ?_
        simp only [afterOk, hb]
        by_cases hend : answered.chunkDone.plan.remaining = 0
        · rw [if_pos hend, streamLoop_zero f _ _ hend]
          exact .refl _
        · rw [if_neg hend]
          exact ih hend (by omega)

theorem lands_stream {j : Job} {f : Fill} (hb : j.body.fill = some f) {total : Word} (hne : total ≠ 0)
    (s : State) : Lands ⟨s.beginStream f total, .fill j 0⟩ j (stream f total s) :=
  lands_streamLoop hb (s := { s with plan := { s.plan with remaining := total } }) hne (le_refl _)

/-- A body has something to send: an empty stream opens no bracket (R204). -/
def Body.Nonempty (b : Body) : Prop :=
  match b with
  | .single _ _ _ => True
  | .repeated _ count => count ≠ 0
  | .pixels _ count => count ≠ 0
  | .bytes _ count => count ≠ 0

theorem lands_body {j : Job} (hne : j.body.Nonempty) (s : State) :
    Lands ⟨j.body.start s, .fill j 0⟩ j (j.body.run s) := by
  cases hj : j.body with rw [hj] at hne
  | repeated value count => exact lands_stream (by rw [hj]; rfl) hne _
  | pixels ptr count => exact lands_stream (by rw [hj]; rfl) hne _
  | bytes ptr count => exact lands_stream (by rw [hj]; rfl) hne _
  | single cv av payload =>
    refine .of_runs (.step (fillTick_single hj s) (.refl _)) ?_
    simp only [Body.run]
    cases hs : State.submit { s with txn := framedTxn cv av payload } with
    | blocked waiting => exact blocks_answer hs
    | err answered => exact runs_answer_err hs
    | ok answered =>
      have hruns := runs_answer_ok (j := j) hs
      rw [show afterOk j answered = ⟨answered.singleDone, .deselect j true⟩ by simp [afterOk, hj, Body.fill]]
        at hruns
      exact hruns

/-- The ticks of a bracket, from chip select's assertion to the end of its body (R152). -/
theorem lands_select {j : Job} (hne : j.body.Nonempty) (s : State) :
    Lands (selectTick j s) j (j.body.run s.enterBracket) := lands_body hne s.enterBracket

/-! ### Brackets and repetitions -/

/-- After the bracket two ticks are left: RSP, and the return to IDLE (R31, R157). -/
theorem performs_reply (j : Job) (ok : Bool) (s : State) :
    Performs ⟨s, .reply j ok⟩ (j.reply ok s).returnIdle := .step rfl (performs_done _)

theorem performs_once {b : Body} (hne : b.Nonempty) (s : State) :
    Performs (selectTick (.once b) s) (finishWrite (bracket b s)) := by
  have hland : Lands (selectTick (.once b) s) (.once b) (b.run s.enterBracket) := lands_select (j := .once b) hne s
  unfold bracket
  cases hr : b.run s.enterBracket <;> rw [hr] at hland
  case blocked waiting => exact .inr hland
  case ok ended => exact .of_runs hland (.step rfl (performs_reply (.once b) true ended.deassertSelect))
  case err ended => exact .of_runs hland (.step rfl (performs_reply (.once b) false ended.deassertSelect))

/-- One repetition of `writePattern`, and what the ticks after an Ok bracket do (R235). -/
theorem performs_repetition {ptr len : Word} (hne : len ≠ 0) {left : Nat} {s : State}
    (hok : ∀ ended : State, Performs (afterBracket (.pattern ptr len left) true ended)
      (finishPattern (patternLoop ptr len left ended.repetitionDone))) :
    Performs (selectTick (.pattern ptr len left) s) (finishPattern (patternLoop ptr len (left + 1) s)) := by
  have hland : Lands (selectTick (.pattern ptr len left) s) (.pattern ptr len left)
      ((Body.bytes ptr len).run s.enterBracket) := lands_select (j := .pattern ptr len left) hne s
  rw [patternLoop, bracket]
  cases hr : (Body.bytes ptr len).run s.enterBracket <;> rw [hr] at hland
  case blocked waiting => exact .inr hland
  case ok ended => exact .of_runs hland (.step rfl (hok ended.deassertSelect))
  case err ended =>
    refine .of_runs hland (.step rfl ?_)
    cases left with
    | zero => exact performs_reply (.pattern ptr len 0) false ended.deassertSelect
    | succ left => exact performs_reply (.pattern ptr len (left + 1)) false ended.deassertSelect

theorem performs_pattern {ptr len : Word} (hne : len ≠ 0) (left : Nat) (s : State) :
    Performs (selectTick (.pattern ptr len left) s) (finishPattern (patternLoop ptr len (left + 1) s)) := by
  induction left generalizing s with
  | zero => exact performs_repetition hne fun ended => performs_reply (.pattern ptr len 0) true ended.repetitionDone
  | succ left ih => exact performs_repetition hne fun ended => .step rfl (ih ended.repetitionDone)

/-! ### `open` -/

theorem performs_openDevice (s : State) : Performs ⟨s, .openDevice⟩ s.openDevice := by
  refine .step rfl ?_
  unfold openDeviceTick State.openDevice
  cases s.env.devReg with
  | none => exact .step rfl (performs_done _)
  | some handle => exact .step rfl (performs_done _)

theorem performs_openBuffer (s : State) : Performs ⟨s, .openBuffer⟩ s.openBuffer := by
  refine .step rfl ?_
  unfold openBufferTick State.openBuffer
  cases s.allocAnswer with
  | none => exact .step rfl (performs_done _)
  | some base => exact performs_openDevice _

theorem performs_openBus (s : State) : Performs ⟨s, .openBus⟩ s.openBus := by
  refine .step rfl ?_
  unfold openBusTick State.openBus
  cases s.env.busInit with
  | none => exact .step rfl (performs_done _)
  | some ctx => exact performs_openBuffer _

theorem performs_open {s t : State} (h : execOpen s = .next t) : Performs (beginOpen s) t := by
  by_cases hm : s.mode = .uninit
  · rw [execOpen, if_neg (not_not.mpr hm)] at h
    by_cases hneg : negative8 s.cfg.cs = true
    · rw [if_pos hneg] at h
      cases h
      rw [beginOpen_pinInvalid hm hneg]
      exact performs_done _
    rw [if_neg hneg] at h
    by_cases hpin : s.params.numPins ≤ s.cfg.cs.toNat ∨ 32 ≤ pinBit s.params s.cfg.cs.toNat
    · rw [if_pos hpin] at h
      cases h
      rw [beginOpen_badPin hm hneg hpin]
      exact performs_idle _
    · rw [if_neg hpin] at h
      cases h
      rw [beginOpen_pin hm hneg hpin]
      exact .step rfl (.step rfl (performs_openBus s.bindPins.configureCsPin.resolveTransferConfig))
  · cases (execOpen_reopen hm).symm.trans h
    rw [beginOpen_reopen hm]
    exact performs_idle _

/-! ### Requests -/

theorem performs_write {s t : State} {run : State → State} {go : State → Micro}
    (h : whenReady s run = .next t) (hgo : Performs (go s) (run s)) : Performs (beginWrite s go) t := by
  by_cases ready : s.mode = .ready
  · cases (whenReady_ready ready run).symm.trans h
    rw [beginWrite, if_pos ready]
    exact hgo
  · cases (whenReady_notReady ready run).symm.trans h
    rw [beginWrite, if_neg ready]
    exact performs_idle _

theorem performs_singleShot {s t : State} {cv : Byte} {av : BitVec 24} {payload : List Byte}
    (h : singleShot cv av payload s = .next t) : Performs (beginSingle s cv av payload) t :=
  performs_write h (performs_once (b := .single cv av payload) trivial s)

theorem performs_empty (s : State) (reps : Word) : Performs ⟨s.giveResponse .ok 0 reps, .done⟩ (s.respond .ok 0 reps) :=
  performs_done _

theorem performs_writeRepeated {s t : State} {value : Half} {count : Word}
    (h : execWriteRepeated value count s = .next t) : Performs (beginTick (.writeRepeated value count) s) t := by
  unfold beginTick
  refine performs_write h ?_
  by_cases hc : count = 0
  · rw [if_pos hc, if_pos hc]
    exact performs_empty s 0
  · rw [if_neg hc, if_neg hc]
    exact performs_once (b := .repeated value count) hc s

theorem performs_writePixelStream {s t : State} {ptr count : Word}
    (h : execWritePixelStream ptr count s = .next t) : Performs (beginTick (.writePixelStream ptr count) s) t := by
  unfold beginTick
  refine performs_write h ?_
  by_cases hc : count = 0
  · rw [if_pos hc, beginSource, if_pos (by simpa using hc)]
    exact performs_empty s 0
  · rw [if_neg hc, beginSource, if_neg (by simpa using hc)]
    cases s.sourceFault true ptr (2 * count.toNat) with
    | some c => exact performs_idle _
    | none => exact performs_once (b := .pixels ptr count) hc s

theorem performs_writeByteStream {s t : State} {ptr count : Word}
    (h : execWriteByteStream ptr count s = .next t) : Performs (beginTick (.writeByteStream ptr count) s) t := by
  unfold beginTick
  refine performs_write h ?_
  by_cases hc : count = 0
  · rw [if_pos hc, beginSource, if_pos (by simpa using hc)]
    exact performs_empty s 0
  · rw [if_neg hc, beginSource, if_neg (by simpa using hc)]
    cases s.sourceFault false ptr count.toNat with
    | some c => exact performs_idle _
    | none => exact performs_once (b := .bytes ptr count) hc s

theorem performs_writePattern {s t : State} {ptr len reps : Word}
    (h : execWritePattern ptr len reps s = .next t) : Performs (beginTick (.writePattern ptr len reps) s) t := by
  unfold beginTick
  refine performs_write h ?_
  by_cases hc : reps = 0 ∨ len = 0
  · rw [if_pos hc, beginSource, if_pos (by simpa using hc)]
    exact performs_empty s reps
  · rw [if_neg hc, beginSource, if_neg (by simpa using hc)]
    obtain ⟨hreps, hlen⟩ := not_or.mp hc
    cases s.sourceFault false ptr len.toNat with
    | some c => exact performs_idle _
    | none =>
      have hpos : reps.toNat ≠ 0 := fun hz => hreps (BitVec.eq_of_toNat_eq (by simpa using hz))
      obtain ⟨left, hleft⟩ := Nat.exists_eq_succ_of_ne_zero hpos
      rw [hleft]
      exact performs_pattern hlen left _

theorem performs_exec {i : Instr} {s t : State} (h : exec i s = .next t) : Performs (beginTick i s) t := by
  cases i
  case openEngine => exact performs_open h
  case writeRepeated value count => exact performs_writeRepeated h
  case writePixelStream ptr count => exact performs_writePixelStream h
  case writeByteStream ptr count => exact performs_writeByteStream h
  case writePattern ptr len reps => exact performs_writePattern h
  case reservedB => cases h; exact performs_idle _
  case reservedCtoF => cases h; exact performs_idle _
  all_goals exact performs_singleShot h

/-- Acceptance is the first tick; the request's ticks follow. -/
theorem perform_performs {s t : State} {d : Desc} {rest : List Desc} (hs : s.seq = .idle)
    (hreq : s.env.requests = d :: rest) (h : perform d (s.accept d rest) = .next t) :
    ∃ m, tick ⟨s, .idle⟩ = some m ∧ m.st.waiting = .nothing ∧ Performs m t := by
  cases hdec : decode s.params.addrW d with
  | request i =>
    rw [perform_request (s := s.accept d rest) hdec] at h
    refine ⟨⟨s.accept d rest, .begin i⟩, ?_, rfl, .step rfl (performs_exec h)⟩
    simp [tick, acceptTick, hs, State.fetch, hreq, State.decodeDesc, hdec]
  | rejected why =>
    cases (perform_rejected (s := s.accept d rest) hdec).symm.trans h
    refine ⟨⟨s.accept d rest, .illegal⟩, ?_, rfl, .step rfl (performs_idle _)⟩
    simp [tick, acceptTick, hs, State.fetch, hreq, State.decodeDesc, hdec]

/-- Between requests the engine waits for nothing, so a state reached there is settled (log 26). -/
theorem settled_idle {t : State} (h : t.waiting = .nothing) : Micro.settled ⟨t, .idle⟩ = t := by
  cases t
  cases h
  rfl

/-- Settles O53: acceptance is one tick, and the ticks after it perform what `exec` does. -/
theorem stepIsARunOfTicks : Obligations.StepIsARunOfTicks := by
  unfold Obligations.StepIsARunOfTicks
  intro s t hs hne hstep
  obtain ⟨d, rest, hreq⟩ := List.exists_cons_of_ne_nil hne
  rw [step_accepts hs hreq] at hstep
  obtain ⟨m, hfirst, hwaiting, hruns | ⟨w, hruns, hsettled, hnone⟩⟩ := perform_performs hs hreq hstep
  · have hidle : t.waiting = .nothing := hruns.waiting hwaiting
    obtain ⟨n, hn⟩ := hruns
    exact ⟨n + 1, _, Nat.succ_pos n, by rw [ticks, hfirst]; exact hn, settled_idle hidle, .inl rfl⟩
  · obtain ⟨n, hn⟩ := hruns
    exact ⟨n + 1, w, Nat.succ_pos n, by rw [ticks, hfirst]; exact hn, hsettled, .inr hnone⟩

end Sys2Proof.Machine
end

section
/-! PROOFS. Host memory's reads (O39), the chip-select registers (O40) and the source checks (O24). -/

namespace Sys2Proof.Machine

open Sys2Proof.Statements

/-! ### Host memory (R71, R72) -/

/-- A word is the value of two bytes exactly when they are its low and its high byte. -/
theorem half_eq_iff (b0 b1 : Byte) (w : Half) : half b0 b1 = w ↔ b0 = loByte w ∧ b1 = hiByte w := by
  constructor
  · rintro rfl
    simp
  · rintro ⟨rfl, rfl⟩
    exact half_bytes w

theorem Memory.read16_eq_some_iff (m : Memory) (addrW a : Nat) (w : Half) : m.read16 addrW a = some w ↔
    m.read8 addrW a = some (loByte w) ∧ m.read8 addrW (a + 1) = some (hiByte w) := by
  unfold Memory.read16
  cases m.read8 addrW a with
  | none => simp
  | some b0 =>
    cases m.read8 addrW (a + 1) with
    | none => simp
    | some b1 => simp [half_eq_iff]

theorem Memory.read8_beyond (m : Memory) {addrW a : Nat} (h : 2 ^ addrW ≤ a) : m.read8 addrW a = none :=
  if_neg (Nat.not_lt.mpr h)

theorem Memory.read16_beyond (m : Memory) {addrW a : Nat} (h : 2 ^ addrW ≤ a + 1) : m.read16 addrW a = none := by
  unfold Memory.read16
  rw [m.read8_beyond h]
  cases m.read8 addrW a <;> rfl

/-- Settles O39: a word read is two byte reads. -/
theorem memoryReadsAreLittleEndianAndBounded : Obligations.MemoryReadsAreLittleEndianAndBounded := by
  unfold Obligations.MemoryReadsAreLittleEndianAndBounded
  intro m addrW a
  exact ⟨m.read16_eq_some_iff addrW a, m.read8_beyond, m.read16_beyond⟩

/-! ### Chip-select registers (R79, R275) -/

/-- Two equal register writes do in each bank what one does. -/
theorem Platform.regWrite_idem (pl : Platform) (p : Params) (a : Nat) (mask : Word) :
    (pl.regWrite p a mask).regWrite p a mask = pl.regWrite p a mask := by
  simp only [Platform.regWrite, bankWrite_idem]

/-- Settles O40: each bank answers at its own two registers, which no other bank has. -/
theorem selectRegistersAreWriteOne : Obligations.SelectRegistersAreWriteOne := by
  unfold Obligations.SelectRegistersAreWriteOne
  intro pl p mask distinct
  simp only [List.nodup_cons, List.mem_cons, List.not_mem_nil, not_or, or_false, ← ne_eq,
    BitVec.toNat_ne] at distinct
  obtain ⟨⟨hsc, hsS, hsC⟩, ⟨hcS, hcC⟩, hSC, -⟩ := distinct
  simp only [Platform.regWrite, setAddr, clrAddr]
  refine ⟨?_, ?_, ?_, ?_, fun a => pl.regWrite_idem p a mask⟩
  · rw [bankWrite_set _ _ _ _ hsc, bankWrite_elsewhere _ _ _ _ _ hsS hsC]
  · rw [bankWrite_clear _ _ _ _ hsc, bankWrite_elsewhere _ _ _ _ _ hcS hcC]
  · rw [bankWrite_set _ _ _ _ hSC, bankWrite_elsewhere _ _ _ _ _ hsS.symm hcS.symm]
  · rw [bankWrite_clear _ _ _ _ hSC, bankWrite_elsewhere _ _ _ _ _ hsC.symm hcC.symm]

/-! ### The source checks (R206) -/

theorem sourceFault_misaligned {s : State} {ptr : Word} {len : Nat} (hlen : len ≠ 0)
    (hodd : ptr.toNat % 2 = 1) : s.sourceFault true ptr len = some .srcMisaligned := by
  rcases sourceFault_cases s true ptr len hlen with ⟨-, -, h⟩ | ⟨heven, -⟩ | ⟨heven, -⟩
  · exact h
  · have := heven rfl; omega
  · have := heven rfl; omega

/-- A source range that R206 admits takes no fault. -/
theorem sourceFault_admitted {s : State} {aligned : Bool} {ptr : Word} {len : Nat} (hlen : len ≠ 0)
    (heven : aligned = true → ptr.toNat % 2 = 0) (h : SourceAdmitted s ptr len) :
    s.sourceFault aligned ptr len = none := by
  rcases sourceFault_cases s aligned ptr len hlen with ⟨ha, hodd, -⟩ | ⟨-, hlow, hhigh, -⟩ | ⟨-, -, hnone⟩
  · have := heven ha; omega
  · unfold SourceAdmitted at h; omega
  · exact hnone

/-- Settles O24: alignment is the first of the source checks. -/
theorem oddPixelSourceTakesMisaligned : Obligations.OddPixelSourceTakesMisaligned := by
  unfold Obligations.OddPixelSourceTakesMisaligned
  intro s ptr count ready hcount hodd
  have hpos : count.toNat ≠ 0 := BitVec.toNat_ne.mp hcount
  have hlen : 2 * count.toNat ≠ 0 := by omega
  calc exec (.writePixelStream ptr count) s
      = .next (s.raiseFault .srcMisaligned) := by
        simp only [exec, execWritePixelStream, whenReady_ready ready, if_neg hcount,
          sourceFault_misaligned hlen hodd]
    _ = .next { s with fault := 5, seq := .halted, trace := s.trace ++ [.fault 5] } := rfl

end Sys2Proof.Machine
end

section
/-! PROOFS. The chip-select edges of a completed write: every bracket that ends has one edge of each kind and
at least one transaction between them (O51). -/

namespace Sys2Proof.Machine

open Sys2Proof.Statements

/-! ### Counting edges and submissions -/

theorem edges_append (l : CsLevel) (trace es : List Event) :
    edges l (trace ++ es) = edges l trace + edges l es := List.countP_append

theorem submissions_append (trace es : List Event) :
    submissions (trace ++ es) = submissions trace + submissions es := List.countP_append

/-- Between the two edges of a bracket there are transactions alone. -/
def Event.isTxn (e : Event) : Bool :=
  match e with
  | .txn _ _ => true
  | _ => false

theorem edges_of_txns {l : CsLevel} {es : List Event} (h : ∀ e ∈ es, e.isTxn = true) : edges l es = 0 := by
  refine List.countP_eq_zero.mpr fun e he => ?_
  have := h e he
  cases e <;> simp_all [Event.isTxn]

theorem Transfers.isTxn {p : Params} {f : Framing} {es : List Event} (h : Transfers p f es) :
    ∀ e ∈ es, e.isTxn = true := by
  induction h with
  | nil f => simp
  | last a legal first => simp [Event.isTxn]
  | more legal first stream rest ih => simpa [Event.isTxn] using ih

/-- A write never takes a submission back. -/
theorem Kept.submissions_le {s t : State} (h : Kept s t) : submissions s.trace ≤ submissions t.trace := by
  obtain ⟨es, hes⟩ := h.trace
  rw [hes, submissions_append]
  omega

/-! ### What a body submits -/

theorem Run.EndedIn.state_eq {r : Run} {u : State} (h : r.EndedIn u) : r.state = u := by
  rcases h with rfl | rfl <;> rfl

/-- A run that waits for ever has not ended. -/
theorem Run.not_endedIn_blocked {s u : State} : ¬ (Run.blocked s).EndedIn u := by
  rintro (h | h) <;> cases h

theorem submissions_submit (s : State) : submissions s.submit.state.trace = submissions s.trace + 1 := by
  obtain ⟨a, hsubmit, -⟩ := emitted_submit s
  rw [hsubmit.trace, submissions_append]
  rfl

/-- The chunk loop does not end before it has submitted what remains (R205). -/
theorem streamLoop_submits {f : Fill} {bound : Nat} {s u : State} (hne : s.plan.remaining ≠ 0)
    (h : (streamLoop f (bound + 1) s).EndedIn u) : submissions s.trace < submissions u.trace := by
  cases hf : f.run (s.setChunk f) (s.setChunk f).plan.chunk.toNat with
  | err filled => exact absurd hf (fill_ne_err f _ _ _)
  | blocked stuck =>
    rw [streamLoop_stuck hne hf] at h
    exact absurd h Run.not_endedIn_blocked
  | ok filled =>
    obtain ⟨hload, -⟩ := loadChunk_of_fill hne hf
    have hsent := submissions_submit (filled.loadChunk f filled.plan.chunk.toNat)
    rw [hload.trace, List.append_nil] at hsent
    cases hs : (filled.loadChunk f filled.plan.chunk.toNat).submit with rw [hs] at hsent
    | blocked waiting =>
      rw [streamLoop_hang hne hf hs] at h
      exact absurd h Run.not_endedIn_blocked
    | err answered =>
      rw [streamLoop_err hne hf hs] at h
      rw [← h.state_eq, hsent]
      omega
    | ok answered =>
      rw [streamLoop_ok hne hf hs] at h
      have hrest := (kept_streamLoop f bound answered.chunkDone).submissions_le
      rw [h.state_eq, State.chunkDone_trace] at hrest
      simp only [Run.state] at hsent
      omega

theorem stream_submits {f : Fill} {total : Word} {s u : State} (hne : total ≠ 0)
    (h : (stream f total s).EndedIn u) : submissions s.trace < submissions u.trace := by
  obtain ⟨bound, hbound⟩ := Nat.exists_eq_succ_of_ne_zero (n := total.toNat) (BitVec.toNat_ne.mp hne)
  rw [stream, hbound] at h
  exact streamLoop_submits (s := { s with plan := { s.plan with remaining := total } }) hne h

/-- The trace of a single-shot body is that of its submission (R176). -/
theorem body_single_trace (cv : Byte) (av : BitVec 24) (payload : List Byte) (s : State) :
    ((Body.single cv av payload).run s).state.trace =
      (State.submit { s with txn := framedTxn cv av payload }).state.trace := by
  simp only [Body.run]
  cases State.submit { s with txn := framedTxn cv av payload } <;> rfl

/-- A body adds transactions and nothing else. -/
theorem body_adds_txns (b : Body) (s : State) :
    ∃ es, (b.run s).state.trace = s.trace ++ es ∧ ∀ e ∈ es, e.isTxn = true := by
  cases b with
  | single cv av payload =>
    obtain ⟨a, hsubmit, -⟩ := emitted_submit { s with txn := framedTxn cv av payload }
    exact ⟨_, (body_single_trace cv av payload s).trans hsubmit.trace, by simp [Event.isTxn]⟩
  | repeated value count =>
    obtain ⟨es, hes, htransfers⟩ := stream_transfers .reuse count (s.fillRepeated value count)
    exact ⟨es, hes.trace, htransfers.isTxn⟩
  | pixels ptr count =>
    obtain ⟨es, hes, htransfers⟩ := stream_transfers .pixel count (s.setSource ptr)
    exact ⟨es, hes.trace, htransfers.isTxn⟩
  | bytes ptr count =>
    obtain ⟨es, hes, htransfers⟩ := stream_transfers .byte count (s.setSource ptr)
    exact ⟨es, hes.trace, htransfers.isTxn⟩

/-- A body that has something to send has submitted when it ends. -/
theorem body_submits {b : Body} {s u : State} (hne : b.Nonempty) (h : (b.run s).EndedIn u) :
    submissions s.trace < submissions u.trace := by
  cases b with
  | repeated value count => exact stream_submits (s := s.fillRepeated value count) hne h
  | pixels ptr count => exact stream_submits (s := s.setSource ptr) hne h
  | bytes ptr count => exact stream_submits (s := s.setSource ptr) hne h
  | single cv av payload =>
    rw [← h.state_eq, body_single_trace, submissions_submit]
    exact Nat.lt_succ_self _

/-! ### Edges of brackets and repetitions -/

/-- From `s` to `t` chip select was asserted `n` times and deasserted `n` times, and a transaction was
submitted exactly when `n` is not 0. -/
structure Toggles (s t : State) (n : Nat) : Prop where
  asserted : edges .asserted t.trace = edges .asserted s.trace + n
  deasserted : edges .deasserted t.trace = edges .deasserted s.trace + n
  submits : submissions s.trace ≤ submissions t.trace
  silent : submissions t.trace = submissions s.trace ↔ n = 0

theorem Toggles.of_trace_eq {s t : State} (h : t.trace = s.trace) : Toggles s t 0 := by
  constructor <;> simp [h]

theorem Toggles.trans {s t u : State} {m n : Nat} (h : Toggles s t m) (g : Toggles t u n) :
    Toggles s u (m + n) := by
  obtain ⟨hasserted, hdeasserted, hsubmits, hsilent⟩ := h
  obtain ⟨gasserted, gdeasserted, gsubmits, gsilent⟩ := g
  constructor <;> omega

/-- A response is neither an edge nor a submission. -/
theorem Toggles.respond {s u : State} {n : Nat} (h : Toggles s u n) (st : Status) (i0 i1 : Word) :
    Toggles s (u.respond st i0 i1) n := by
  have quiet : Toggles u (u.respond st i0 i1) 0 := by
    constructor <;> simp [edges, submissions]
  exact h.trans quiet

/-- A bracket that ends has deasserted chip select after its body (R152). -/
theorem bracket_endedIn {b : Body} {s u : State} (h : (bracket b s).EndedIn u) :
    ∃ v, (b.run s.enterBracket).EndedIn v ∧ u = v.deassertSelect := by
  unfold bracket at h
  cases hr : b.run s.enterBracket with rw [hr] at h
  | ok ended => rcases h with h | h <;> cases h; exact ⟨ended, .inl rfl, rfl⟩
  | err ended => rcases h with h | h <;> cases h; exact ⟨ended, .inr rfl, rfl⟩
  | blocked waiting => exact absurd h Run.not_endedIn_blocked

theorem edges_enterBracket (l : CsLevel) (s : State) :
    edges l s.enterBracket.trace = edges l s.trace + if l = .asserted then 1 else 0 := by
  cases l <;> simp [edges]

theorem edges_deassertSelect (l : CsLevel) (s : State) :
    edges l s.deassertSelect.trace = edges l s.trace + if l = .deasserted then 1 else 0 := by
  cases l <;> simp [edges]

theorem submissions_enterBracket (s : State) : submissions s.enterBracket.trace = submissions s.trace := by
  simp [submissions]

theorem submissions_deassertSelect (s : State) :
    submissions s.deassertSelect.trace = submissions s.trace := by
  simp [submissions]

theorem bracket_toggles {b : Body} {s u : State} (hne : b.Nonempty) (h : (bracket b s).EndedIn u) :
    Toggles s u 1 := by
  obtain ⟨v, hv, rfl⟩ := bracket_endedIn h
  obtain ⟨es, hes, htxns⟩ := body_adds_txns b s.enterBracket
  have hsubmits := body_submits hne hv
  rw [hv.state_eq] at hes
  have hbody : ∀ l, edges l v.trace = edges l s.enterBracket.trace := fun l => by
    rw [hes, edges_append, edges_of_txns htxns, Nat.add_zero]
  rw [submissions_enterBracket] at hsubmits
  refine ⟨?_, ?_, ?_, ?_⟩
  · rw [edges_deassertSelect, hbody, edges_enterBracket]
    rfl
  · rw [edges_deassertSelect, hbody, edges_enterBracket]
    rfl
  · rw [submissions_deassertSelect]
    omega
  · rw [submissions_deassertSelect]
    omega

theorem patternLoop_toggles {ptr len : Word} (hne : len ≠ 0) {left : Nat} {s u : State}
    (h : (patternLoop ptr len left s).EndedIn u) : ∃ n, Toggles s u n := by
  induction left generalizing s with
  | zero =>
    rcases h with h | h <;> cases h
    exact ⟨0, .of_trace_eq rfl⟩
  | succ left ih =>
    simp only [patternLoop] at h
    cases hr : bracket (.bytes ptr len) s with rw [hr] at h
    | blocked waiting => exact absurd h Run.not_endedIn_blocked
    | err ended =>
      rcases h with h | h <;> cases h
      exact ⟨1, bracket_toggles (b := .bytes ptr len) hne (.inr hr)⟩
    | ok ended =>
      have hfirst := bracket_toggles (b := .bytes ptr len) hne (.inl hr)
      have hcount : Toggles ended ended.repetitionDone 0 := .of_trace_eq rfl
      obtain ⟨n, hrest⟩ := ih h
      exact ⟨1 + 0 + n, (hfirst.trans hcount).trans hrest⟩

/-! ### Completed writes -/

/-- What a write operation but `writePattern` comes to: a fault, the response to an empty stream, or one
bracket with something to send. -/
inductive OneBracket (s : State) : State → Prop
  | faulted (c : FaultCode) : OneBracket s (s.raiseFault c)
  | empty : OneBracket s (s.respond .ok 0 0)
  | wrote (b : Body) (hne : b.Nonempty) : OneBracket s (finishWrite (bracket b s))

theorem oneBracket_whenReady {s t : State} {run : State → State} (hrun : OneBracket s (run s))
    (h : whenReady s run = .next t) : OneBracket s t := by
  by_cases ready : s.mode = .ready
  · rw [whenReady_ready ready] at h; cases h; exact hrun
  · rw [whenReady_notReady ready] at h; cases h; exact .faulted _

theorem oneBracket_singleShot {s t : State} {cv : Byte} {av : BitVec 24} {payload : List Byte}
    (h : singleShot cv av payload s = .next t) : OneBracket s t :=
  oneBracket_whenReady (.wrote (.single cv av payload) trivial) h

theorem oneBracket_writeRepeated {s t : State} {value : Half} {count : Word}
    (h : execWriteRepeated value count s = .next t) : OneBracket s t := by
  refine oneBracket_whenReady ?_ h
  split
  · exact .empty
  next hcount => exact .wrote (.repeated value count) hcount

theorem oneBracket_writePixelStream {s t : State} {ptr count : Word}
    (h : execWritePixelStream ptr count s = .next t) : OneBracket s t := by
  refine oneBracket_whenReady ?_ h
  split
  · exact .empty
  next hcount =>
    split
    · exact .faulted _
    · exact .wrote (.pixels ptr count) hcount

theorem oneBracket_writeByteStream {s t : State} {ptr count : Word}
    (h : execWriteByteStream ptr count s = .next t) : OneBracket s t := by
  refine oneBracket_whenReady ?_ h
  split
  · exact .empty
  next hcount =>
    split
    · exact .faulted _
    · exact .wrote (.bytes ptr count) hcount

/-- A completed write of one bracket has toggled chip select at most once. -/
theorem OneBracket.toggles {s t : State} (h : OneBracket s t) (busy : s.seq = .busy) (idle : t.seq = .idle) :
    ∃ n ≤ 1, Toggles s t n := by
  cases h with
  | faulted c => simp at idle
  | empty => exact ⟨0, Nat.zero_le 1, (Toggles.of_trace_eq (t := s) rfl).respond _ _ _⟩
  | wrote b hne =>
    rcases finishWrite_cases (bracket b s) with ⟨u, hr, e⟩ | ⟨u, hr, e⟩ | ⟨u, hr, e⟩ <;> rw [e] at idle ⊢
    · exact ⟨1, le_refl 1, (bracket_toggles hne (.inl hr)).respond _ _ _⟩
    · exact ⟨1, le_refl 1, (bracket_toggles hne (.inr hr)).respond _ _ _⟩
    · have waits := (kept_bracket b s).seq
      rw [hr] at waits
      simp [Run.state, idle, busy] at waits

theorem finishPattern_toggles {s : State} {ptr len : Word} {left : Nat} (hne : len ≠ 0) (busy : s.seq = .busy)
    (idle : (finishPattern (patternLoop ptr len left s)).seq = .idle) :
    ∃ n, Toggles s (finishPattern (patternLoop ptr len left s)) n := by
  rcases finishPattern_cases (patternLoop ptr len left s) with ⟨u, hr, e⟩ | ⟨u, hr, e⟩ | ⟨u, hr, e⟩ <;>
    rw [e] at idle ⊢
  · obtain ⟨n, hn⟩ := patternLoop_toggles hne (.inl hr)
    exact ⟨n, hn.respond _ _ _⟩
  · obtain ⟨n, hn⟩ := patternLoop_toggles hne (.inr hr)
    exact ⟨n, hn.respond _ _ _⟩
  · have waits := (kept_patternLoop ptr len left s).seq
    rw [hr] at waits
    simp [Run.state, idle, busy] at waits

/-- A completed `writePattern` has toggled chip select once a repetition. -/
theorem writePattern_toggles {s t : State} {ptr len reps : Word}
    (h : execWritePattern ptr len reps s = .next t) (busy : s.seq = .busy) (idle : t.seq = .idle) :
    ∃ n, Toggles s t n := by
  by_cases ready : s.mode = .ready
  · rw [execWritePattern, whenReady_ready ready] at h
    cases h
    revert idle
    split
    · exact fun _ => ⟨0, (Toggles.of_trace_eq (t := s) rfl).respond _ _ _⟩
    next hempty =>
      split
      · intro idle
        simp at idle
      · intro idle
        have started : Toggles s { s with plan := { s.plan with repDone := 0 } } 0 := .of_trace_eq rfl
        obtain ⟨n, hn⟩ := finishPattern_toggles (s := { s with plan := { s.plan with repDone := 0 } })
          (not_or.mp hempty).2 busy idle
        exact ⟨0 + n, started.trans hn⟩
  · rw [execWritePattern, whenReady_notReady ready] at h
    cases h
    simp at idle

/-- Settles O51: a completed write is a run of whole brackets, each with a transaction in it. -/
theorem completedWritesReleaseChipSelect : Obligations.CompletedWritesReleaseChipSelect := by
  unfold Obligations.CompletedWritesReleaseChipSelect
  intro i s t hi h idle busy
  have once (hone : OneBracket s t) : ∃ n, edges .asserted t.trace = edges .asserted s.trace + n ∧
      edges .deasserted t.trace = edges .deasserted s.trace + n ∧
      (submissions t.trace = submissions s.trace ↔ n = 0) ∧
      ((∀ ptr len reps, i ≠ .writePattern ptr len reps) → n ≤ 1) := by
    obtain ⟨n, hn, htoggles⟩ := hone.toggles busy idle
    exact ⟨n, htoggles.asserted, htoggles.deasserted, htoggles.silent, fun _ => hn⟩
  cases i with
  | openEngine => cases hi
  | reservedB low => cases hi
  | reservedCtoF low => cases hi
  | writeRepeated value count => exact once (oneBracket_writeRepeated h)
  | writePixelStream ptr count => exact once (oneBracket_writePixelStream h)
  | writeByteStream ptr count => exact once (oneBracket_writeByteStream h)
  | writePattern ptr len reps =>
    obtain ⟨n, htoggles⟩ := writePattern_toggles h busy idle
    exact ⟨n, htoggles.asserted, htoggles.deasserted, htoggles.silent, fun hne => absurd rfl (hne ptr len reps)⟩
  | _ => exact once (oneBracket_singleShot h)

end Sys2Proof.Machine
end

section
/-! PROOFS. The chunks of a stream as bytes: what each payload holds, what the payloads leave in the
TransferBuffer, and what a source fill reads, element by element. -/

namespace Sys2Proof.Machine

open Sys2Proof.Statements

/-! ### Payloads -/

theorem payloadAt_length (size : Nat) (bytes : List Byte) (k : Nat) :
    (payloadAt size bytes k).length = min size (bytes.length - k * size) := by
  simp [payloadAt]

theorem payloadAt_getElem? (size : Nat) (bytes : List Byte) (k i : Nat) :
    (payloadAt size bytes k)[i]? = if i < size then bytes[k * size + i]? else none := by
  simp [payloadAt, List.getElem?_take]

/-- The payload of a one-byte element. -/
theorem payloadAt_one {bytes : List Byte} {k : Nat} {b : Byte} (h : bytes[k]? = some b) :
    payloadAt 1 bytes k = [b] := by
  refine List.ext_getElem? fun i => ?_
  rw [payloadAt_getElem?]
  match i with
  | 0 => simpa using h
  | i + 1 => simp

/-- The payload of a two-byte element. -/
theorem payloadAt_two {bytes : List Byte} {k : Nat} {b0 b1 : Byte} (h0 : bytes[2 * k]? = some b0)
    (h1 : bytes[2 * k + 1]? = some b1) : payloadAt 2 bytes k = [b0, b1] := by
  refine List.ext_getElem? fun i => ?_
  rw [payloadAt_getElem?, Nat.mul_comm k 2]
  match i with
  | 0 => simpa using h0
  | 1 => simpa using h1
  | i + 2 => simp

/-- A word after word: the stream of `writeRepeated` from element `m` on. -/
theorem drop_repeated (v : Half) (n m : Nat) :
    (List.replicate n (be16 v)).flatten.drop (2 * m) = (List.replicate (n - m) (be16 v)).flatten := by
  induction m generalizing n with
  | zero => simp
  | succ m ih =>
    cases n with
    | zero => simp
    | succ n => simpa [List.replicate_succ, be16, Nat.mul_succ] using ih n

theorem take_repeated (v : Half) (n m : Nat) :
    (List.replicate n (be16 v)).flatten.take (2 * m) = (List.replicate (min m n) (be16 v)).flatten := by
  induction m generalizing n with
  | zero => simp
  | succ m ih =>
    cases n with
    | zero => simp
    | succ n => simpa [List.replicate_succ, be16, Nat.mul_succ, Nat.succ_min_succ] using ih n

/-- Every payload of `writeRepeated` is the same word again and again (R210). -/
theorem payloadAt_repeated (v : Half) (cap n k : Nat) :
    payloadAt (2 * cap) (List.replicate n (be16 v)).flatten k =
      (List.replicate (min cap (n - k * cap)) (be16 v)).flatten := by
  have hstart : k * (2 * cap) = 2 * (k * cap) := Nat.mul_left_comm k 2 cap
  rw [payloadAt, hstart, drop_repeated, take_repeated]

/-- Fewer repetitions are the beginning of more. -/
theorem repeated_isPrefix (v : Half) {m n : Nat} (h : m ≤ n) :
    (List.replicate m (be16 v)).flatten <+: (List.replicate n (be16 v)).flatten := by
  have htake := take_repeated v n m
  rw [Nat.min_eq_left h] at htake
  exact ⟨_, htake ▸ List.take_append_drop (2 * m) _⟩

/-! ### The TransferBuffer after the first chunks -/

/-- The buffer after the payloads `0 .. k - 1` were put at its start, one after the other. -/
def bufferThrough (buf : List Byte) (size : Nat) (bytes : List Byte) (k : Nat) : List Byte :=
  match k with
  | 0 => buf
  | k + 1 => overwrite (bufferThrough buf size bytes k) (payloadAt size bytes k)

/-- Writing what stands there already changes nothing. -/
theorem overwrite_of_isPrefix {buf bs : List Byte} (h : bs <+: buf) : overwrite buf bs = buf := by
  obtain ⟨tail, rfl⟩ := h
  simp [overwrite]

theorem isPrefix_overwrite (buf bs : List Byte) : bs <+: overwrite buf bs := ⟨buf.drop bs.length, rfl⟩

theorem bufferThrough_of_isPrefix {buf : List Byte} {size : Nat} {bytes : List Byte}
    (h : ∀ k, payloadAt size bytes k <+: buf) (k : Nat) : bufferThrough buf size bytes k = buf := by
  induction k with
  | zero => rfl
  | succ k ih => rw [bufferThrough, ih, overwrite_of_isPrefix (h k)]

/-- It makes no difference whether payload 0 stands in the buffer before its own chunk. -/
theorem bufferThrough_overwrite (buf : List Byte) (size : Nat) (bytes : List Byte) (k : Nat) :
    bufferThrough (overwrite buf (payloadAt size bytes 0)) size bytes (k + 1) =
      bufferThrough buf size bytes (k + 1) := by
  induction k with
  | zero => exact overwrite_of_isPrefix (isPrefix_overwrite _ _)
  | succ k ih => rw [bufferThrough, ih, ← bufferThrough]

/-- The payload put last stands at the front, behind it what the whole payload before it left, and every
other byte as before. -/
theorem bufferThrough_getElem? (buf : List Byte) {size : Nat} {bytes : List Byte} {last : Nat}
    (h : last * size ≤ bytes.length) (k : Nat) :
    (bufferThrough buf size bytes (last + 1))[k]? =
      if k < (payloadAt size bytes last).length then bytes[last * size + k]?
      else if k < min bytes.length size then bytes[(last - 1) * size + k]?
      else buf[k]? := by
  have front : ∀ j, k < (payloadAt size bytes j).length →
      (payloadAt size bytes j)[k]? = bytes[j * size + k]? := fun j hk => by
    rw [payloadAt_length] at hk
    rw [payloadAt_getElem?, if_pos (by omega)]
  induction last with
  | zero =>
    have hlen := payloadAt_length size bytes 0
    rw [bufferThrough, bufferThrough, overwrite_getElem?]
    by_cases hk : k < (payloadAt size bytes 0).length
    · rw [if_pos hk, if_pos hk, front 0 hk]
    · rw [if_neg hk, if_neg hk, if_neg (by omega)]
  | succ last ih =>
    have hsucc : (last + 1) * size = last * size + size := Nat.succ_mul last size
    have hwhole := payloadAt_length size bytes last
    rw [bufferThrough, overwrite_getElem?]
    by_cases hk : k < (payloadAt size bytes (last + 1)).length
    · rw [if_pos hk, if_pos hk, front _ hk]
    · rw [if_neg hk, if_neg hk, ih (by omega), Nat.add_sub_cancel]
      by_cases hsize : k < size
      · rw [if_pos (by omega), if_pos (by omega)]
      · rw [if_neg (by omega), if_neg (by omega), if_neg (by omega)]

theorem bufferAfter_of_bufferThrough {s t : State} {bytes : List Byte} {last : Nat}
    (hlen : last * capBytes s.params ≤ bytes.length)
    (h : t.buf = bufferThrough s.buf (capBytes s.params) bytes (last + 1)) : BufferAfter s t bytes last := by
  intro k
  rw [h, bufferThrough_getElem? _ hlen]

/-! ### Source fills, element by element -/

/-- `capElems * elemBytes = CAP_BYTES` (R200). -/
theorem Fill.capElems_mul_elemBytes (f : Fill) (p : Params) : f.capElems p * f.elemBytes = capBytes p := by
  cases f <;> simp only [Fill.capElems, Fill.elemBytes, capWords, capBytes] <;> omega

theorem Fill.capElems_pos (f : Fill) (p : Params) : 0 < f.capElems p := by
  have := p.cap.property.1
  cases f <;> simp only [Fill.capElems, capWords, capBytes] <;> omega

theorem Fill.elemBytes_pos (f : Fill) : 0 < f.elemBytes := by cases f <;> decide

/-- A fill whose elements are admitted reads exactly them (R221, R231). -/
theorem sourceBytes_eq {f : Fill} (hf : f ≠ .reuse) {s : State} {bytes : List Byte} {i m : Nat}
    (h : ∀ k < m, f.element s k = some (payloadAt f.elemBytes bytes (i + k)))
    (hlen : (i + m) * f.elemBytes ≤ bytes.length) :
    f.sourceBytes s m = (bytes.drop (i * f.elemBytes)).take (m * f.elemBytes) := by
  induction m with
  | zero =>
    have := sourceBytes_length_le f s 0
    rw [Nat.zero_mul] at this ⊢
    exact List.length_eq_zero_iff.mp (by omega)
  | succ m ih =>
    have hstart : (i + m) * f.elemBytes = i * f.elemBytes + m * f.elemBytes := Nat.add_mul ..
    have hnext : (i + (m + 1)) * f.elemBytes = i * f.elemBytes + m * f.elemBytes + f.elemBytes := by
      rw [Nat.add_mul, Nat.succ_mul, Nat.add_assoc]
    rw [sourceBytes_succ hf, ih (fun k hk => h k (by omega)) (by omega), h m (by omega), if_pos, Nat.succ_mul,
      List.take_add, List.drop_drop, Option.getD_some, payloadAt, hstart]
    simp
    omega

/-- A fill stops at the first element that is not admitted (R267). -/
theorem sourceBytes_stops {f : Fill} (hf : f ≠ .reuse) {s : State} {r m : Nat} (hr : f.element s r = none)
    (hm : r ≤ m) : f.sourceBytes s m = f.sourceBytes s r := by
  induction m, hm using Nat.le_induction with
  | base => rfl
  | succ m hm ih =>
    rw [sourceBytes_succ hf, ih]
    by_cases hwhole : (f.sourceBytes s r).length = m * f.elemBytes
    · have hle := sourceBytes_length_le f s r
      have heq : r = m := by
        by_contra hne
        have := Nat.mul_lt_mul_of_pos_right (show r < m by omega) f.elemBytes_pos
        omega
      rw [if_pos hwhole, ← heq, hr, Option.getD_none, List.append_nil]
    · rw [if_neg hwhole, List.append_nil]

end Sys2Proof.Machine
end

section
/-! PROOFS. One streamed bracket as a whole: the state after its first Ok answers, written out field by field;
the chunk loop walks through these states, and ends in one of three (R200 to R207). -/

namespace Sys2Proof.Machine

open Sys2Proof.Statements

/-! ### The states of a streamed bracket -/

/-- One streamed bracket: its fill, its element count, its wire bytes, and `filled`, the source pointer and the
buffer at its first chunk. -/
structure Streaming where
  fill : Fill
  total : Word
  bytes : List Byte
  filled : Word
  src : Nat
  buf : List Byte

/-- How far `srcAddr` moves with an element: `writeRepeated` has no source (R210, R221, R231). -/
def Fill.stride (f : Fill) : Nat :=
  match f with
  | .reuse => 0
  | .pixel => 2
  | .byte => 1

theorem Fill.stride_source {f : Fill} (hf : f ≠ .reuse) : f.stride = f.elemBytes := by
  cases f with
  | reuse => exact absurd rfl hf
  | _ => rfl

/-- `capElems` (R200). -/
abbrev Streaming.cap (w : Streaming) (s : State) : Nat := w.fill.capElems s.params

/-- The elements of the first `k` chunks. -/
def Streaming.elementsOf (w : Streaming) (s : State) (k : Nat) : Nat := min w.total.toNat (k * w.cap s)

/-- The elements of chunk `k` (R205). -/
def Streaming.chunkOf (w : Streaming) (s : State) (k : Nat) : Nat := min (w.total.toNat - k * w.cap s) (w.cap s)

/-- The engine in a bracket begun in `s`, after `k` Ok answers, with `draws` still to come. -/
def Streaming.sent (w : Streaming) (s : State) (k : Nat) (draws : List SubmitAnswer) : State :=
  { s with
    env := { s.env with submits := draws }
    cs := .asserted
    platform := selectedPlatform s
    framing := if k = 0 then .framed else .continuation
    plan := { s.plan with
      remaining := BitVec.ofNat 32 (w.total.toNat - k * w.cap s)
      srcAddr := w.src + w.elementsOf s k * w.fill.stride
      chunk := if k = 0 then s.plan.chunk else BitVec.ofNat 32 (w.chunkOf s (k - 1))
      filled := w.filled
      txDone := BitVec.ofNat 32 k }
    txn := if k = 0 then s.txn else recordAt (capBytes s.params) w.bytes (k - 1)
    retained := if k = 0 then s.retained else some s.params.lanes.cmd32.data
    buf := bufferThrough w.buf (capBytes s.params) w.bytes k
    trace := s.trace ++ selectEvents s ++ okEvents (capBytes s.params) w.bytes k }

/-- The engine there with chunk `k` in the buffer and its record in `T`. -/
def Streaming.loaded (w : Streaming) (s : State) (k : Nat) (draws : List SubmitAnswer) : State :=
  { w.sent s k draws with
    plan := { (w.sent s k draws).plan with
      srcAddr := w.src + w.elementsOf s (k + 1) * w.fill.stride
      chunk := BitVec.ofNat 32 (w.chunkOf s k) }
    txn := recordAt (capBytes s.params) w.bytes k
    buf := bufferThrough w.buf (capBytes s.params) w.bytes (k + 1) }

/-- Submission `j` has answered Err (R207). -/
def Streaming.failed (w : Streaming) (s : State) (j n : Nat) (draws : List SubmitAnswer) : State :=
  { w.loaded s j draws with
    retained := Config.retainedAfterErr s.frees
    frees := s.frees + 1
    trace := s.trace ++ selectEvents s ++ okEvents (capBytes s.params) w.bytes j
      ++ [.txn (recordAt (capBytes s.params) w.bytes j) (some (.err n))] }

/-- Submission `j` is not answered (R263). -/
def Streaming.hung (w : Streaming) (s : State) (j : Nat) : State :=
  { w.loaded s j [] with
    retained := some s.params.lanes.cmd32.data
    waiting := .busDriver
    trace := s.trace ++ selectEvents s ++ okEvents (capBytes s.params) w.bytes j
      ++ [.txn (recordAt (capBytes s.params) w.bytes j) none] }

/-- Chunk `q` meets a read that is not admitted: what was read of it stands in the buffer (R267; log 16). -/
def Streaming.stuck (w : Streaming) (s : State) (q : Nat) (draws : List SubmitAnswer) : State :=
  { w.sent s q draws with
    plan := { (w.sent s q draws).plan with chunk := BitVec.ofNat 32 (w.chunkOf s q) }
    buf := bufferThrough w.buf (capBytes s.params) w.bytes (q + 1)
    waiting := .hostMemory }

/-! ### Numbers of chunks -/

theorem Streaming.remaining_toNat (w : Streaming) (s : State) (k : Nat) (draws : List SubmitAnswer) :
    (w.sent s k draws).plan.remaining.toNat = w.total.toNat - k * w.cap s := by
  have := w.total.isLt
  simp only [sent, BitVec.toNat_ofNat]
  omega

theorem Streaming.chunkOf_lt (w : Streaming) (s : State) (k : Nat) : w.chunkOf s k < 2 ^ 32 := by
  have := w.total.isLt
  unfold chunkOf
  omega

theorem Streaming.remaining_ne_zero {w : Streaming} {s : State} {k : Nat} (hk : k * w.cap s < w.total.toNat)
    (draws : List SubmitAnswer) : (w.sent s k draws).plan.remaining ≠ 0 := by
  have hremaining := w.remaining_toNat s k draws
  rw [BitVec.toNat_ne, hremaining]
  change _ ≠ 0
  omega

/-- `setChunk` takes chunk `k` after `k` Ok answers (R200). -/
theorem Streaming.setChunk_sent (w : Streaming) (s : State) (k : Nat) (draws : List SubmitAnswer) :
    (w.sent s k draws).setChunk w.fill = { w.sent s k draws with
      plan := { (w.sent s k draws).plan with chunk := BitVec.ofNat 32 (w.chunkOf s k) } } := by
  rw [State.setChunk, w.remaining_toNat]
  rfl

/-- Chunk `k` follows the chunks before it. -/
theorem Streaming.elementsOf_succ {w : Streaming} {s : State} {k : Nat} (hk : k * w.cap s < w.total.toNat) :
    w.elementsOf s (k + 1) = k * w.cap s + w.chunkOf s k := by
  rw [elementsOf, chunkOf, Nat.succ_mul]
  omega

theorem Streaming.elementsOf_whole {w : Streaming} {s : State} {k : Nat} (hk : k * w.cap s < w.total.toNat) :
    w.elementsOf s k = k * w.cap s := Nat.min_eq_right hk.le

/-! ### Records -/

theorem chunkTxn_recordAt (size : Nat) (bytes : List Byte) (k : Nat) :
    chunkTxn (if k = 0 then .framed else .continuation) (payloadAt size bytes k) = recordAt size bytes k := by
  unfold recordAt
  by_cases hk : k = 0
  · subst hk
    rfl
  · rw [if_neg hk, if_neg hk]
    rfl

/-- After the first record of a stream the driver retains its lanes, and no later one changes that (R57). -/
theorem retainedAfter_recordAt (p : Params) (size : Nat) (bytes : List Byte) (k : Nat)
    (before : Option LaneCount) :
    retainedAfter p (recordAt size bytes k) (if k = 0 then before else some p.lanes.cmd32.data) =
      some p.lanes.cmd32.data := by
  unfold recordAt
  by_cases hk : k = 0
  · rw [if_pos hk, if_pos hk]
    rfl
  · rw [if_neg hk, if_neg hk]
    rfl

theorem okEvents_succ (size : Nat) (bytes : List Byte) (n : Nat) :
    okEvents size bytes (n + 1) = okEvents size bytes n ++ [.txn (recordAt size bytes n) (some .ok)] := by
  simp [okEvents, List.range_succ]

theorem oks_succ_append (n : Nat) (rest : List SubmitAnswer) : oks (n + 1) ++ rest = oks n ++ .ok :: rest := by
  simp [oks, List.replicate_succ']

/-! ### One iteration of the loop -/

/-- Chunk `k` is a chunk of the stream, and its fill ends with its record in `T`. -/
structure Streaming.Fills (w : Streaming) (s : State) (k : Nat) : Prop where
  remains : k * w.cap s < w.total.toNat
  fill : ∀ draws, ∃ filled,
    w.fill.run ((w.sent s k draws).setChunk w.fill) ((w.sent s k draws).setChunk w.fill).plan.chunk.toNat
      = .ok filled ∧
    filled.loadChunk w.fill filled.plan.chunk.toNat = w.loaded s k draws

/-- What remains after one chunk more. -/
theorem ofNat_sub_ofNat {m n : Nat} (hn : n < 2 ^ 32) (h : m ≤ n) :
    BitVec.ofNat 32 n - BitVec.ofNat 32 m = BitVec.ofNat 32 (n - m) := by
  apply BitVec.eq_of_toNat_eq
  simp only [BitVec.toNat_sub, BitVec.toNat_ofNat]
  omega

/-- An Ok answer to chunk `k` is the answer number `k + 1` (R200). -/
theorem Streaming.loaded_ok (w : Streaming) (s : State) (k : Nat) (rest : List SubmitAnswer) :
    ∃ answered, (w.loaded s k (.ok :: rest)).submit = .ok answered ∧
      answered.chunkDone = w.sent s (k + 1) rest := by
  refine ⟨_, submit_ok rfl, ?_⟩
  have hremaining : BitVec.ofNat 32 (w.total.toNat - k * w.cap s) - BitVec.ofNat 32 (w.chunkOf s k) =
      BitVec.ofNat 32 (w.total.toNat - (k + 1) * w.cap s) := by
    have := w.total.isLt
    rw [chunkOf, ofNat_sub_ofNat (by omega) (Nat.min_le_left _ _), Nat.succ_mul]
    congr 1
    omega
  have hdone : BitVec.ofNat 32 k + 1 = BitVec.ofNat 32 (k + 1) := (BitVec.ofNat_add k 1).symm
  simp only [State.chunkDone, loaded, sent, okEvents_succ, hremaining, hdone, retainedAfter_recordAt,
    Nat.succ_ne_zero, if_false, Nat.add_sub_cancel, List.append_assoc]

theorem Streaming.streamLoop_sent_ok {w : Streaming} {s : State} {k : Nat} (h : w.Fills s k) (bound : Nat)
    (rest : List SubmitAnswer) : streamLoop w.fill (bound + 1) (w.sent s k (.ok :: rest)) =
      streamLoop w.fill bound (w.sent s (k + 1) rest) := by
  obtain ⟨filled, hrun, hload⟩ := h.fill (.ok :: rest)
  obtain ⟨answered, hsubmit, hdone⟩ := w.loaded_ok s k rest
  rw [streamLoop_ok (remaining_ne_zero h.remains _) hrun (hload ▸ hsubmit), hdone]

/-- The loop goes through the first `j` chunks while their answers are Ok. -/
theorem Streaming.streamLoop_oks {w : Streaming} {s : State} {j : Nat} (h : ∀ k < j, w.Fills s k) (bound : Nat)
    (rest : List SubmitAnswer) : streamLoop w.fill (bound + j) (w.sent s 0 (oks j ++ rest)) =
      streamLoop w.fill bound (w.sent s j rest) := by
  induction j generalizing bound rest with
  | zero => rfl
  | succ j ih =>
    rw [oks_succ_append, ← Nat.add_assoc, Nat.add_right_comm,
      ih (fun k hk => h k (Nat.lt_succ_of_lt hk)), streamLoop_sent_ok (h j (Nat.lt_succ_self j))]

/-- Chunk `j` is in time: an element at least goes with every chunk before it (R205). -/
theorem Streaming.exists_bound {w : Streaming} {s : State} {j : Nat} (hj : j * w.cap s < w.total.toNat) :
    ∃ bound, w.total.toNat = bound + 1 + j := by
  have : j ≤ j * w.cap s := Nat.le_mul_of_pos_right j (w.fill.capElems_pos s.params)
  exact ⟨w.total.toNat - j - 1, by omega⟩

/-! ### The ends of the loop -/

/-- Submission `j` answers Err (R207). -/
theorem Streaming.streamLoop_failed {w : Streaming} {s : State} {j : Nat} (h : ∀ k ≤ j, w.Fills s k) (n : Nat)
    (rest : List SubmitAnswer) :
    streamLoop w.fill w.total.toNat (w.sent s 0 (oks j ++ .err n :: rest)) = .err (w.failed s j n rest) := by
  have hlast := h j (le_refl j)
  obtain ⟨bound, hbound⟩ := exists_bound hlast.remains
  obtain ⟨filled, hrun, hload⟩ := hlast.fill (.err n :: rest)
  have hsubmit : (w.loaded s j (.err n :: rest)).submit = .err (w.failed s j n rest) := submit_err rfl
  rw [hbound, streamLoop_oks (fun k hk => h k hk.le),
    streamLoop_err (remaining_ne_zero hlast.remains _) hrun (hload ▸ hsubmit)]

/-- Submission `j` is never answered (R263). -/
theorem Streaming.streamLoop_hung {w : Streaming} {s : State} {j : Nat} (h : ∀ k ≤ j, w.Fills s k) :
    streamLoop w.fill w.total.toNat (w.sent s 0 (oks j)) = .blocked (w.hung s j) := by
  have hlast := h j (le_refl j)
  obtain ⟨bound, hbound⟩ := exists_bound hlast.remains
  obtain ⟨filled, hrun, hload⟩ := hlast.fill []
  have hheld := retainedAfter_recordAt s.params (capBytes s.params) w.bytes j s.retained
  have hsubmit : (w.loaded s j []).submit = .blocked (w.hung s j) :=
    (submit_blocked rfl).trans (by rw [hung, ← hheld]; rfl)
  have hloop := streamLoop_oks (fun k hk => h k hk.le) (bound + 1) []
  rw [List.append_nil] at hloop
  rw [hbound, hloop, streamLoop_hang (remaining_ne_zero hlast.remains _) hrun (hload ▸ hsubmit)]

/-- The fill of chunk `q` meets a read that is not admitted (R267). -/
theorem Streaming.streamLoop_stuck_at {w : Streaming} {s : State} {q : Nat} (h : ∀ k < q, w.Fills s k)
    (hq : q * w.cap s < w.total.toNat) {rest : List SubmitAnswer}
    (hstuck : w.fill.run ((w.sent s q rest).setChunk w.fill)
      ((w.sent s q rest).setChunk w.fill).plan.chunk.toNat = .blocked (w.stuck s q rest)) :
    streamLoop w.fill w.total.toNat (w.sent s 0 (oks q ++ rest)) = .blocked (w.stuck s q rest) := by
  obtain ⟨bound, hbound⟩ := exists_bound hq
  rw [hbound, streamLoop_oks h, streamLoop_stuck (remaining_ne_zero hq _) hstuck]

/-! ### What the fills need of the source -/

/-- Element `k` of the source, from the stream's pointer on. -/
def Streaming.element (w : Streaming) (s : State) (k : Nat) : Option (List Byte) :=
  w.fill.element { s with plan := { s.plan with srcAddr := w.src } } k

/-- The first `n` elements of the stream are at hand, and `bytes` are theirs: in the source, or for
`writeRepeated` in the buffer (R210, R221, R231). -/
structure Streaming.Supplied (w : Streaming) (s : State) (n : Nat) : Prop where
  le : n ≤ w.total.toNat
  length : w.bytes.length = n * w.fill.elemBytes
  source : w.fill ≠ .reuse → ∀ k < n, w.element s k = some (payloadAt w.fill.elemBytes w.bytes k)
  buffer : w.fill = .reuse → ∀ k, payloadAt (capBytes s.params) w.bytes k <+: w.buf

/-- The source seen from a chunk's start is the source from there on. -/
theorem Streaming.element_of_srcAddr {w : Streaming} {s u : State} {i : Nat} (hmem : u.env.mem = s.env.mem)
    (hparams : u.params = s.params) (hsrc : u.plan.srcAddr = w.src + i * w.fill.stride) (k : Nat) :
    w.fill.element u k = w.element s (i + k) := by
  unfold element
  cases hf : w.fill with rw [hf] at hsrc
  | reuse => rfl
  | pixel =>
    have haddr : w.src + i * 2 + 2 * k = w.src + 2 * (i + k) := by omega
    simp only [Fill.element, hmem, hparams, hsrc, Fill.stride, haddr]
  | byte =>
    have haddr : w.src + i * 1 + k = w.src + (i + k) := by omega
    simp only [Fill.element, hmem, hparams, hsrc, Fill.stride, haddr]

/-- A payload is the bytes of its chunk's elements. -/
theorem Streaming.payloadAt_eq {w : Streaming} {s : State} {n : Nat} (h : w.Supplied s n) (k : Nat) :
    payloadAt (capBytes s.params) w.bytes k =
      (w.bytes.drop (k * w.cap s * w.fill.elemBytes)).take (w.chunkOf s k * w.fill.elemBytes) := by
  have hsize : w.cap s * w.fill.elemBytes = capBytes s.params := w.fill.capElems_mul_elemBytes s.params
  rw [payloadAt, ← hsize, ← Nat.mul_assoc, List.take_eq_take_iff, List.length_drop, h.length]
  have hle : (n - k * w.cap s) * w.fill.elemBytes ≤ (w.total.toNat - k * w.cap s) * w.fill.elemBytes :=
    Nat.mul_le_mul_right _ (Nat.sub_le_sub_right h.le _)
  rw [← Nat.sub_mul, chunkOf, ← Nat.mul_min_mul_right]
  omega

theorem Streaming.payloadAt_length_eq {w : Streaming} {s : State} {n : Nat} (h : w.Supplied s n) (k : Nat) :
    (payloadAt (capBytes s.params) w.bytes k).length =
      min (w.chunkOf s k) (n - k * w.cap s) * w.fill.elemBytes := by
  rw [w.payloadAt_eq h, List.length_take, List.length_drop, h.length, ← Nat.sub_mul, Nat.mul_min_mul_right]

theorem Streaming.payloadAt_length_whole {w : Streaming} {s : State} {n k : Nat} (h : w.Supplied s n)
    (hk : k * w.cap s < w.total.toNat) (hn : w.elementsOf s (k + 1) ≤ n) :
    (payloadAt (capBytes s.params) w.bytes k).length = w.chunkOf s k * w.fill.elemBytes := by
  rw [elementsOf_succ hk] at hn
  rw [w.payloadAt_length_eq h, Nat.min_eq_left (by omega)]

/-- The source seen from chunk `k`. -/
theorem Streaming.element_sent {w : Streaming} {s : State} {k : Nat} (hk : k * w.cap s < w.total.toNat)
    (draws : List SubmitAnswer) (i : Nat) :
    w.fill.element ((w.sent s k draws).setChunk w.fill) i = w.element s (k * w.cap s + i) :=
  element_of_srcAddr rfl rfl
    (show w.src + w.elementsOf s k * w.fill.stride = _ by rw [elementsOf_whole hk]) i

/-- The engine with chunk `k` in the buffer, `T` still as it was. -/
def Streaming.filledAt (w : Streaming) (s : State) (k : Nat) (draws : List SubmitAnswer) : State :=
  { w.loaded s k draws with txn := (w.sent s k draws).txn }

theorem Streaming.chunk_toNat (w : Streaming) (s : State) (k : Nat) :
    (BitVec.ofNat 32 (w.chunkOf s k)).toNat = w.chunkOf s k := by
  rw [BitVec.toNat_ofNat, Nat.mod_eq_of_lt (w.chunkOf_lt s k)]

theorem Streaming.chunk_sent_toNat (w : Streaming) (s : State) (k : Nat) (draws : List SubmitAnswer) :
    ((w.sent s k draws).setChunk w.fill).plan.chunk.toNat = w.chunkOf s k := by
  rw [w.setChunk_sent]
  exact w.chunk_toNat s k

/-- The bytes that the chunk takes from the buffer are its payload (R201, R202). -/
theorem Streaming.loadChunk_filledAt {w : Streaming} {s : State} {k : Nat}
    (hlen : (payloadAt (capBytes s.params) w.bytes k).length = w.chunkOf s k * w.fill.elemBytes)
    (draws : List SubmitAnswer) :
    (w.filledAt s k draws).loadChunk w.fill (w.filledAt s k draws).plan.chunk.toNat = w.loaded s k draws := by
  have hpayload : (w.filledAt s k draws).bufB (w.chunkOf s k * w.fill.elemBytes) =
      payloadAt (capBytes s.params) w.bytes k := by
    rw [← hlen]
    exact List.take_left
  have hchunk : (w.filledAt s k draws).plan.chunk.toNat = w.chunkOf s k := w.chunk_toNat s k
  rw [State.loadChunk, hchunk, hpayload, filledAt, loaded, ← chunkTxn_recordAt]
  rfl

/-- `writeRepeated` finds its words in the buffer (R210). -/
theorem Streaming.run_reuse {w : Streaming} {s : State} {n : Nat} (h : w.Supplied s n) (hf : w.fill = .reuse)
    (k : Nat) (draws : List SubmitAnswer) (m : Nat) :
    w.fill.run ((w.sent s k draws).setChunk w.fill) m = .ok (w.filledAt s k draws) := by
  have hrun : ∀ u, w.fill.run u m = .ok u := fun u => by rw [hf]; rfl
  have hbuf := bufferThrough_of_isPrefix (h.buffer hf)
  have hstride : w.fill.stride = 0 := by rw [hf]; rfl
  rw [hrun, w.setChunk_sent]
  simp only [filledAt, loaded, sent, hbuf, hstride, Nat.mul_zero]

/-- A source fill reads the payload of its chunk (R221, R231). -/
theorem Streaming.sourceBytes_sent {w : Streaming} {s : State} {n k : Nat} (h : w.Supplied s n)
    (hf : w.fill ≠ .reuse) (hk : k * w.cap s < w.total.toNat) (hn : w.elementsOf s (k + 1) ≤ n)
    (draws : List SubmitAnswer) :
    w.fill.sourceBytes ((w.sent s k draws).setChunk w.fill) (w.chunkOf s k) =
      payloadAt (capBytes s.params) w.bytes k := by
  rw [elementsOf_succ hk] at hn
  rw [w.payloadAt_eq h]
  refine sourceBytes_eq hf (fun i hi => ?_) (by rw [h.length]; exact Nat.mul_le_mul_right _ hn)
  rw [element_sent hk]
  exact h.source hf _ (by omega)

theorem Streaming.run_source {w : Streaming} {s : State} {n k : Nat} (h : w.Supplied s n)
    (hf : w.fill ≠ .reuse) (hk : k * w.cap s < w.total.toNat) (hn : w.elementsOf s (k + 1) ≤ n)
    (draws : List SubmitAnswer) :
    w.fill.run ((w.sent s k draws).setChunk w.fill) (w.chunkOf s k) = .ok (w.filledAt s k draws) := by
  have hbytes := sourceBytes_sent h hf hk hn draws
  have hlen := payloadAt_length_whole h hk hn
  have hsrc : w.src + w.elementsOf s k * w.fill.stride + w.chunkOf s k * w.fill.elemBytes =
      w.src + w.elementsOf s (k + 1) * w.fill.stride := by
    rw [elementsOf_whole hk, elementsOf_succ hk, Fill.stride_source hf, Nat.add_mul, Nat.add_assoc]
  rw [fill_eq_fromSource hf, fromSource_ok (by rw [hbytes, hlen]), hbytes, w.setChunk_sent]
  simp only [filledAt, loaded, sent, hsrc]
  rfl

/-- Every chunk that is supplied fills. -/
theorem Streaming.fills_of_supplied {w : Streaming} {s : State} {n k : Nat} (h : w.Supplied s n)
    (hk : k * w.cap s < w.total.toNat) (hn : w.elementsOf s (k + 1) ≤ n) : w.Fills s k := by
  have hlen := payloadAt_length_whole h hk hn
  refine ⟨hk, fun draws => ⟨w.filledAt s k draws, ?_, loadChunk_filledAt hlen draws⟩⟩
  rw [w.chunk_sent_toNat]
  by_cases hf : w.fill = .reuse
  · exact run_reuse h hf k draws _
  · exact run_source h hf hk hn draws

/-- All the chunks up to chunk `j` fill when their elements are supplied. -/
theorem Streaming.fills_through {w : Streaming} {s : State} {n j : Nat} (h : w.Supplied s n)
    (hj : j * w.cap s < w.total.toNat) (hn : w.elementsOf s (j + 1) ≤ n) : ∀ k ≤ j, w.Fills s k := by
  intro k hk
  have hstart : k * w.cap s ≤ j * w.cap s := Nat.mul_le_mul_right _ hk
  have hend : (k + 1) * w.cap s ≤ (j + 1) * w.cap s := Nat.mul_le_mul_right _ (Nat.succ_le_succ hk)
  refine fills_of_supplied h (by omega) (le_trans ?_ hn)
  unfold elementsOf
  omega

/-- The fill of chunk `q`, whose element number `n` of the stream is the first that is not admitted, reads the
elements of the chunk before it. -/
theorem Streaming.sourceBytes_stuck {w : Streaming} {s : State} {n q : Nat} (h : w.Supplied s n)
    (hf : w.fill ≠ .reuse) (hnone : w.element s n = none) (hn : n < w.total.toNat) (hlow : q * w.cap s ≤ n)
    (hhigh : n < q * w.cap s + w.cap s) (draws : List SubmitAnswer) :
    w.fill.sourceBytes ((w.sent s q draws).setChunk w.fill) (w.chunkOf s q) =
      payloadAt (capBytes s.params) w.bytes q := by
  have hq : q * w.cap s < w.total.toNat := by omega
  have hn_eq : q * w.cap s + (n - q * w.cap s) = n := by omega
  have hshort : n - q * w.cap s ≤ w.chunkOf s q := by unfold chunkOf; omega
  have hrest : (w.bytes.drop (q * w.cap s * w.fill.elemBytes)).length =
      (n - q * w.cap s) * w.fill.elemBytes := by
    rw [List.length_drop, h.length, ← Nat.sub_mul]
  calc w.fill.sourceBytes ((w.sent s q draws).setChunk w.fill) (w.chunkOf s q)
      = w.fill.sourceBytes ((w.sent s q draws).setChunk w.fill) (n - q * w.cap s) :=
        sourceBytes_stops hf (by rw [element_sent hq, hn_eq, hnone]) hshort
    _ = (w.bytes.drop (q * w.cap s * w.fill.elemBytes)).take ((n - q * w.cap s) * w.fill.elemBytes) := by
        refine sourceBytes_eq hf (fun i hi => ?_) (by rw [h.length, hn_eq])
        rw [element_sent hq]
        exact h.source hf _ (by omega)
    _ = payloadAt (capBytes s.params) w.bytes q := by
        rw [w.payloadAt_eq h, List.take_of_length_le hrest.le, List.take_of_length_le]
        exact hrest ▸ Nat.mul_le_mul_right _ hshort

/-- Such a fill is stuck (R267). -/
theorem Streaming.run_stuck {w : Streaming} {s : State} {n q : Nat} (h : w.Supplied s n)
    (hf : w.fill ≠ .reuse) (hnone : w.element s n = none) (hn : n < w.total.toNat) (hlow : q * w.cap s ≤ n)
    (hhigh : n < q * w.cap s + w.cap s) (draws : List SubmitAnswer) :
    w.fill.run ((w.sent s q draws).setChunk w.fill) ((w.sent s q draws).setChunk w.fill).plan.chunk.toNat =
      .blocked (w.stuck s q draws) := by
  have hbytes := sourceBytes_stuck h hf hnone hn hlow hhigh draws
  have hshort : min (w.chunkOf s q) (n - q * w.cap s) < w.chunkOf s q := by unfold chunkOf; omega
  have hlen : (payloadAt (capBytes s.params) w.bytes q).length ≠ w.chunkOf s q * w.fill.elemBytes := by
    rw [w.payloadAt_length_eq h]
    exact (Nat.mul_lt_mul_of_pos_right hshort w.fill.elemBytes_pos).ne
  rw [w.chunk_sent_toNat, fill_eq_fromSource hf, fromSource_blocked (by rwa [hbytes]), hbytes, w.setChunk_sent]
  rfl

/-- The chunks before a chunk whose elements are not all supplied fill. -/
theorem Streaming.fills_before {w : Streaming} {s : State} {n q : Nat} (h : w.Supplied s n)
    (hlow : q * w.cap s ≤ n) (hq : q * w.cap s < w.total.toNat) : ∀ k < q, w.Fills s k := by
  intro k hk
  have hend : (k + 1) * w.cap s ≤ q * w.cap s := Nat.mul_le_mul_right _ hk
  have hpos : 0 < w.cap s := w.fill.capElems_pos s.params
  have hread : w.elementsOf s (k + 1) ≤ n := (Nat.min_le_right _ _).trans (hend.trans hlow)
  rw [Nat.succ_mul] at hend
  exact fills_of_supplied h (by omega) hread

end Sys2Proof.Machine
end

section
/-! PROOFS. Each streamed request as one streamed bracket, and its ends: the first Err (O27), no answer (O28),
and a source read that is not admitted (O29, O30, O34). -/

namespace Sys2Proof.Machine

open Sys2Proof.Statements

/-! ### The bracket around a stream -/

theorem bracket_err {b : Body} {s u : State} (h : b.run s.enterBracket = .err u) :
    bracket b s = .err u.deassertSelect := by
  simp only [bracket, h]

theorem bracket_blocked {b : Body} {s u : State} (h : b.run s.enterBracket = .blocked u) :
    bracket b s = .blocked u := by
  simp only [bracket, h]

theorem deassertSelect_trace_eq (s : State) : s.deassertSelect.trace = s.trace ++ deselectEvents s := by
  simp [deselectEvents, State.deassertAddr]

/-- Before its first chunk the bracket is open, and the loop's registers are set (R152, R200). -/
theorem Streaming.sent_zero (w : Streaming) (s : State) : w.sent s 0 s.env.submits =
    { s.enterBracket with
      buf := w.buf
      plan := { s.enterBracket.plan with remaining := w.total, srcAddr := w.src, filled := w.filled } } := by
  have hselect : selectEvents s = [.regWrite s.assertAddr s.pins.csMask, .cs .asserted] := rfl
  have hsent : okEvents (capBytes s.params) w.bytes 0 = [] := rfl
  have hbuf : bufferThrough w.buf (capBytes s.params) w.bytes 0 = w.buf := rfl
  have hplatform : selectedPlatform s = s.platform.regWrite s.params s.assertAddr s.pins.csMask := rfl
  simp [sent, elementsOf, hselect, hsent, hbuf, hplatform]

/-- The bracket of a `writeRepeated`. -/
def repeatedStreaming (s : State) (value : Half) (count : Word) (bytes : List Byte) : Streaming where
  fill := .reuse
  total := count
  bytes := bytes
  filled := BitVec.ofNat 32 (min count.toNat (capWords s.params))
  src := s.plan.srcAddr
  buf := overwrite s.buf (wordsLE (List.replicate (min count.toNat (capWords s.params)) (normalize value)))

/-- The bracket of a source stream. -/
def sourceStreaming (f : Fill) (s : State) (ptr count : Word) (bytes : List Byte) : Streaming where
  fill := f
  total := count
  bytes := bytes
  filled := s.plan.filled
  src := ptr.toNat
  buf := s.buf

/-- The body's run is the stream's loop. -/
def Streaming.IsRunOf (w : Streaming) (b : Body) (s : State) : Prop :=
  b.run s.enterBracket = streamLoop w.fill w.total.toNat (w.sent s 0 s.env.submits)

theorem repeatedStreaming_isRunOf (s : State) (value : Half) (count : Word) (bytes : List Byte) :
    (repeatedStreaming s value count bytes).IsRunOf (.repeated value count) s := by
  rw [Streaming.IsRunOf, Streaming.sent_zero]
  rfl

theorem pixelStreaming_isRunOf (s : State) (ptr count : Word) (bytes : List Byte) :
    (sourceStreaming .pixel s ptr count bytes).IsRunOf (.pixels ptr count) s := by
  rw [Streaming.IsRunOf, Streaming.sent_zero]
  rfl

theorem byteStreaming_isRunOf (s : State) (ptr count : Word) (bytes : List Byte) :
    (sourceStreaming .byte s ptr count bytes).IsRunOf (.bytes ptr count) s := by
  rw [Streaming.IsRunOf, Streaming.sent_zero]
  rfl

/-! ### What host memory and the buffer supply -/

theorem repeatedStreaming_supplied {s : State} {value : Half} {count : Word} {n : Nat} (hn : n ≤ count.toNat) :
    (repeatedStreaming s value count (List.replicate n (be16 value)).flatten).Supplied s n where
  le := hn
  length := by simp [repeatedStreaming, Fill.elemBytes, be16_length]
  source := fun hf => absurd rfl hf
  buffer := fun _ k => by
    simp only [repeatedStreaming, wordsLE_replicate_normalize, capBytes, payloadAt_repeated]
    refine (repeated_isPrefix value ?_).trans (isPrefix_overwrite _ _)
    simp only [capWords]
    omega

theorem byteStreaming_supplied {s : State} {ptr count : Word} {bytes : List Byte}
    (hn : bytes.length ≤ count.toNat) (hbytes : SourceBytes s ptr bytes) :
    (sourceStreaming .byte s ptr count bytes).Supplied s bytes.length where
  le := hn
  length := (Nat.mul_one _).symm
  source := fun _ k hk => by
    have hread : s.env.mem.read8 s.params.addrW (ptr.toNat + k) = some bytes[k] := by
      rw [hbytes k hk, List.getElem?_eq_getElem hk]
    simp only [Streaming.element, sourceStreaming, Fill.element, Fill.elemBytes, hread,
      payloadAt_one (List.getElem?_eq_getElem hk), Option.map_some]
  buffer := nofun

/-- The wire bytes of the first `n` words of a source (R220). -/
def SourceWords (s : State) (ptr : Word) (n : Nat) (bytes : List Byte) : Prop :=
  ∀ k < n, bytes[2 * k + 1]? = s.env.mem.read8 s.params.addrW (ptr.toNat + 2 * k) ∧
    bytes[2 * k]? = s.env.mem.read8 s.params.addrW (ptr.toNat + 2 * k + 1)

theorem pixelStreaming_supplied {s : State} {ptr count : Word} {bytes : List Byte} {n : Nat}
    (hn : n ≤ count.toNat) (hlen : bytes.length = 2 * n) (hwords : SourceWords s ptr n bytes) :
    (sourceStreaming .pixel s ptr count bytes).Supplied s n where
  le := hn
  length := hlen.trans (Nat.mul_comm 2 n)
  source := fun _ k hk => by
    have hhigh : bytes[2 * k]? = some bytes[2 * k] := List.getElem?_eq_getElem (by omega)
    have hlow : bytes[2 * k + 1]? = some bytes[2 * k + 1] := List.getElem?_eq_getElem (by omega)
    obtain ⟨hlow_read, hhigh_read⟩ := hwords k hk
    have hread : s.env.mem.read16 s.params.addrW (ptr.toNat + 2 * k) =
        some (half bytes[2 * k + 1] bytes[2 * k]) := by
      rw [Memory.read16_eq_some_iff, loByte_half, hiByte_half, ← hlow_read, ← hhigh_read]
      exact ⟨hlow, hhigh⟩
    simp only [Streaming.element, sourceStreaming, Fill.element, Fill.elemBytes, hread,
      payloadAt_two hhigh hlow, Option.map_some, le16_normalize, be16, hiByte_half, loByte_half]
  buffer := nofun

/-! ### Requests as streamed brackets -/

/-- The request `i` in the state `s` is the streamed bracket `w`, whose first `n` elements are supplied. -/
structure Streaming.Realizes (w : Streaming) (i : Instr) (s : State) (n : Nat) : Prop where
  supplied : w.Supplied s n
  counts : elements i s = (w.total.toNat, w.cap s)
  runs : ∃ b, exec i s = .next (finishWrite (bracket b s)) ∧ w.IsRunOf b s
  buffer : ∀ k, w.elementsOf s 1 ≤ n → bufferThrough w.buf (capBytes s.params) w.bytes (k + 1) =
    bufferThrough s.buf (capBytes s.params) w.bytes (k + 1)
  plan : ∀ t done, t.plan.repDone = s.plan.repDone → t.plan.filled = w.filled →
    t.plan.srcAddr = w.src + done * w.fill.stride → PlanAfter i s t done

theorem exec_writeRepeated {s : State} {value : Half} {count : Word} (ready : s.mode = .ready)
    (hcount : count ≠ 0) : exec (.writeRepeated value count) s =
      .next (finishWrite (bracket (.repeated value count) s)) := by
  simp only [exec, execWriteRepeated, whenReady_ready ready, if_neg hcount]

theorem exec_writePixelStream {s : State} {ptr count : Word} (ready : s.mode = .ready) (hcount : count ≠ 0)
    (heven : ptr.toNat % 2 = 0) (hsource : SourceAdmitted s ptr (2 * count.toNat)) :
    exec (.writePixelStream ptr count) s = .next (finishWrite (bracket (.pixels ptr count) s)) := by
  have hpos : count.toNat ≠ 0 := BitVec.toNat_ne.mp hcount
  simp only [exec, execWritePixelStream, whenReady_ready ready, if_neg hcount,
    sourceFault_admitted (by omega) (fun _ => heven) hsource]

theorem exec_writeByteStream {s : State} {ptr count : Word} (ready : s.mode = .ready) (hcount : count ≠ 0)
    (hsource : SourceAdmitted s ptr count.toNat) :
    exec (.writeByteStream ptr count) s = .next (finishWrite (bracket (.bytes ptr count) s)) := by
  have hpos : count.toNat ≠ 0 := BitVec.toNat_ne.mp hcount
  simp only [exec, execWriteByteStream, whenReady_ready ready, if_neg hcount,
    sourceFault_admitted (aligned := false) hpos nofun hsource]

theorem realizes_writeRepeated {s : State} {value : Half} {count : Word} {n : Nat} (ready : s.mode = .ready)
    (hcount : count ≠ 0) (hn : n ≤ count.toNat) :
    (repeatedStreaming s value count (List.replicate n (be16 value)).flatten).Realizes
      (.writeRepeated value count) s n where
  supplied := repeatedStreaming_supplied hn
  counts := rfl
  runs := ⟨_, exec_writeRepeated ready hcount, repeatedStreaming_isRunOf s value count _⟩
  buffer k hfirst := by
    have hfilled : wordsLE (List.replicate (min count.toNat (capWords s.params)) (normalize value)) =
        payloadAt (capBytes s.params) (List.replicate n (be16 value)).flatten 0 := by
      have hsame : min count.toNat (1 * capWords s.params) ≤ n := hfirst
      rw [wordsLE_replicate_normalize, capBytes, payloadAt_repeated]
      congr 2
      simp only [capWords] at hsame ⊢
      omega
    simp only [repeatedStreaming, hfilled]
    exact bufferThrough_overwrite _ _ _ k
  plan t done hrep hfilled hsrc := ⟨hrep, hfilled, by simpa [repeatedStreaming, Fill.stride] using hsrc⟩

theorem realizes_writePixelStream {s : State} {ptr count : Word} {bytes : List Byte} {n : Nat}
    (ready : s.mode = .ready) (hcount : count ≠ 0) (heven : ptr.toNat % 2 = 0)
    (hsource : SourceAdmitted s ptr (2 * count.toNat)) (hn : n ≤ count.toNat) (hlen : bytes.length = 2 * n)
    (hwords : SourceWords s ptr n bytes) :
    (sourceStreaming .pixel s ptr count bytes).Realizes (.writePixelStream ptr count) s n where
  supplied := pixelStreaming_supplied hn hlen hwords
  counts := rfl
  runs := ⟨_, exec_writePixelStream ready hcount heven hsource, pixelStreaming_isRunOf s ptr count bytes⟩
  buffer _ _ := rfl
  plan _ done hrep hfilled hsrc := ⟨hrep, hfilled, hsrc.trans (congrArg (ptr.toNat + ·) (Nat.mul_comm done 2))⟩

theorem realizes_writeByteStream {s : State} {ptr count : Word} {bytes : List Byte}
    (ready : s.mode = .ready) (hcount : count ≠ 0) (hsource : SourceAdmitted s ptr count.toNat)
    (hn : bytes.length ≤ count.toNat) (hbytes : SourceBytes s ptr bytes) :
    (sourceStreaming .byte s ptr count bytes).Realizes (.writeByteStream ptr count) s bytes.length where
  supplied := byteStreaming_supplied hn hbytes
  counts := rfl
  runs := ⟨_, exec_writeByteStream ready hcount hsource, byteStreaming_isRunOf s ptr count bytes⟩
  buffer _ _ := rfl
  plan _ done hrep hfilled hsrc := ⟨hrep, hfilled, hsrc.trans (congrArg (ptr.toNat + ·) (Nat.mul_one done))⟩

/-- Every streamed request that runs so far is a streamed bracket. -/
theorem exists_streaming {i : Instr} {s : State} {n : Nat} {bytes : List Byte} (ready : s.mode = .ready)
    (hn : n ≤ (elements i s).1) (h : StreamsUpTo i s n bytes) :
    ∃ w : Streaming, w.bytes = bytes ∧ w.Realizes i s n := by
  cases i with
  | writeRepeated value count =>
    obtain ⟨hcount, rfl⟩ := h
    exact ⟨_, rfl, realizes_writeRepeated ready hcount hn⟩
  | writePixelStream ptr count =>
    obtain ⟨hcount, heven, hsource, hlen, hwords⟩ := h
    exact ⟨_, rfl, realizes_writePixelStream ready hcount heven hsource hn hlen hwords⟩
  | writeByteStream ptr count =>
    obtain ⟨hcount, hsource, rfl, hbytes⟩ := h
    exact ⟨_, rfl, realizes_writeByteStream ready hcount hsource hn fun k hk => (hbytes k hk).symm⟩
  | _ => exact h.elim

/-! ### The first Err, and no answer (O27, O28) -/

theorem mul_lt_of_lt_ceilDiv {total cap j : Nat} (hcap : 0 < cap) (h : j < ceilDiv total cap) :
    j * cap < total := by
  have hle : (j + 1) * cap ≤ total + cap - 1 := (Nat.le_div_iff_mul_le hcap).mp h
  rw [Nat.succ_mul] at hle
  omega

section Ends

variable {w : Streaming} {i : Instr} {s : State} {j : Nat}

theorem Streaming.Realizes.start_lt {n : Nat} (h : w.Realizes i s n) (hj : j < transactions i s) :
    j * w.cap s < w.total.toNat := by
  rw [transactions, h.counts] at hj
  exact mul_lt_of_lt_ceilDiv (w.fill.capElems_pos s.params) hj

/-- What is read before submission `j` are the elements of the chunks `0 .. j`. -/
theorem Streaming.Realizes.elementsThrough_eq {n : Nat} (h : w.Realizes i s n) (j : Nat) :
    elementsThrough i s j = w.elementsOf s (j + 1) := by
  rw [elementsThrough, h.counts]
  rfl

theorem Streaming.Realizes.fills (h : w.Realizes i s (elementsThrough i s j)) (hj : j < transactions i s) :
    ∀ k ≤ j, w.Fills s k :=
  fills_through h.supplied (h.start_lt hj) (h.elementsThrough_eq j).ge

theorem Streaming.Realizes.exec_failed (h : w.Realizes i s (elementsThrough i s j)) (hj : j < transactions i s)
    {n : Nat} {rest : List SubmitAnswer} (hdraws : s.env.submits = oks j ++ .err n :: rest) :
    exec i s = .next ((w.failed s j n rest).deassertSelect.respond .transportError (BitVec.ofNat 32 j) 0) := by
  obtain ⟨b, hexec, hrun⟩ := h.runs
  rw [IsRunOf, hdraws, streamLoop_failed (h.fills hj)] at hrun
  rw [hexec, bracket_err hrun]
  rfl

theorem Streaming.Realizes.exec_hung (h : w.Realizes i s (elementsThrough i s j)) (hj : j < transactions i s)
    (hdraws : s.env.submits = oks j) : exec i s = .next (w.hung s j) := by
  obtain ⟨b, hexec, hrun⟩ := h.runs
  rw [IsRunOf, hdraws, streamLoop_hung (h.fills hj)] at hrun
  rw [hexec, bracket_blocked hrun]
  rfl

theorem Streaming.Realizes.remaining_loaded {n : Nat} (h : w.Realizes i s n) (draws : List SubmitAnswer) :
    (w.loaded s j draws).plan.remaining.toNat = (elements i s).1 - j * (elements i s).2 := by
  rw [h.counts]
  exact w.remaining_toNat s j draws

theorem Streaming.Realizes.chunk_loaded {n : Nat} (h : w.Realizes i s n) (draws : List SubmitAnswer) :
    (w.loaded s j draws).plan.chunk.toNat =
      min (w.loaded s j draws).plan.remaining.toNat (elements i s).2 := by
  rw [h.remaining_loaded, h.counts]
  exact w.chunk_toNat s j

theorem Streaming.Realizes.planAfter_loaded {n : Nat} (h : w.Realizes i s n) {t : State}
    {draws : List SubmitAnswer} (ht : t.plan = (w.loaded s j draws).plan) :
    PlanAfter i s t (min (elements i s).1 ((j + 1) * (elements i s).2)) := by
  refine h.plan t _ ?_ ?_ ?_ <;> rw [ht]
  · rfl
  · rfl
  · rw [h.counts]
    rfl

theorem Streaming.Realizes.bufferAfter_loaded (h : w.Realizes i s (elementsThrough i s j))
    (hj : j < transactions i s) {t : State} {draws : List SubmitAnswer}
    (ht : t.buf = (w.loaded s j draws).buf) : BufferAfter s t w.bytes j := by
  have hstart := h.start_lt hj
  have hread := h.elementsThrough_eq j
  have hfirst : w.elementsOf s 1 ≤ w.elementsOf s (j + 1) :=
    min_le_min_left _ (Nat.mul_le_mul_right _ (Nat.succ_le_succ (Nat.zero_le j)))
  refine bufferAfter_of_bufferThrough ?_ (ht.trans (h.buffer j (hread ▸ hfirst)))
  rw [h.supplied.length, hread, elementsOf_succ hstart, ← w.fill.capElems_mul_elemBytes, ← Nat.mul_assoc]
  exact Nat.mul_le_mul_right _ (Nat.le_add_right _ _)

end Ends

/-- Settles O27: the request is one streamed bracket, and its loop ends with chunk `j` submitted and failed. -/
theorem streamStopsAtTheFirstFailedChunk : Obligations.StreamStopsAtTheFirstFailedChunk := by
  unfold Obligations.StreamStopsAtTheFirstFailedChunk
  intro i s bytes j n rest ready hj hstream hdraws
  obtain ⟨w, rfl, h⟩ := exists_streaming ready (Nat.min_le_left _ _) hstream
  have htrace : ((w.failed s j n rest).deassertSelect.respond .transportError (BitVec.ofNat 32 j) 0).trace =
      s.trace ++ selectEvents s ++ okEvents (capBytes s.params) w.bytes j
        ++ [.txn (recordAt (capBytes s.params) w.bytes j) (some (.err n))]
        ++ deselectEvents s ++ [.rsp 2 (BitVec.ofNat 32 j) 0] := by
    rw [State.respond_trace, deassertSelect_trace_eq]
    rfl
  exact ⟨_, h.exec_failed hj hdraws, htrace, rfl, rfl, rfl, rfl, rfl, h.remaining_loaded rest,
    h.chunk_loaded rest, h.planAfter_loaded (draws := rest) rfl, rfl,
    h.bufferAfter_loaded hj (draws := rest) rfl, rfl, rfl, rfl, rfl, rfl, by constructor <;> intros <;> rfl⟩

/-- Settles O28: as O27, the loop waiting in the submission of chunk `j`. -/
theorem streamHangsWithoutAnAnswer : Obligations.StreamHangsWithoutAnAnswer := by
  unfold Obligations.StreamHangsWithoutAnAnswer
  intro i s bytes j ready hj hstream hdraws
  obtain ⟨w, rfl, h⟩ := exists_streaming ready (Nat.min_le_left _ _) hstream
  exact ⟨_, h.exec_hung hj hdraws, rfl, rfl, rfl, rfl, rfl, rfl, rfl, h.remaining_loaded [],
    h.chunk_loaded [], h.planAfter_loaded (draws := []) rfl, rfl, h.bufferAfter_loaded hj (draws := []) rfl,
    rfl, rfl, rfl, rfl, by constructor <;> intros <;> rfl⟩

/-! ### A read that is not admitted (O29, O30, O34) -/

/-- The state `t` in which a stream begun in `s` is stuck in chunk `q`: the chunks before it are sent, chip
select stays asserted, `srcAddr` stands at `src`, and the buffer holds what was read (R267; log 16). -/
def StuckAt (s t : State) (repDone : Word) (src total cap : Nat) (bytes : List Byte) (q : Nat)
    (rest : List SubmitAnswer) : Prop :=
  t.trace = s.trace ++ selectEvents s ++ okEvents (capBytes s.params) bytes q ∧
    t.seq = s.seq ∧ t.rsp = s.rsp ∧ t.cs = .asserted ∧ t.waiting = .hostMemory ∧
    t.framing = (if q = 0 then .framed else .continuation) ∧
    t.plan.txDone = BitVec.ofNat 32 q ∧ t.plan.repDone = repDone ∧
    t.plan.filled = s.plan.filled ∧ t.plan.srcAddr = src ∧
    t.plan.remaining.toNat = total - q * cap ∧
    t.plan.chunk.toNat = min t.plan.remaining.toNat cap ∧
    t.txn = (if q = 0 then s.txn else recordAt (capBytes s.params) bytes (q - 1)) ∧
    BufferAfter s t bytes q ∧
    t.retained = (if q = 0 then s.retained else some s.params.lanes.cmd32.data) ∧
    t.frees = s.frees ∧ t.platform = selectedPlatform s ∧ t.env.submits = rest ∧ WriteFrame s t

/-- A bracket of a source stream whose element number `n` is the first that is not admitted. -/
theorem Streaming.bracket_stuck {w : Streaming} {b : Body} {s : State} {n q : Nat} {rest : List SubmitAnswer}
    (hrun : w.IsRunOf b s) (h : w.Supplied s n) (hf : w.fill ≠ .reuse) (hnone : w.element s n = none)
    (hn : n < w.total.toNat) (hq : q = n / w.cap s) (hdraws : s.env.submits = oks q ++ rest) :
    bracket b s = .blocked (w.stuck s q rest) := by
  have hlow : q * w.cap s ≤ n := hq ▸ Nat.div_mul_le_self n _
  have hhigh : n < q * w.cap s + w.cap s := hq ▸ Nat.lt_div_mul_add (w.fill.capElems_pos s.params)
  have hstart := hlow.trans_lt hn
  rw [IsRunOf, hdraws, streamLoop_stuck_at (fills_before h hlow hstart) hstart
    (run_stuck h hf hnone hn hlow hhigh rest)] at hrun
  exact bracket_blocked hrun

/-- The stuck state, seen from a state `s` whose planner the request may have touched (R235). -/
theorem Streaming.stuckAt_stuck {w : Streaming} {s : State} {p : Planner} {n q : Nat}
    (h : w.Supplied { s with plan := p } n) (hn : n < w.total.toNat) (hq : q = n / w.cap s)
    (hbuf : w.buf = s.buf) (hfilled : w.filled = s.plan.filled) {src : Nat}
    (hsrc : w.src + q * w.cap s * w.fill.stride = src) (rest : List SubmitAnswer) :
    StuckAt s (w.stuck { s with plan := p } q rest) p.repDone src w.total.toNat (w.cap s) w.bytes q rest := by
  have hlow : q * w.cap s ≤ n := hq ▸ Nat.div_mul_le_self n _
  have hremaining := w.remaining_toNat { s with plan := p } q rest
  have hsrcAddr : (w.stuck { s with plan := p } q rest).plan.srcAddr = src := by
    rw [← hsrc, ← elementsOf_whole (w := w) (hlow.trans_lt hn)]
    rfl
  have hchunk : (w.stuck { s with plan := p } q rest).plan.chunk.toNat =
      min (w.stuck { s with plan := p } q rest).plan.remaining.toNat (w.cap s) :=
    (w.chunk_toNat { s with plan := p } q).trans (congrArg (min · (w.cap s)) hremaining.symm)
  have hbuffer : BufferAfter s (w.stuck { s with plan := p } q rest) w.bytes q := by
    refine bufferAfter_of_bufferThrough ?_ (by rw [← hbuf]; rfl)
    rw [h.length, ← w.fill.capElems_mul_elemBytes, ← Nat.mul_assoc]
    exact Nat.mul_le_mul_right _ hlow
  exact ⟨rfl, rfl, rfl, rfl, rfl, rfl, rfl, rfl, hfilled, hsrcAddr, hremaining, hchunk, rfl, hbuffer, rfl, rfl,
    rfl, rfl, by constructor <;> intros <;> rfl⟩

/-- The bracket of a byte stream whose next byte is not admitted. -/
theorem bracket_bytes_stuck {s : State} {ptr count : Word} {bytes : List Byte} {q : Nat}
    {rest : List SubmitAnswer} (hlen : bytes.length < count.toNat) (hbytes : SourceBytes s ptr bytes)
    (hnone : s.env.mem.read8 s.params.addrW (ptr.toNat + bytes.length) = none)
    (hq : q = bytes.length / capBytes s.params) (hdraws : s.env.submits = oks q ++ rest) :
    bracket (.bytes ptr count) s = .blocked ((sourceStreaming .byte s ptr count bytes).stuck s q rest) :=
  Streaming.bracket_stuck (byteStreaming_isRunOf s ptr count bytes) (byteStreaming_supplied hlen.le hbytes)
    nofun (congrArg (Option.map fun b => [b]) hnone) hlen hq hdraws

/-- Settles O29: the loop is stuck in the fill of chunk `q`. -/
theorem byteStreamSticksAtAnUnadmittedRead : Obligations.ByteStreamSticksAtAnUnadmittedRead := by
  unfold Obligations.ByteStreamSticksAtAnUnadmittedRead
  intro s ptr count bytes q rest ready hsource hlen hbytes hnone hq hdraws
  have hcount : count ≠ 0 := by
    rintro rfl
    exact absurd hlen (Nat.not_lt_zero _)
  have hexec := exec_writeByteStream ready hcount hsource
  rw [bracket_bytes_stuck hlen hbytes hnone hq hdraws] at hexec
  exact ⟨_, hexec, Streaming.stuckAt_stuck (p := s.plan) (byteStreaming_supplied hlen.le hbytes) hlen hq rfl rfl
    (congrArg (ptr.toNat + ·) (Nat.mul_one _)) rest⟩

/-- Settles O30: as O29, with words for elements. -/
theorem pixelStreamSticksAtAnUnadmittedRead : Obligations.PixelStreamSticksAtAnUnadmittedRead := by
  unfold Obligations.PixelStreamSticksAtAnUnadmittedRead
  intro s ptr count bytes n q rest ready heven hsource hn hlen hwords hnone hq hdraws
  have hcount : count ≠ 0 := by
    rintro rfl
    exact absurd hn (Nat.not_lt_zero _)
  have hexec := exec_writePixelStream ready hcount heven hsource
  have hsupplied := pixelStreaming_supplied (count := count) hn.le hlen hwords
  rw [Streaming.bracket_stuck (pixelStreaming_isRunOf s ptr count bytes) hsupplied nofun
    (congrArg (Option.map fun w => le16 (normalize w)) hnone) hn hq hdraws] at hexec
  exact ⟨_, hexec, Streaming.stuckAt_stuck (p := s.plan) hsupplied hn hq rfl rfl
    (congrArg (ptr.toNat + ·) (Nat.mul_comm _ 2)) rest⟩

/-- A `writePattern` that has something to send starts its repetitions with `repDone` 0 (R235). -/
theorem exec_writePattern {s : State} {ptr len reps : Word} (ready : s.mode = .ready) (hreps : reps ≠ 0)
    (hlen : len ≠ 0) (hsource : SourceAdmitted s ptr len.toNat) : exec (.writePattern ptr len reps) s =
      .next (finishPattern (patternLoop ptr len reps.toNat { s with plan := { s.plan with repDone := 0 } })) := by
  have hpos : len.toNat ≠ 0 := BitVec.toNat_ne.mp hlen
  simp only [exec, execWritePattern, whenReady_ready ready, if_neg (not_or.mpr ⟨hreps, hlen⟩),
    sourceFault_admitted (aligned := false) hpos nofun hsource]

/-- A pattern whose first repetition waits for ever waits there (R235). -/
theorem patternLoop_blocked {s u : State} {ptr len reps : Word} (hreps : reps ≠ 0)
    (h : bracket (.bytes ptr len) s = .blocked u) : patternLoop ptr len reps.toNat s = .blocked u := by
  obtain ⟨left, hleft⟩ := Nat.exists_eq_succ_of_ne_zero (n := reps.toNat) (BitVec.toNat_ne.mp hreps)
  rw [hleft]
  simp only [patternLoop, h]

/-- Settles O34: the first repetition is the bracket of a byte stream. -/
theorem patternSticksAtAnUnadmittedRead : Obligations.PatternSticksAtAnUnadmittedRead := by
  unfold Obligations.PatternSticksAtAnUnadmittedRead
  intro s ptr len reps bytes q rest ready hreps hsource hlen hbytes hnone hq hdraws
  have hne : len ≠ 0 := by
    rintro rfl
    exact absurd hlen (Nat.not_lt_zero _)
  have hexec := exec_writePattern ready hreps hne hsource
  have hbracket := bracket_bytes_stuck (s := { s with plan := { s.plan with repDone := 0 } }) hlen hbytes hnone
    hq hdraws
  rw [patternLoop_blocked hreps hbracket] at hexec
  exact ⟨_, hexec, Streaming.stuckAt_stuck (p := { s.plan with repDone := 0 })
    (byteStreaming_supplied hlen.le hbytes) hlen hq rfl rfl
    (congrArg (ptr.toNat + ·) (Nat.mul_one _)) rest⟩

end Sys2Proof.Machine
end

section
/-! PROOFS. The encoding: a descriptor decodes to a request exactly when it carries the request's encoding in
the header and in the operand words the request uses (R100 to R106); the rows of the opcode table by their
`OP` field. -/

namespace Sys2Proof

open Sys2Proof.Machine Sys2Proof.Statements

/-! ### A descriptor from its words, a header from its fields -/

theorem descOf_words (d : Desc) : descOf (hdr d) (arg1 d) (ptrWord d) (arg2 d) = d := by
  apply BitVec.eq_of_getLsbD_eq
  intro k hk
  rw [getLsbD_descOf]
  simp only [hdr, arg1, ptrWord, arg2, BitVec.getLsbD_extractLsb']
  split_ifs <;> grind

theorem hdrOf_fields (h : Word) : hdrOf (opField h) (rsvField h) (c8Field h) (v16Field h) = h := by
  apply BitVec.eq_of_getLsbD_eq
  intro k hk
  rw [getLsbD_hdrOf]
  simp only [opField, rsvField, c8Field, v16Field, BitVec.getLsbD_extractLsb']
  split_ifs <;> grind

theorem v16High_eq_hiByte (h : Word) : v16High h = hiByte (v16Field h) := by
  ext i hi
  simp [v16High, hiByte, v16Field]

theorem v16Low_eq_loByte (h : Word) : v16Low h = loByte (v16Field h) := by
  ext i hi
  simp [v16Low, loByte, v16Field]

theorem half_zero (b : Byte) : half b 0 = b.setWidth 16 := by simp [half]

@[simp] theorem v16High_hdrOf (op rsv : BitVec 4) (c b : Byte) :
    v16High (hdrOf op rsv c (b.setWidth 16)) = 0 := by
  rw [v16High_eq_hiByte, v16Field_hdrOf, ← half_zero, hiByte_half]

@[simp] theorem v16Low_hdrOf (op rsv : BitVec 4) (c b : Byte) :
    v16Low (hdrOf op rsv c (b.setWidth 16)) = b := by
  rw [v16Low_eq_loByte, v16Field_hdrOf, ← half_zero, loByte_half]

/-- A 16-bit field whose high byte is 0 is its low byte. -/
theorem v16Field_of_high_zero {h : Word} (hh : v16High h = 0) : v16Field h = (v16Low h).setWidth 16 := by
  rw [v16High_eq_hiByte] at hh
  rw [v16Low_eq_loByte, ← half_zero, ← hh, half_bytes]

/-- A word whose high half is 0 is its low half. -/
theorem setWidth_low_half {a : Word} (ha : a.extractLsb' 16 16 = 0) :
    (a.extractLsb' 0 16).setWidth 32 = a := by
  have hnat := congrArg BitVec.toNat ha
  have hlt := a.isLt
  apply BitVec.eq_of_toNat_eq
  rw [BitVec.extractLsb'_toNat, Nat.shiftRight_eq_div_pow] at hnat
  rw [BitVec.toNat_setWidth, BitVec.extractLsb'_toNat, Nat.shiftRight_zero]
  change _ = 0 at hnat
  omega

theorem high_half_setWidth (w : Half) : (w.setWidth 32 : Word).extractLsb' 16 16 = 0 := by
  rw [BitVec.extractLsb'_setWidth_of_le (by decide)]
  ext i hi
  simp

theorem low_half_setWidth (w : Half) : (w.setWidth 32 : Word).extractLsb' 0 16 = w := by
  rw [BitVec.extractLsb'_setWidth_of_le (by decide), BitVec.extractLsb'_eq_self]

theorem eq_hdrOf {h : Word} {op : BitVec 4} {c : Byte} {v : Half} (hop : (opField h).toNat = op.toNat)
    (hrsv : rsvField h = 0) (hc : c8Field h = c) (hv : v16Field h = v) : h = hdrOf op 0 c v := by
  rw [← hdrOf_fields h, BitVec.eq_of_toNat_eq hop, hrsv, hc, hv]

/-! ### Words as numbers -/

/-- Bits put in front of others count in multiples of `2 ^ n`. -/
theorem toNat_append_add {m n : Nat} (x : BitVec m) (y : BitVec n) :
    (x ++ y).toNat = x.toNat * 2 ^ n + y.toNat := by
  rw [BitVec.toNat_append, ← Nat.shiftLeft_add_eq_or_of_lt y.isLt, Nat.shiftLeft_eq]

theorem opField_toNat (h : Word) : (opField h).toNat = h.toNat / 2 ^ 28 := by
  have := h.isLt
  simp only [opField, BitVec.extractLsb'_toNat, Nat.shiftRight_eq_div_pow]
  omega

/-! ### The reserved rows (R106) -/

theorem reservedB_toNat (low : BitVec 28) :
    ((0xB : BitVec 4) ++ low : Word).toNat = 0xB * 2 ^ 28 + low.toNat := toNat_append_add _ _

theorem reservedCtoF_toNat (low : BitVec 30) :
    ((0x3 : BitVec 2) ++ low : Word).toNat = 0x3 * 2 ^ 30 + low.toNat := toNat_append_add _ _

theorem opField_reservedB (low : BitVec 28) : (opField ((0xB : BitVec 4) ++ low)).toNat = 0xB := by
  rw [opField_toNat, reservedB_toNat]
  omega

theorem opField_reservedCtoF (low : BitVec 30) : 0xC ≤ (opField ((0x3 : BitVec 2) ++ low)).toNat := by
  rw [opField_toNat, reservedCtoF_toNat]
  omega

theorem low_reservedB (low : BitVec 28) : ((0xB : BitVec 4) ++ low : Word).extractLsb' 0 28 = low := by
  apply BitVec.eq_of_toNat_eq
  rw [BitVec.extractLsb'_toNat, reservedB_toNat]
  omega

theorem low_reservedCtoF (low : BitVec 30) : ((0x3 : BitVec 2) ++ low : Word).extractLsb' 0 30 = low := by
  apply BitVec.eq_of_toNat_eq
  rw [BitVec.extractLsb'_toNat, reservedCtoF_toNat]
  omega

theorem hdr_reservedB {h : Word} (hop : (opField h).toNat = 0xB) :
    h = (0xB : BitVec 4) ++ h.extractLsb' 0 28 := by
  rw [opField_toNat] at hop
  apply BitVec.eq_of_toNat_eq
  rw [reservedB_toNat, BitVec.extractLsb'_toNat]
  omega

theorem hdr_reservedCtoF {h : Word} (hop : 0xC ≤ (opField h).toNat) :
    h = (0x3 : BitVec 2) ++ h.extractLsb' 0 30 := by
  rw [opField_toNat] at hop
  apply BitVec.eq_of_toNat_eq
  rw [reservedCtoF_toNat, BitVec.extractLsb'_toNat]
  omega

/-! ### The descriptors of a request -/

/-- The descriptor has the request's header and, where the request uses them, its operand words. -/
structure Carries (d : Desc) (i : Instr) : Prop where
  header : hdr d = hdr (encode i)
  arg1 : usesArg1 i = true → arg1 d = arg1 (encode i)
  ptr : usesPtr i = true → ptrWord d = ptrWord (encode i)
  arg2 : usesArg2 i = true → arg2 d = arg2 (encode i)

/-- A request is well formed when its pointer, if it has one, fits `ADDR_W` bits. -/
theorem wellFormed_iff {addrW : Nat} {i : Instr} :
    i.WellFormed addrW = true ↔ (usesPtr i = true → fitsAddr addrW (ptrWord (encode i))) := by
  cases i <;> simp [Instr.WellFormed, usesPtr, encode]

/-- The operand words a request does not use are 0 in its encoding (R130). -/
theorem encode_eq_descOf (i : Instr) : encode i = descOf (hdr (encode i))
    (if usesArg1 i then arg1 (encode i) else 0) (if usesPtr i then ptrWord (encode i) else 0)
    (if usesArg2 i then arg2 (encode i) else 0) := by
  cases i <;> simp [encode, usesArg1, usesPtr, usesArg2]

/-! ### Decoding, from the request to the descriptor -/

theorem decodeOp_reservedB {h a1 p a2 : Word} (hop : (opField h).toNat = 0xB) :
    decodeOp h a1 p a2 = .request (.reservedB (h.extractLsb' 0 28)) := by
  simp only [decodeOp, hop]

theorem decodeOp_reservedCtoF {h a1 p a2 : Word} (hop : 0xC ≤ (opField h).toNat) :
    decodeOp h a1 p a2 = .request (.reservedCtoF (h.extractLsb' 0 30)) := by
  unfold decodeOp
  split
  case h_13 => rfl
  all_goals omega

theorem hasPointer_eq_true_iff {op : BitVec 4} : hasPointer op = true ↔ 0x8 ≤ op.toNat ∧ op.toNat ≤ 0xA := by
  revert op
  decide

theorem decode_reserved {addrW : Nat} {d : Desc} (hop : 0xB ≤ (opField (hdr d)).toNat) :
    decode addrW d = decodeOp (hdr d) (arg1 d) (ptrWord d) (arg2 d) := by
  unfold decode
  rw [if_neg (by omega), if_neg (by rw [hasPointer_eq_true_iff]; omega)]

theorem decode_hdrOf {addrW : Nat} {d : Desc} {op : BitVec 4} {c : Byte} {v : Half}
    (hd : hdr d = hdrOf op 0 c v) (hptr : hasPointer op = true → fitsAddr addrW (ptrWord d)) :
    decode addrW d = decodeOp (hdrOf op 0 c v) (arg1 d) (ptrWord d) (arg2 d) := by
  unfold decode
  rw [hd, opField_hdrOf, rsvField_hdrOf, if_neg (by simp), if_neg (by simpa using hptr)]

theorem decode_of_carries {addrW : Nat} {d : Desc} {i : Instr} (hi : i.WellFormed addrW = true)
    (h : Carries d i) : decode addrW d = .request i := by
  obtain ⟨hheader, harg1, hptr, harg2⟩ := h
  have hfits := wellFormed_iff.mp hi
  cases i with
  | reservedB low =>
    rw [encode, hdr_descOf] at hheader
    have hop := hheader ▸ opField_reservedB low
    rw [decode_reserved hop.ge, decodeOp_reservedB hop, hheader, low_reservedB]
  | reservedCtoF low =>
    rw [encode, hdr_descOf] at hheader
    have hop := hheader ▸ opField_reservedCtoF low
    rw [decode_reserved (by omega), decodeOp_reservedCtoF hop, hheader, low_reservedCtoF]
  | _ =>
    simp only [encode, hdr_descOf, arg1_descOf, ptrWord_descOf, arg2_descOf, usesArg1, usesPtr, usesArg2,
      forall_const] at hheader harg1 hptr harg2 hfits
    rw [decode_hdrOf hheader (by simp [hasPointer, *])]
    simp [decodeOp, refuseUnless, *, high_half_setWidth, low_half_setWidth]

/-! ### Decoding, from the descriptor to the request -/

/-- What passes the checks of R105 has no header or operand bit set that its operation does not read. -/
theorem carries_of_decodeOp {h a1 p a2 : Word} {i : Instr} (hrsv : (opField h).toNat < 0xB → rsvField h = 0)
    (hdec : decodeOp h a1 p a2 = .request i) :
    Carries (descOf h a1 p a2) i ∧ (usesPtr i = true → hasPointer (opField h) = true) := by
  rcases lt_trichotomy (opField h).toNat 0xB with hop | hop | hop
  · unfold decodeOp at hdec
    split at hdec
    case h_12 | h_13 => grind
    all_goals
      rename_i hcode
      simp only [refuseUnless_eq_request, Bool.and_eq_true, beq_iff_eq] at hdec
      obtain ⟨hunused, rfl⟩ := hdec
      refine ⟨⟨?_, ?_, ?_, ?_⟩, ?_⟩
      · rw [hdr_descOf, encode, hdr_descOf]
        exact eq_hdrOf hcode (hrsv hop) (by simp [hunused]) (by simp [hunused, v16Field_of_high_zero])
      all_goals
        simp [encode, usesArg1, usesPtr, usesArg2, hasPointer_eq_true_iff, hcode, hunused, setWidth_low_half]
  · cases (decodeOp_reservedB hop).symm.trans hdec
    exact ⟨⟨by simpa [encode] using hdr_reservedB hop, nofun, nofun, nofun⟩, nofun⟩
  · cases (decodeOp_reservedCtoF hop).symm.trans hdec
    exact ⟨⟨by simpa [encode] using hdr_reservedCtoF hop, nofun, nofun, nofun⟩, nofun⟩

/-- Exactly the descriptors that carry a well-formed request decode to it (R104, R105). -/
theorem decode_eq_request_iff {addrW : Nat} {d : Desc} {i : Instr} :
    decode addrW d = .request i ↔ i.WellFormed addrW = true ∧ Carries d i := by
  refine ⟨fun h => ?_, fun ⟨hi, h⟩ => decode_of_carries hi h⟩
  obtain ⟨hrsv, hfits, hdec⟩ := decode_eq_request h
  obtain ⟨hcarries, hpointer⟩ := carries_of_decodeOp hrsv hdec
  rw [descOf_words] at hcarries
  exact ⟨wellFormed_iff.mpr fun hp => hcarries.ptr hp ▸ hfits (hpointer hp), hcarries⟩

/-! ### Round trips (O1, O2, O55) -/

/-- Settles O1: an encoding carries its request. -/
theorem decodeEncodeGivesTheRequestBack : Obligations.DecodeEncodeGivesTheRequestBack := by
  unfold Obligations.DecodeEncodeGivesTheRequestBack
  intro addrW i hi
  exact decode_of_carries hi ⟨rfl, fun _ => rfl, fun _ => rfl, fun _ => rfl⟩

/-- Settles O2. -/
theorem encodeGivesTheUsedWordsBack : Obligations.EncodeGivesTheUsedWordsBack := by
  unfold Obligations.EncodeGivesTheUsedWordsBack
  intro addrW d i h
  obtain ⟨hi, hheader, harg1, hptr, harg2⟩ := decode_eq_request_iff.mp h
  refine ⟨hi, (encode_eq_descOf i).trans ?_⟩
  rw [hheader, ite_congr rfl harg1 fun _ => rfl, ite_congr rfl hptr fun _ => rfl,
    ite_congr rfl harg2 fun _ => rfl]

/-- Settles O55: whatever stands in the words a request does not use, the descriptor carries the request. -/
theorem unusedOperandWordsAreIgnored : Obligations.UnusedOperandWordsAreIgnored := by
  unfold Obligations.UnusedOperandWordsAreIgnored
  intro addrW i a1 p a2 hi
  refine decode_of_carries hi ⟨hdr_descOf _ _ _ _, fun h => ?_, fun h => ?_, fun h => ?_⟩
  · rw [arg1_descOf, if_pos h]
  · rw [ptrWord_descOf, if_pos h]
  · rw [arg2_descOf, if_pos h]

/-! ### The opcode table (O3, O4, O5) -/

theorem encode_covers (i : Instr) : (opcodeRow i).covers (hdr (encode i)) = true := by
  cases i with
  | openEngine => exact Laws.EncodesRow.openEngine
  | writeCommand c => exact Laws.EncodesRow.writeCommand c
  | writeCommand16 w => exact Laws.EncodesRow.writeCommand16 w
  | writeByte b => exact Laws.EncodesRow.writeByte b
  | writeWord w => exact Laws.EncodesRow.writeWord w
  | writeCommandWithBytes c b => exact Laws.EncodesRow.writeCommandWithBytes c b
  | writeCommandWithWords c w1 w2 => exact Laws.EncodesRow.writeCommandWithWords c w1 w2
  | writeRepeated value count => exact Laws.EncodesRow.writeRepeated value count
  | writePixelStream ptr count => exact Laws.EncodesRow.writePixelStream ptr count
  | writeByteStream ptr count => exact Laws.EncodesRow.writeByteStream ptr count
  | writePattern ptr len reps => exact Laws.EncodesRow.writePattern ptr len reps
  | reservedB low => exact Laws.EncodesRow.reservedB low
  | reservedCtoF low => exact Laws.EncodesRow.reservedCtoF low

/-- Settles O3: the header is that of the request's encoding. -/
theorem decodedHeaderLiesInItsRow : Obligations.DecodedHeaderLiesInItsRow := by
  unfold Obligations.DecodedHeaderLiesInItsRow
  intro addrW d i h
  obtain ⟨-, hcarries⟩ := decode_eq_request_iff.mp h
  rw [hcarries.header]
  exact encode_covers i

/-- Settles O5: by O3 a header in no row belongs to no request. -/
theorem headerOutsideEveryRowIsRejected : Obligations.HeaderOutsideEveryRowIsRejected := by
  unfold Obligations.HeaderOutsideEveryRowIsRejected
  intro addrW d hrows
  cases hdec : decode addrW d with
  | rejected why => exact ⟨why, rfl⟩
  | request i =>
    have hcovers := decodedHeaderLiesInItsRow addrW d i hdec
    rw [hrows i] at hcovers
    cases hcovers

/-- The row of the opcode table that an `OP` field belongs to (R104, R106). -/
def rowOfOp (op : BitVec 4) : OpcodeRow :=
  match op.toNat with
  | 0x0 => opcodeRow .openEngine
  | 0x1 => opcodeRow (.writeCommand 0)
  | 0x2 => opcodeRow (.writeCommand16 0)
  | 0x3 => opcodeRow (.writeByte 0)
  | 0x4 => opcodeRow (.writeWord 0)
  | 0x5 => opcodeRow (.writeCommandWithBytes 0 0)
  | 0x6 => opcodeRow (.writeCommandWithWords 0 0 0)
  | 0x7 => opcodeRow (.writeRepeated 0 0)
  | 0x8 => opcodeRow (.writePixelStream 0 0)
  | 0x9 => opcodeRow (.writeByteStream 0 0)
  | 0xA => opcodeRow (.writePattern 0 0 0)
  | 0xB => opcodeRow (.reservedB 0)
  | _ => opcodeRow (.reservedCtoF 0)

theorem opField_and (h mask : Word) : opField (h &&& mask) = opField h &&& opField mask :=
  BitVec.extractLsb'_and

/-- Every row fixes enough of `OP` to tell it from the other rows. -/
theorem opcodeRow_eq_rowOfOp (i : Instr) : ∀ op : BitVec 4,
    op &&& opField (opcodeRow i).mask = opField (opcodeRow i).value → opcodeRow i = rowOfOp op := by
  cases i <;> simp only [opcodeRow] <;> decide

theorem opcodeRow_of_covers {i : Instr} {h : Word} (hi : (opcodeRow i).covers h = true) :
    opcodeRow i = rowOfOp (opField h) := by
  rw [OpcodeRow.covers, beq_iff_eq] at hi
  exact opcodeRow_eq_rowOfOp i (opField h) (by rw [← opField_and, hi])

/-- Settles O4: a header's `OP` field leaves one row for it. -/
theorem opcodeRowsAreDisjoint : Obligations.OpcodeRowsAreDisjoint := by
  unfold Obligations.OpcodeRowsAreDisjoint
  intro i j h hi hj
  rw [opcodeRow_of_covers hi, opcodeRow_of_covers hj]

end Sys2Proof
end

section
/-! PROOFS. Words written out: the assembler's headers as the sums of R130 (O7), descriptors of the tables (O6),
and the reserved rows (O12). -/

namespace Sys2Proof

open Sys2Proof.Machine

/-! ### Headers as sums (R130) -/

theorem hdrOf_toNat (op rsv : BitVec 4) (c : Byte) (v : Half) : (hdrOf op rsv c v).toNat =
    op.toNat * 2 ^ 28 + rsv.toNat * 2 ^ 24 + c.toNat * 2 ^ 16 + v.toNat := by
  unfold hdrOf
  rw [toNat_append_add, toNat_append_add, toNat_append_add]
  ring

/-- The sum that R130 writes for a header, the operation's code put in its place. -/
theorem hdrOf_eq_sum (op : BitVec 4) (c : Byte) (v : Half) :
    hdrOf op 0#4 c v = op.setWidth 32 <<< 28 + c.setWidth 32 <<< 16 + v.setWidth 32 := by
  have := op.isLt
  have := c.isLt
  have := v.isLt
  apply BitVec.eq_of_toNat_eq
  rw [hdrOf_toNat]
  simp [Nat.shiftLeft_eq]
  omega

/-- Settles O7: each mnemonic assembles to its request's encoding, and the encoding's header is the sum. -/
theorem assembledHeadersAreTheTablesSums : Obligations.AssembledHeadersAreTheTablesSums := by
  unfold Obligations.AssembledHeadersAreTheTablesSums
  intro c b w w1 w2 ptr n m
  have hc := c.isLt
  have hb := b.isLt
  have hw := w.isLt
  have hw1 := w1.isLt
  have hw2 := w2.isLt
  have hptr := ptr.isLt
  have hn := n.isLt
  have hm := m.isLt
  refine ⟨?_, ?_, ?_, ?_, ?_, ?_, ?_, ?_, ?_, ?_, ?_⟩
  all_goals
    simp [assembleRequest, whenFits, hc, hb, hw, hw1, hw2, hptr, hn, hm, encode, hdrOf_eq_sum]

/-- Settles O6. -/
theorem writtenOutWordsDecode : Obligations.WrittenOutWordsDecode := by
  unfold Obligations.WrittenOutWordsDecode
  decide

/-- Settles O12: both reserved rows are `refuseRequest`. -/
theorem reservedRowsTakeIllegalRequest : Obligations.ReservedRowsTakeIllegalRequest := by
  unfold Obligations.ReservedRowsTakeIllegalRequest
  exact fun s lowB lowC => ⟨rfl, rfl⟩

end Sys2Proof
end

section
/-! PROOFS. The bits of a framed record (O41), and a single-shot request as one framed record in one bracket
(O19). -/

namespace Sys2Proof.Machine

open Sys2Proof.Statements

/-! ### Bits on the wire (R115) -/

theorem bitsOf_getElem? {w : Nat} (v : BitVec w) {k : Nat} (hk : k < w) :
    (bitsOf v)[k]? = some (v.getLsbD (w - 1 - k)) := by
  simp [bitsOf, hk, BitVec.getMsbD]

theorem payloadBits_cons (b : Byte) (p : List Byte) : payloadBits (b :: p) = bitsOf b ++ payloadBits p :=
  List.flatMap_cons

theorem payloadBits_getElem? {p : List Byte} {j : Nat} {b : Byte} (hj : p[j]? = some b) {k : Nat} (hk : k < 8) :
    (payloadBits p)[8 * j + k]? = some (b.getLsbD (7 - k)) := by
  induction p generalizing j with
  | nil => cases hj
  | cons c p ih =>
    rw [payloadBits_cons]
    cases j with
    | zero =>
      cases hj
      rw [Nat.mul_zero, Nat.zero_add, List.getElem?_append_left (by rwa [bitsOf_length]), bitsOf_getElem? _ hk]
    | succ j =>
      rw [List.getElem?_append_right (by rw [bitsOf_length]; omega), bitsOf_length,
        show 8 * (j + 1) + k - 8 = 8 * j + k by omega]
      exact ih hj

theorem wireBits_framedTxn (cv : Byte) (av : BitVec 24) (p : List Byte) :
    wireBits (framedTxn cv av p) = bitsOf cv ++ bitsOf av ++ payloadBits p := by
  have hcv : (cv.setWidth 16).extractLsb' 0 8 = cv := by
    rw [BitVec.extractLsb'_setWidth_of_le (by decide), BitVec.extractLsb'_eq_self]
  have hav : (av.setWidth 32).extractLsb' 0 24 = av := by
    rw [BitVec.extractLsb'_setWidth_of_le (by decide), BitVec.extractLsb'_eq_self]
  rw [wireBits, framedTxn_first, if_pos rfl, framedTxn_payload, framedTxn, hcv, hav]

/-- Settles O41: the record's bits are those of its command, its address and its payload, in this order. -/
theorem framedBitsFollowTheLayout : Obligations.FramedBitsFollowTheLayout := by
  unfold Obligations.FramedBitsFollowTheLayout
  intro cv av p
  rw [wireBits_framedTxn, List.append_assoc]
  refine ⟨?_, fun k hk => ?_, fun k hk => ?_, fun j b hj k hk => ?_⟩
  · simp only [List.length_append, bitsOf_length, payloadBits_length]
    omega
  · rw [List.getElem?_append_left (by rw [bitsOf_length]; omega), bitsOf_getElem? _ hk]
  · rw [List.getElem?_append_right (by rw [bitsOf_length]; omega), bitsOf_length, Nat.add_sub_cancel_left,
      List.getElem?_append_left (by rwa [bitsOf_length]), bitsOf_getElem? _ hk]
  · rw [List.getElem?_append_right (by rw [bitsOf_length]; omega), bitsOf_length,
      List.getElem?_append_right (by rw [bitsOf_length]; omega), bitsOf_length,
      show 32 + 8 * j + k - 8 - 24 = 8 * j + k by omega]
    exact payloadBits_getElem? hj hk

/-! ### The two ends of a bracket (R150 to R152) -/

theorem enterBracket_eq (s : State) : s.enterBracket = { s with
    cs := .asserted
    platform := selectedPlatform s
    framing := .framed
    plan := { s.plan with txDone := 0 }
    trace := s.trace ++ selectEvents s } := by
  have htrace : s.enterBracket.trace = s.trace ++ selectEvents s := by simp [selectEvents, State.assertAddr]
  rw [← htrace]
  rfl

theorem deassertSelect_eq (s : State) : s.deassertSelect = { s with
    cs := .deasserted
    platform := s.platform.regWrite s.params
      (if s.params.csActiveLow then s.pins.csSetAddr else s.pins.csClrAddr) s.pins.csMask
    trace := s.trace ++ deselectEvents s } := by
  rw [← deassertSelect_trace_eq]
  rfl

theorem bracket_ok {b : Body} {s u : State} (h : b.run s.enterBracket = .ok u) :
    bracket b s = .ok u.deassertSelect := by
  simp only [bracket, h]

/-! ### Single-shot requests (R113, R176) -/

theorem body_single_ok {cv : Byte} {av : BitVec 24} {p : List Byte} {s u : State}
    (h : ({ s with txn := framedTxn cv av p } : State).submit = .ok u) :
    (Body.single cv av p).run s = .ok u.singleDone := by
  simp only [Body.run, h]

/-- The engine in the bracket of a single-shot request, its record `t` answered Ok. -/
def singleSent (s : State) (t : Transaction) (rest : List SubmitAnswer) : State :=
  { s with
    env := { s.env with submits := rest }
    cs := .asserted
    framing := .framed
    plan := { s.plan with txDone := 1 }
    txn := t
    retained := some (dataLanes s.params t.commandValue)
    platform := selectedPlatform s
    trace := s.trace ++ selectEvents s ++ [.txn t (some .ok)] }

theorem bracket_single_ok {s : State} {rest : List SubmitAnswer} (h : s.env.submits = .ok :: rest) (cv : Byte)
    (av : BitVec 24) (p : List Byte) :
    bracket (.single cv av p) s = .ok (singleSent s (framedTxn cv av p) rest).deassertSelect := by
  have hbody := body_single_ok (s := s.enterBracket) (cv := cv) (av := av) (p := p) (submit_ok h)
  rw [bracket_ok hbody, enterBracket_eq]
  rfl

/-- A single-shot request whose submission answers Ok, from the bracket's opening to the response (R157). -/
theorem singleShot_ok {s : State} {rest : List SubmitAnswer} (ready : s.mode = .ready)
    (h : s.env.submits = .ok :: rest) (cv : Byte) (av : BitVec 24) (p : List Byte) :
    singleShot cv av p s = .next ((singleSent s (framedTxn cv av p) rest).deassertSelect.respond .ok 0 0) := by
  rw [singleShot, whenReady_ready ready, bracket_single_ok h]
  rfl

theorem cmdAddr8_setWidth (c : Byte) :
    (cmdAddr8 c).setWidth 32 = ((0 : Byte) ++ (0 : Byte) ++ c ++ (0 : Byte) : Word) := by
  have := c.isLt
  apply BitVec.eq_of_toNat_eq
  rw [toNat_append_add, toNat_append_add, toNat_append_add]
  simp [cmdAddr8, Nat.shiftLeft_eq]
  omega

theorem cmdAddr16_setWidth (w : Half) : (cmdAddr16 w).setWidth 32 = ((0 : Half) ++ w : Word) := by
  have := w.isLt
  apply BitVec.eq_of_toNat_eq
  rw [toNat_append_add]
  simp [cmdAddr16]
  omega
/-- Every single-shot request is one framed record, with the values of R113 (R170 to R175). -/
theorem exec_singleShotOf {i : Instr} {cv : Half} {av : Word} {p : List Byte}
    (h : singleShotOf i = some (cv, av, p)) : ∃ (c : Byte) (a : BitVec 24),
    (∀ s, exec i s = singleShot c a p s) ∧ framedTxn c a p = framedRecord cv av p := by
  cases i with
  | writeCommand _ | writeCommand16 _ | writeByte _ | writeWord _ | writeCommandWithBytes _ _
  | writeCommandWithWords _ _ _ =>
    obtain ⟨rfl, rfl, rfl⟩ : _ ∧ _ ∧ _ := by simpa [singleShotOf] using h
    refine ⟨_, _, fun s => rfl, ?_⟩
    simp only [framedTxn, cmdAddr8_setWidth, cmdAddr16_setWidth]
    rfl
  | _ => cases h

/-- Settles O19: the request is `singleShot` with the record of R113. -/
theorem singleShotSendsItsOneTransaction : Obligations.SingleShotSendsItsOneTransaction := by
  unfold Obligations.SingleShotSendsItsOneTransaction
  intro i s cv av p rest hi ready hdraws
  obtain ⟨c, a, hexec, hrecord⟩ := exec_singleShotOf hi
  rw [hexec, singleShot_ok ready hdraws, hrecord, deassertSelect_eq]
  rfl

end Sys2Proof.Machine
end

section
/-! PROOFS. Streamed brackets answered Ok to the end, and `writePattern` as repetitions of one (O31). -/

namespace Sys2Proof.Machine

open Sys2Proof.Statements

/-! ### A streamed bracket answered Ok to its end -/

theorem le_ceilDiv_mul {total cap : Nat} (hcap : 0 < cap) : total ≤ ceilDiv total cap * cap := by
  have hlt := Nat.lt_div_mul_add (a := total + cap - 1) hcap
  unfold ceilDiv
  omega

theorem ceilDiv_ne_zero {total cap : Nat} (hcap : 0 < cap) (h : total ≠ 0) : ceilDiv total cap ≠ 0 := by
  have hle := le_ceilDiv_mul (total := total) hcap
  intro hzero
  rw [hzero] at hle
  omega

theorem ceilDiv_le (total : Nat) {cap : Nat} (hcap : 0 < cap) : ceilDiv total cap ≤ total := by
  by_contra h
  have hstart := mul_lt_of_lt_ceilDiv hcap (Nat.lt_of_not_le h)
  exact absurd (Nat.le_mul_of_pos_right total hcap) (Nat.not_le.mpr hstart)

/-- The submissions of a streamed bracket (R208). -/
abbrev Streaming.count (w : Streaming) (s : State) : Nat := ceilDiv w.total.toNat (w.cap s)

theorem Streaming.remaining_count (w : Streaming) (s : State) : w.total.toNat - w.count s * w.cap s = 0 :=
  Nat.sub_eq_zero_of_le (le_ceilDiv_mul (w.fill.capElems_pos s.params))

theorem Streaming.elementsOf_count (w : Streaming) (s : State) : w.elementsOf s (w.count s) = w.total.toNat :=
  Nat.min_eq_left (le_ceilDiv_mul (w.fill.capElems_pos s.params))

/-- The last chunk holds the rest (R205). -/
theorem Streaming.chunkOf_last {w : Streaming} {s : State} {last : Nat} (h : w.count s = last + 1) :
    w.chunkOf s last = w.total.toNat - last * w.cap s := by
  have hremaining := w.remaining_count s
  rw [h, Nat.succ_mul] at hremaining
  exact Nat.min_eq_left (by omega)

/-- A streamed bracket all of whose submissions answer Ok. -/
theorem Streaming.bracket_sent {w : Streaming} {b : Body} {s : State} {rest : List SubmitAnswer}
    (hrun : w.IsRunOf b s) (h : w.Supplied s w.total.toNat) (hdraws : s.env.submits = oks (w.count s) ++ rest) :
    bracket b s = .ok (w.sent s (w.count s) rest).deassertSelect := by
  have hcap := w.fill.capElems_pos s.params
  have hfills : ∀ k < w.count s, w.Fills s k := fun k hk =>
    fills_of_supplied h (mul_lt_of_lt_ceilDiv hcap hk) (Nat.min_le_left _ _)
  have hremaining : (w.sent s (w.count s) rest).plan.remaining = 0 := by
    apply BitVec.eq_of_toNat_eq
    rw [w.remaining_toNat, w.remaining_count]
    rfl
  have hloop := streamLoop_oks hfills (w.total.toNat - w.count s) rest
  rw [Nat.sub_add_cancel (ceilDiv_le _ hcap), streamLoop_zero _ _ _ hremaining] at hloop
  rw [IsRunOf, hdraws, hloop] at hrun
  exact bracket_ok hrun

/-! ### Repeating a bracket changes nothing more -/

/-- A register write fixes the bits of its mask or leaves them, whatever the bank held (R275). -/
theorem bankWrite_getElem (sa ca a : Nat) (mask bank : Word) (i : Nat) (hi : i < 32) :
    (bankWrite sa ca a mask bank)[i] =
      if mask[i] then if a = ca then false else if a = sa then true else bank[i] else bank[i] := by
  cases hm : mask[i] <;> simp only [bankWrite] <;> split_ifs <;> simp [hm]

theorem bankWrite_toggle_again (sa ca a b : Nat) (mask bank : Word) :
    bankWrite sa ca b mask (bankWrite sa ca a mask (bankWrite sa ca b mask (bankWrite sa ca a mask bank))) =
      bankWrite sa ca b mask (bankWrite sa ca a mask bank) := by
  ext i hi
  simp only [bankWrite_getElem]
  split_ifs <;> rfl

theorem toggledPlatform_again (s : State) :
    toggledPlatform { s with platform := toggledPlatform s } = toggledPlatform s := by
  simp only [toggledPlatform, selectedPlatform, Platform.regWrite, bankWrite_toggle_again]

theorem bufferThrough_again {buf : List Byte} {size : Nat} {bytes : List Byte} {last : Nat}
    (h : last * size ≤ bytes.length) :
    bufferThrough (bufferThrough buf size bytes (last + 1)) size bytes (last + 1) =
      bufferThrough buf size bytes (last + 1) := by
  refine List.ext_getElem? fun k => ?_
  rw [bufferThrough_getElem? _ h, bufferThrough_getElem? _ h]
  split_ifs <;> rfl

/-! ### `writePattern` (R235, R236) -/

/-- The events of one repetition of `n` chunks. -/
def patternEvents (s : State) (bytes : List Byte) (n : Nat) : List Event :=
  selectEvents s ++ okEvents (capBytes s.params) bytes n ++ deselectEvents s

/-- The engine after `m` repetitions of a pattern of `n` chunks, begun in `s` and all answered Ok, with `draws`
still to come. -/
def patternSent (s : State) (ptr len : Word) (bytes : List Byte) (n m : Nat) (draws : List SubmitAnswer) : State :=
  match m with
  | 0 => { s with env := { s.env with submits := draws }, plan := { s.plan with repDone := 0 } }
  | m + 1 =>
    let sent := (sourceStreaming .byte s ptr len bytes).sent s n draws
    { sent with
      cs := .deasserted
      platform := toggledPlatform s
      plan := { sent.plan with repDone := BitVec.ofNat 32 (m + 1) }
      trace := s.trace ++ (List.replicate (m + 1) (patternEvents s bytes n)).flatten }

section Pattern

variable {s : State} {ptr len : Word} {bytes : List Byte} {last : Nat}

theorem patternSent_repDone (n m : Nat) (draws : List SubmitAnswer) :
    (patternSent s ptr len bytes n m draws).plan.repDone = BitVec.ofNat 32 m := by
  cases m <;> rfl

theorem patternSent_repDone_add_one (n m : Nat) (draws : List SubmitAnswer) :
    (patternSent s ptr len bytes n m draws).plan.repDone + 1 = BitVec.ofNat 32 (m + 1) := by
  rw [patternSent_repDone]
  exact (BitVec.ofNat_add m 1).symm

theorem patternSent_trace (n m : Nat) (draws : List SubmitAnswer) : (patternSent s ptr len bytes n m draws).trace =
    s.trace ++ (List.replicate m (patternEvents s bytes n)).flatten := by
  cases m with
  | zero => exact (List.append_nil _).symm
  | succ m => rfl

theorem patternSent_trace_append (n m : Nat) (draws : List SubmitAnswer) :
    (patternSent s ptr len bytes n m draws).trace ++ selectEvents s ++ okEvents (capBytes s.params) bytes n
        ++ deselectEvents s =
      s.trace ++ (List.replicate (m + 1) (patternEvents s bytes n)).flatten := by
  rw [patternSent_trace, List.replicate_succ']
  simp [patternEvents]

theorem toggledPlatform_patternSent (n m : Nat) (draws : List SubmitAnswer) :
    toggledPlatform (patternSent s ptr len bytes n m draws) = toggledPlatform s := by
  cases m with
  | zero => rfl
  | succ m => exact toggledPlatform_again s

theorem bufferThrough_patternSent (h : last * capBytes s.params ≤ bytes.length) (m : Nat)
    (draws : List SubmitAnswer) :
    bufferThrough (patternSent s ptr len bytes (last + 1) m draws).buf (capBytes s.params) bytes (last + 1) =
      bufferThrough s.buf (capBytes s.params) bytes (last + 1) := by
  cases m with
  | zero => rfl
  | succ m => exact bufferThrough_again h

/-- One repetition more (R235). -/
theorem repetitionDone_patternSent (h : last * capBytes s.params ≤ bytes.length) (m : Nat)
    (draws rest : List SubmitAnswer) :
    ((sourceStreaming .byte (patternSent s ptr len bytes (last + 1) m draws) ptr len bytes).sent
        (patternSent s ptr len bytes (last + 1) m draws) (last + 1) rest).deassertSelect.repetitionDone =
      patternSent s ptr len bytes (last + 1) (m + 1) rest := by
  rw [deassertSelect_eq]
  calc _ = { patternSent s ptr len bytes (last + 1) (m + 1) rest with
        plan := { (patternSent s ptr len bytes (last + 1) (m + 1) rest).plan with
          repDone := (patternSent s ptr len bytes (last + 1) m draws).plan.repDone + 1 }
        platform := toggledPlatform (patternSent s ptr len bytes (last + 1) m draws)
        buf := bufferThrough (patternSent s ptr len bytes (last + 1) m draws).buf (capBytes s.params) bytes
          (last + 1)
        trace := (patternSent s ptr len bytes (last + 1) m draws).trace ++ selectEvents s
          ++ okEvents (capBytes s.params) bytes (last + 1) ++ deselectEvents s } := by cases m <;> rfl
    _ = patternSent s ptr len bytes (last + 1) (m + 1) rest := by
      rw [patternSent_repDone_add_one, patternSent_trace_append, toggledPlatform_patternSent,
        bufferThrough_patternSent h]
      rfl

/-- The last chunk of a pattern begins within it. -/
theorem last_chunk_le (hlen : bytes.length = len.toNat) (hn : ceilDiv len.toNat (capBytes s.params) = last + 1) :
    last * capBytes s.params ≤ bytes.length := by
  rw [hlen]
  exact (mul_lt_of_lt_ceilDiv (Fill.byte.capElems_pos s.params) (hn ▸ Nat.lt_succ_self last)).le

/-- The bracket of a byte stream all of whose submissions answer Ok (R230). -/
theorem bracket_bytes_sent {rest : List SubmitAnswer} (hlen : bytes.length = len.toNat)
    (hbytes : SourceBytes s ptr bytes) {n : Nat} (hn : ceilDiv len.toNat (capBytes s.params) = n)
    (hdraws : s.env.submits = oks n ++ rest) :
    bracket (.bytes ptr len) s =
      .ok ((sourceStreaming .byte s ptr len bytes).sent s n rest).deassertSelect := by
  subst hn
  exact Streaming.bracket_sent (byteStreaming_isRunOf s ptr len bytes)
    (hlen ▸ byteStreaming_supplied hlen.le hbytes) hdraws

theorem patternLoop_succ {left : Nat} {u : State} (h : bracket (.bytes ptr len) s = .ok u) :
    patternLoop ptr len (left + 1) s = patternLoop ptr len left u.repetitionDone := by
  simp only [patternLoop, h]

theorem oks_add_append (m n : Nat) (rest : List SubmitAnswer) : oks (m + n) ++ rest = oks m ++ (oks n ++ rest) := by
  rw [oks, List.replicate_add, List.append_assoc]
  rfl

theorem patternLoop_succ_patternSent (hlen : bytes.length = len.toNat) (hbytes : SourceBytes s ptr bytes)
    (hn : ceilDiv len.toNat (capBytes s.params) = last + 1) (left m : Nat) (rest : List SubmitAnswer) :
    patternLoop ptr len (left + 1) (patternSent s ptr len bytes (last + 1) m (oks (last + 1) ++ rest)) =
      patternLoop ptr len left (patternSent s ptr len bytes (last + 1) (m + 1) rest) := by
  rw [← repetitionDone_patternSent (last_chunk_le hlen hn) m (oks (last + 1) ++ rest)]
  refine patternLoop_succ (bracket_bytes_sent hlen ?_ ?_ ?_)
  · cases m <;> exact hbytes
  · cases m <;> exact hn
  · cases m <;> rfl

/-- The repetitions one after the other, every submission answered Ok. -/
theorem patternLoop_patternSent (hlen : bytes.length = len.toNat) (hbytes : SourceBytes s ptr bytes)
    (hn : ceilDiv len.toNat (capBytes s.params) = last + 1) (left m : Nat) (rest : List SubmitAnswer) :
    patternLoop ptr len left (patternSent s ptr len bytes (last + 1) m (oks (left * (last + 1)) ++ rest)) =
      .ok (patternSent s ptr len bytes (last + 1) (m + left) rest) := by
  induction left generalizing m with
  | zero => simp [patternLoop, oks]
  | succ left ih =>
    rw [Nat.succ_mul, Nat.add_comm (left * _), oks_add_append, patternLoop_succ_patternSent hlen hbytes hn, ih,
      Nat.add_right_comm, Nat.add_assoc]

end Pattern

/-- Settles O31: every repetition is the bracket of the byte stream, and leaves the buffer and the banks as the
one before it did. -/
theorem patternRepeatsWholeBrackets : Obligations.PatternRepeatsWholeBrackets := by
  unfold Obligations.PatternRepeatsWholeBrackets
  intro s ptr len reps bytes rest ready hlen hreps hsource hbytes_length hbytes hdraws
  have hcap : 0 < capBytes s.params := Fill.byte.capElems_pos s.params
  obtain ⟨last, hlast⟩ := Nat.exists_eq_succ_of_ne_zero (ceilDiv_ne_zero hcap (BitVec.toNat_ne.mp hlen))
  obtain ⟨m, hm⟩ := Nat.exists_eq_succ_of_ne_zero (n := reps.toNat) (BitVec.toNat_ne.mp hreps)
  have hreps_eq : reps = BitVec.ofNat 32 (m + 1) := by rw [← Nat.succ_eq_add_one, ← hm]; simp
  have hstart : { s with plan := { s.plan with repDone := 0 } } =
      patternSent s ptr len bytes (last + 1) 0 (oks (reps.toNat * (last + 1)) ++ rest) := by
    rw [← Nat.succ_eq_add_one, ← hlast, ← hdraws]
    rfl
  have hexec := exec_writePattern ready hreps hlen hsource
  rw [hstart, patternLoop_patternSent hbytes_length hbytes hlast, Nat.zero_add] at hexec
  have hcount : (sourceStreaming .byte s ptr len bytes).count s = last + 1 := hlast
  have hremaining := (sourceStreaming .byte s ptr len bytes).remaining_count s
  have helements := (sourceStreaming .byte s ptr len bytes).elementsOf_count s
  rw [hcount] at hremaining helements
  refine ⟨_, hexec, ?_⟩
  rw [hlast, hm, hreps_eq]
  refine ⟨rfl, rfl, rfl, rfl, rfl, rfl, ?_, rfl, ?_, ?_, rfl, rfl, ?_, rfl, rfl, rfl, rfl, rfl, ?_⟩
  · exact congrArg (ptr.toNat + ·) ((Nat.mul_one _).trans helements)
  · exact congrArg (BitVec.ofNat 32) hremaining
  · exact ((sourceStreaming .byte s ptr len bytes).chunk_toNat s last).trans (Streaming.chunkOf_last hcount)
  · exact bufferAfter_of_bufferThrough (last_chunk_le hbytes_length hlast) rfl
  · constructor <;> intros <;> rfl

end Sys2Proof.Machine
end

section
/-! PROOFS. Streamed requests answered Ok to the end (O26), and `writePattern` waiting for ever in one of its
repetitions (O33). -/

namespace Sys2Proof.Machine

open Sys2Proof.Statements

/-! ### A streamed request answered Ok to its end (O26) -/

/-- A streamed request that runs has something to send (R204). -/
theorem elements_ne_zero {i : Instr} {s : State} {n : Nat} {bytes : List Byte} (h : StreamsUpTo i s n bytes) :
    (elements i s).1 ≠ 0 := by
  cases i with
  | writeRepeated _ _ | writePixelStream _ _ | writeByteStream _ _ => exact BitVec.toNat_ne.mp h.1
  | _ => exact h.elim

section Whole

variable {w : Streaming} {i : Instr} {s : State} {last : Nat}

theorem Streaming.Realizes.transactions_eq {n : Nat} (h : w.Realizes i s n) :
    transactions i s = w.count s := by
  rw [transactions, h.counts]

theorem Streaming.Realizes.exec_sent (h : w.Realizes i s w.total.toNat) {rest : List SubmitAnswer}
    (hdraws : s.env.submits = oks (w.count s) ++ rest) :
    exec i s = .next ((w.sent s (w.count s) rest).deassertSelect.respond .ok 0 0) := by
  obtain ⟨b, hexec, hrun⟩ := h.runs
  rw [hexec, bracket_sent hrun h.supplied hdraws]
  rfl

/-- The last chunk begins within the stream's bytes. -/
theorem Streaming.Realizes.last_chunk_le (h : w.Realizes i s w.total.toNat) (hlast : w.count s = last + 1) :
    last * capBytes s.params ≤ w.bytes.length := by
  have hstart : last * w.cap s < w.total.toNat :=
    mul_lt_of_lt_ceilDiv (w.fill.capElems_pos s.params) (hlast.ge : last < w.count s)
  rw [h.supplied.length, ← w.fill.capElems_mul_elemBytes, ← Nat.mul_assoc]
  exact Nat.mul_le_mul_right _ hstart.le

end Whole

/-- Settles O26: the request is one streamed bracket, and its loop ends with every chunk answered Ok. -/
theorem streamSendsItsBytesInChunks : Obligations.StreamSendsItsBytesInChunks := by
  unfold Obligations.StreamSendsItsBytesInChunks
  intro i s bytes rest ready hstream hdraws
  have hne := elements_ne_zero hstream
  obtain ⟨w, rfl, h⟩ := exists_streaming ready (le_refl _) hstream
  rw [h.transactions_eq] at hdraws ⊢
  have hcounts := h.counts
  simp only [hcounts] at h hne ⊢
  have hexec := h.exec_sent hdraws
  have hremaining := w.remaining_count s
  have helements := w.elementsOf_count s
  obtain ⟨last, hlast⟩ := Nat.exists_eq_succ_of_ne_zero (n := w.count s)
    (ceilDiv_ne_zero (w.fill.capElems_pos s.params) hne)
  rw [hlast] at hexec hremaining helements ⊢
  have htrace : ((w.sent s (last + 1) rest).deassertSelect.respond .ok 0 0).trace =
      s.trace ++ selectEvents s ++ okEvents (capBytes s.params) w.bytes (last + 1)
        ++ deselectEvents s ++ [.rsp 0 0 0] := by
    rw [State.respond_trace, deassertSelect_trace_eq]
    rfl
  have hplan : PlanAfter i s ((w.sent s (last + 1) rest).deassertSelect.respond .ok 0 0) w.total.toNat :=
    h.plan _ _ rfl rfl (congrArg (fun n => w.src + n * w.fill.stride) helements)
  have hchunk : (BitVec.ofNat 32 (w.chunkOf s last)).toNat = w.total.toNat - last * w.cap s :=
    (w.chunk_toNat s last).trans (Streaming.chunkOf_last hlast)
  have hbuffer : BufferAfter s ((w.sent s (last + 1) rest).deassertSelect.respond .ok 0 0) w.bytes last :=
    bufferAfter_of_bufferThrough (h.last_chunk_le hlast) (h.buffer last (Nat.min_le_left _ _))
  exact ⟨_, hexec, htrace, rfl, rfl, rfl, rfl, rfl, congrArg (BitVec.ofNat 32) hremaining, hchunk, hplan, rfl,
    rfl, rfl, rfl, hbuffer, rfl, rfl, by constructor <;> intros <;> rfl⟩

/-! ### `writePattern` that is not answered (O33) -/

/-- Whichever chunk the buffer was written through before, it is afterwards as if it had not been. -/
theorem bufferThrough_restart {buf : List Byte} {size : Nat} {bytes : List Byte} {last j : Nat}
    (hlast : last * size ≤ bytes.length) (hj : j * size ≤ bytes.length) :
    bufferThrough (bufferThrough buf size bytes (last + 1)) size bytes (j + 1) =
      bufferThrough buf size bytes (j + 1) := by
  refine List.ext_getElem? fun k => ?_
  have hshort : (payloadAt size bytes last).length ≤ min bytes.length size := by
    rw [payloadAt_length]
    omega
  rw [bufferThrough_getElem? _ hj, bufferThrough_getElem? _ hj, bufferThrough_getElem? _ hlast]
  by_cases hfront : k < min bytes.length size
  · rw [if_pos hfront, if_pos hfront]
  · simp only [if_neg hfront, if_neg (show ¬ k < (payloadAt size bytes last).length by omega)]

/-- The bracket of a byte stream whose submission `j` is not answered. -/
theorem bracket_bytes_hung {s : State} {ptr len : Word} {bytes : List Byte} {j : Nat}
    (hj : j < ceilDiv len.toNat (capBytes s.params)) (hle : bytes.length ≤ len.toNat)
    (hread : min len.toNat ((j + 1) * capBytes s.params) ≤ bytes.length) (hbytes : SourceBytes s ptr bytes)
    (hdraws : s.env.submits = oks j) :
    bracket (.bytes ptr len) s = .blocked ((sourceStreaming .byte s ptr len bytes).hung s j) := by
  have hrun := byteStreaming_isRunOf s ptr len bytes
  have hfills := Streaming.fills_through (byteStreaming_supplied hle hbytes)
    (mul_lt_of_lt_ceilDiv (Fill.byte.capElems_pos s.params) hj) hread
  rw [Streaming.IsRunOf, hdraws, Streaming.streamLoop_hung hfills] at hrun
  exact bracket_blocked hrun

section Pattern

variable {s : State} {ptr len : Word} {bytes : List Byte} {last m j : Nat}

theorem oks_add (m n : Nat) : oks (m + n) = oks m ++ oks n := List.replicate_add ..

/-- The first repetitions, all answered Ok, with `more` repetitions to come after them. -/
theorem patternLoop_patternSent_add (hlen : bytes.length = len.toNat) (hbytes : SourceBytes s ptr bytes)
    (hn : ceilDiv len.toNat (capBytes s.params) = last + 1) (left more m : Nat) (rest : List SubmitAnswer) :
    patternLoop ptr len (more + left) (patternSent s ptr len bytes (last + 1) m (oks (left * (last + 1)) ++ rest)) =
      patternLoop ptr len more (patternSent s ptr len bytes (last + 1) (m + left) rest) := by
  induction left generalizing m with
  | zero => simp [oks]
  | succ left ih =>
    rw [Nat.succ_mul, Nat.add_comm (left * _), oks_add_append, ← Nat.add_assoc,
      patternLoop_succ_patternSent hlen hbytes hn, ih, Nat.add_right_comm, Nat.add_assoc]

/-- The loop reaches repetition `m` once the repetitions before it are answered Ok; before the first
repetition no byte of the pattern need be admitted (R235). -/
theorem patternLoop_reaches (hlen : m ≠ 0 → bytes.length = len.toNat) (hbytes : SourceBytes s ptr bytes)
    (hn : ceilDiv len.toNat (capBytes s.params) = last + 1) (more : Nat) (rest : List SubmitAnswer) :
    patternLoop ptr len (more + m) (patternSent s ptr len bytes (last + 1) 0 (oks (m * (last + 1)) ++ rest)) =
      patternLoop ptr len more (patternSent s ptr len bytes (last + 1) m rest) := by
  cases m with
  | zero => simp [oks]
  | succ m =>
    rw [patternLoop_patternSent_add (hlen (Nat.succ_ne_zero m)) hbytes hn, Nat.zero_add]

/-- The bytes read before submission `j` of repetition `m` are at most the pattern, at least its chunks
`0 .. j`, and in a later repetition all of it. -/
theorem patternThrough_bounds (s : State) (len : Word) (m j : Nat) :
    patternThrough s len m j ≤ len.toNat ∧
      min len.toNat ((j + 1) * capBytes s.params) ≤ patternThrough s len m j ∧
      (m ≠ 0 → patternThrough s len m j = len.toNat) := by
  unfold patternThrough
  by_cases hm : m = 0
  · rw [if_pos hm]
    exact ⟨Nat.min_le_left _ _, le_refl _, fun hne => absurd hm hne⟩
  · rw [if_neg hm]
    exact ⟨le_refl _, Nat.min_le_left _ _, fun _ => rfl⟩

/-- A chunk that is reached begins within the bytes read before its submission. -/
theorem chunk_start_le (hj : j < ceilDiv len.toNat (capBytes s.params))
    (hread : min len.toNat ((j + 1) * capBytes s.params) ≤ bytes.length) : j * capBytes s.params ≤ bytes.length := by
  have hbegins := mul_lt_of_lt_ceilDiv (Fill.byte.capElems_pos s.params) hj
  rw [Nat.succ_mul] at hread
  exact le_trans (le_min hbegins.le (Nat.le_add_right _ _)) hread

/-- A pattern of `n` chunks, begun in `s`, whose chunk `j` of repetition `m` is not answered: chunk `j` waiting in a
bracket of its own, but for `repDone`, the banks and the events of the repetitions before. -/
def patternHung (s : State) (ptr len : Word) (bytes : List Byte) (n m j : Nat) : State :=
  let hung := (sourceStreaming .byte s ptr len bytes).hung s j
  { hung with
    plan := { hung.plan with repDone := BitVec.ofNat 32 m }
    platform := selectedPlatform { s with platform := if m = 0 then s.platform else toggledPlatform s }
    trace := s.trace ++ (List.replicate m (patternEvents s bytes n)).flatten ++ selectEvents s
      ++ okEvents (capBytes s.params) bytes j ++ [.txn (recordAt (capBytes s.params) bytes j) none] }

theorem hung_patternSent (hlast : m ≠ 0 → last * capBytes s.params ≤ bytes.length)
    (hj : j * capBytes s.params ≤ bytes.length) (draws : List SubmitAnswer) :
    (sourceStreaming .byte (patternSent s ptr len bytes (last + 1) m draws) ptr len bytes).hung
        (patternSent s ptr len bytes (last + 1) m draws) j = patternHung s ptr len bytes (last + 1) m j := by
  rw [patternHung, ← patternSent_trace (ptr := ptr) (len := len) (last + 1) m draws]
  cases m with
  | zero => rfl
  | succ m =>
    have hbuf : bufferThrough (patternSent s ptr len bytes (last + 1) (m + 1) draws).buf (capBytes s.params) bytes
        (j + 1) = bufferThrough s.buf (capBytes s.params) bytes (j + 1) :=
      bufferThrough_restart (hlast (Nat.succ_ne_zero m)) hj
    calc _ = { (sourceStreaming .byte (patternSent s ptr len bytes (last + 1) (m + 1) draws) ptr len bytes).hung
            (patternSent s ptr len bytes (last + 1) (m + 1) draws) j with
          buf := bufferThrough (patternSent s ptr len bytes (last + 1) (m + 1) draws).buf (capBytes s.params) bytes
            (j + 1) } := rfl
      _ = _ := by rw [hbuf]; rfl

/-- Repetition `m` is reached, and waits in its submission `j`. -/
theorem patternLoop_hung (hread : bytes.length = patternThrough s len m j) (hbytes : SourceBytes s ptr bytes)
    (hj : j < ceilDiv len.toNat (capBytes s.params)) (hn : ceilDiv len.toNat (capBytes s.params) = last + 1)
    (left : Nat) :
    patternLoop ptr len (left + 1 + m) (patternSent s ptr len bytes (last + 1) 0 (oks (m * (last + 1)) ++ oks j)) =
      .blocked (patternHung s ptr len bytes (last + 1) m j) := by
  obtain ⟨hle, hthrough, hwhole⟩ := patternThrough_bounds s len m j
  rw [← hread] at hle hthrough hwhole
  have hbracket : bracket (.bytes ptr len) (patternSent s ptr len bytes (last + 1) m (oks j)) =
      .blocked ((sourceStreaming .byte (patternSent s ptr len bytes (last + 1) m (oks j)) ptr len bytes).hung
        (patternSent s ptr len bytes (last + 1) m (oks j)) j) := by
    cases m <;> exact bracket_bytes_hung hj hle hthrough hbytes rfl
  rw [patternLoop_reaches hwhole hbytes hn, patternLoop, hbracket,
    hung_patternSent (fun hne => last_chunk_le (hwhole hne) hn) (chunk_start_le hj hthrough)]

theorem bufferAfter_patternHung (hj : j * capBytes s.params ≤ bytes.length) (n m : Nat) :
    BufferAfter s (patternHung s ptr len bytes n m j) bytes j := bufferAfter_of_bufferThrough hj rfl

end Pattern

/-- Settles O33: the repetitions before it answered Ok, repetition `m` is a bracket of the byte stream that waits
in its submission `j`. -/
theorem patternHangsWithoutAnAnswer : Obligations.PatternHangsWithoutAnAnswer := by
  unfold Obligations.PatternHangsWithoutAnAnswer
  intro s ptr len reps bytes m j ready hlen hm hsource hread hbytes hj hdraws
  obtain ⟨last, hlast⟩ := Nat.exists_eq_succ_of_ne_zero (Nat.ne_zero_of_lt hj)
  obtain ⟨left, hleft⟩ : ∃ left, reps.toNat = left + 1 + m := ⟨reps.toNat - m - 1, by omega⟩
  have hreps : reps ≠ 0 := by
    rintro rfl
    exact absurd hm (Nat.not_lt_zero _)
  have hstart : { s with plan := { s.plan with repDone := 0 } } =
      patternSent s ptr len bytes (last + 1) 0 (oks (m * (last + 1)) ++ oks j) := by
    rw [← oks_add, ← Nat.succ_eq_add_one, ← hlast, ← hdraws]
    rfl
  have hexec := exec_writePattern ready hreps hlen hsource
  rw [hstart, hleft, patternLoop_hung hread hbytes hj hlast] at hexec
  obtain ⟨-, hthrough, -⟩ := patternThrough_bounds s len m j
  rw [← hread] at hthrough
  have hremaining := (sourceStreaming .byte s ptr len bytes).remaining_toNat s j []
  have hchunk := ((sourceStreaming .byte s ptr len bytes).chunk_toNat s j).trans
    (congrArg (min · (capBytes s.params)) hremaining.symm)
  rw [hlast]
  exact ⟨_, hexec, rfl, rfl, rfl, rfl, rfl, rfl, rfl, hremaining, rfl, congrArg (ptr.toNat + ·) (Nat.mul_one _),
    hchunk, rfl, rfl, bufferAfter_patternHung (chunk_start_le hj hthrough) _ m, rfl, rfl, rfl, rfl,
    by constructor <;> intros <;> rfl⟩

end Sys2Proof.Machine
end

section
/-! PROOFS. A single-shot request that is answered Err (O20) or not at all (O21). -/

namespace Sys2Proof.Machine

open Sys2Proof.Statements

/-! ### The ends of a single-shot body (R176) -/

theorem body_single_err {cv : Byte} {av : BitVec 24} {p : List Byte} {s u : State}
    (h : ({ s with txn := framedTxn cv av p } : State).submit = .err u) :
    (Body.single cv av p).run s = .err u := by
  simp only [Body.run, h]

theorem body_single_blocked {cv : Byte} {av : BitVec 24} {p : List Byte} {s u : State}
    (h : ({ s with txn := framedTxn cv av p } : State).submit = .blocked u) :
    (Body.single cv av p).run s = .blocked u := by
  simp only [Body.run, h]

/-- The engine in the bracket of a single-shot request, its record `t` answered Err (R262; log 9). -/
def singleFailed (s : State) (t : Transaction) (n : Nat) (rest : List SubmitAnswer) : State :=
  { s with
    env := { s.env with submits := rest }
    cs := .asserted
    framing := .framed
    plan := { s.plan with txDone := 0 }
    txn := t
    retained := Config.retainedAfterErr s.frees
    frees := s.frees + 1
    platform := selectedPlatform s
    trace := s.trace ++ selectEvents s ++ [.txn t (some (.err n))] }

/-- The engine in the bracket of a single-shot request, its record `t` not answered (R263; log 26). -/
def singleHung (s : State) (t : Transaction) : State :=
  { s with
    cs := .asserted
    framing := .framed
    plan := { s.plan with txDone := 0 }
    txn := t
    retained := some (dataLanes s.params t.commandValue)
    platform := selectedPlatform s
    waiting := .busDriver
    trace := s.trace ++ selectEvents s ++ [.txn t none] }

section Single

variable {s : State} (cv : Byte) (av : BitVec 24) (p : List Byte)

theorem bracket_single_err {n : Nat} {rest : List SubmitAnswer} (h : s.env.submits = .err n :: rest) :
    bracket (.single cv av p) s = .err (singleFailed s (framedTxn cv av p) n rest).deassertSelect := by
  have hbody := body_single_err (s := s.enterBracket) (cv := cv) (av := av) (p := p) (submit_err h)
  rw [bracket_err hbody, enterBracket_eq]
  rfl

theorem bracket_single_blocked (h : s.env.submits = []) :
    bracket (.single cv av p) s = .blocked (singleHung s (framedTxn cv av p)) := by
  have hbody := body_single_blocked (s := s.enterBracket) (cv := cv) (av := av) (p := p) (submit_blocked h)
  rw [bracket_blocked hbody, enterBracket_eq]
  rfl

/-- An Err answer: chip select is deasserted as after Ok, and the response is TRANSPORT_ERROR (R157). -/
theorem singleShot_err {n : Nat} {rest : List SubmitAnswer} (ready : s.mode = .ready)
    (h : s.env.submits = .err n :: rest) : singleShot cv av p s =
      .next ((singleFailed s (framedTxn cv av p) n rest).deassertSelect.respond .transportError 0 0) := by
  rw [singleShot, whenReady_ready ready, bracket_single_err cv av p h]
  rfl

/-- No answer: the bracket stays open, and there is no response (R154). -/
theorem singleShot_hung (ready : s.mode = .ready) (h : s.env.submits = []) :
    singleShot cv av p s = .next (singleHung s (framedTxn cv av p)) := by
  rw [singleShot, whenReady_ready ready, bracket_single_blocked cv av p h]
  rfl

end Single

/-! ### The requests (O20, O21) -/

/-- Settles O20: the request is `singleShot` with the record of R113. -/
theorem singleShotReportsATransportError : Obligations.SingleShotReportsATransportError := by
  unfold Obligations.SingleShotReportsATransportError
  intro i s cv av p n rest hi ready hdraws
  obtain ⟨c, a, hexec, hrecord⟩ := exec_singleShotOf hi
  rw [hexec, singleShot_err c a p ready hdraws, hrecord, deassertSelect_eq]
  rfl

/-- Settles O21: as O20, waiting in the submission. -/
theorem singleShotHangsWithoutAnAnswer : Obligations.SingleShotHangsWithoutAnAnswer := by
  unfold Obligations.SingleShotHangsWithoutAnAnswer
  intro i s cv av p hi ready hdraws
  obtain ⟨c, a, hexec, hrecord⟩ := exec_singleShotOf hi
  rw [hexec, singleShot_hung c a p ready hdraws, hrecord]
  rfl

end Sys2Proof.Machine
end

section
/-! PROOFS. What `open` does in an UNINIT engine: a chip-select pin that is refused (O15, O16), the seven steps of
a good pin to READY (O17), and the first external call that answers Err (O18). -/

namespace Sys2Proof.Machine

open Sys2Proof.Statements

/-! ### The chip-select pin (R141, R142) -/

theorem pinBank_low {p : Params} {cs : Nat} (h : cs < p.bankThreshold) : pinBank p cs = .low := if_pos h

theorem pinBank_high {p : Params} {cs : Nat} (h : p.bankThreshold ≤ cs) : pinBank p cs = .high :=
  if_neg (Nat.not_lt.mpr h)

theorem pinBit_low {p : Params} {cs : Nat} (h : cs < p.bankThreshold) : pinBit p cs = cs := by
  rw [pinBit, pinBank_low h, bankBase, Nat.sub_zero]

theorem pinBit_high {p : Params} {cs : Nat} (h : p.bankThreshold ≤ cs) : pinBit p cs = cs - p.bankThreshold := by
  rw [pinBit, pinBank_high h, bankBase]

theorem negative8_eq_true {v : Byte} (h : v.toInt < 0) : negative8 v = true := decide_eq_true h

theorem negative8_ne_true {v : Byte} (h : 0 ≤ v.toInt) : ¬ negative8 v = true := by
  rw [negative8, decide_eq_true_eq]
  exact Int.not_lt.mpr h

theorem execOpen_pinInvalid {s : State} (hm : s.mode = .uninit) (hneg : s.cfg.cs.toInt < 0) :
    execOpen s = .next (s.initError .csPinInvalid) := by
  rw [execOpen, if_neg (not_not.mpr hm), if_pos (negative8_eq_true hneg)]

theorem execOpen_badPin {s : State} (hm : s.mode = .uninit) (hpos : 0 ≤ s.cfg.cs.toInt)
    (hpin : s.params.numPins ≤ s.cfg.cs.toNat ∨ 32 ≤ pinBit s.params s.cfg.cs.toNat) :
    execOpen s = .next (s.raiseFault .badPin) := by
  rw [execOpen, if_neg (not_not.mpr hm), if_neg (negative8_ne_true hpos), if_pos hpin]

/-- Settles O15: the two answers of the pin's validation before its bank is looked at. -/
theorem openValidatesTheChipSelectPin : Obligations.OpenValidatesTheChipSelectPin := by
  unfold Obligations.OpenValidatesTheChipSelectPin
  intro s hm
  exact ⟨fun hneg => execOpen_pinInvalid hm hneg, fun hpos hpins => execOpen_badPin hm hpos (.inl hpins)⟩

/-- Settles O16: in either bank the pin's bit is 32 or more. -/
theorem openRefusesAPinBeyondItsBank : Obligations.OpenRefusesAPinBeyondItsBank := by
  unfold Obligations.OpenRefusesAPinBeyondItsBank
  intro s hm hpos _ hbank
  refine execOpen_badPin hm hpos (.inr ?_)
  rcases hbank with ⟨hlow, hbit⟩ | ⟨hhigh, hbit⟩
  · rwa [pinBit_low hlow]
  · rwa [pinBit_high hhigh]

/-! ### A good pin: the steps before the first external call (R142 to R144) -/

section GoodPin

variable {s : State} {b : Bank} {bit : Nat}

theorem pinBank_of_goodPin (h : GoodPin s b bit) : pinBank s.params s.cfg.cs.toNat = b := by
  obtain ⟨-, -, -, -, ⟨rfl, hlow, -⟩ | ⟨rfl, hhigh, -⟩⟩ := h
  · exact pinBank_low hlow
  · exact pinBank_high hhigh

theorem pinBit_of_goodPin (h : GoodPin s b bit) : pinBit s.params s.cfg.cs.toNat = bit := by
  obtain ⟨-, -, -, -, ⟨-, hlow, rfl⟩ | ⟨-, hhigh, rfl⟩⟩ := h
  · exact pinBit_low hlow
  · exact pinBit_high hhigh

theorem bankRegisters_eq (p : Params) (b : Bank) : bankRegisters p b = (setAddr p b, clrAddr p b) := by
  cases b <;> rfl

/-- The binding of a good pin (R142). -/
theorem bindPins_of_goodPin (h : GoodPin s b bit) : s.bindPins = { s with pins := boundPins s b bit } := by
  simp only [State.bindPins, boundPins, bankRegisters_eq, pinBank_of_goodPin h, pinBit_of_goodPin h]

theorem resolvedXfer_eq (s : State) : s.resolveTransferConfig = { s with xfer := resolvedXfer s } := by
  simp only [State.resolveTransferConfig, resolvedXfer, negative8, negative32, decide_eq_true_eq]

/-- The second to fourth step (R142 to R144). -/
theorem opened_of_goodPin (h : GoodPin s b bit) :
    s.bindPins.configureCsPin.resolveTransferConfig = openedTo s b bit [] := by
  rw [bindPins_of_goodPin h, State.configureCsPin, deassertSelect_eq, resolvedXfer_eq]
  simp only [openedTo, State.emit, List.append_assoc]
  rfl

/-- With a good pin, what is left of `open` are its external calls. -/
theorem execOpen_goodPin (h : GoodPin s b bit) : execOpen s = .next (openedTo s b bit []).openBus := by
  have hbit := pinBit_of_goodPin h
  rw [← opened_of_goodPin h]
  obtain ⟨hm, hpos, hpins, hfits, -⟩ := h
  rw [execOpen, if_neg (not_not.mpr hm), if_neg (negative8_ne_true hpos), if_neg (by omega)]

end GoodPin

/-! ### The external calls (R145 to R149) -/

/-- An InitError: RSP, and `mode` FAILED for good (R149, R261). -/
theorem initError_eq (s : State) (c : InitCause) : s.initError c = { s.emit (.rsp 1 c.code 0) with
    mode := .failed, seq := .idle, rsp := response 1 c.code 0 } := rfl

theorem openBus_err {s : State} (h : s.env.busInit = none) :
    s.openBus = (s.emit (.busInit s.busInitArgs s.env.busInit)).initError .busInitFailed := by
  simp only [State.openBus, h]

theorem openBus_ok {s : State} {ctx : Nat} (h : s.env.busInit = some ctx) :
    s.openBus = State.openBuffer { s.emit (.busInit s.busInitArgs s.env.busInit) with busContext := some ctx } := by
  simp only [State.openBus, h]

theorem openBuffer_err {s : State} (h : s.env.alloc = none) :
    s.openBuffer = (s.emit (.alloc (capBytes s.params) s.allocAnswer)).initError .allocFailed := by
  simp only [State.openBuffer, State.allocAnswer, h, Option.map_none]

theorem openBuffer_ok {s : State} {base : Nat} (h : s.env.alloc = some base) :
    s.openBuffer = State.openDevice
      ((s.emit (.alloc (capBytes s.params) s.allocAnswer)).holdBuffer (bufferAddress s base)) := by
  simp only [State.openBuffer, State.allocAnswer, h, Option.map_some]
  rfl

theorem openDevice_err {s : State} (h : s.env.devReg = none) :
    s.openDevice = (s.emit (.devReg (deviceFraming s.params) s.env.devReg)).initError .deviceRegFailed := by
  simp only [State.openDevice, h]

/-- The last call answered Ok completes `open` (R147, R148). -/
theorem openDevice_ok {s : State} {handle : Nat} (h : s.env.devReg = some handle) : s.openDevice =
    { (s.emit (.devReg (deviceFraming s.params) s.env.devReg)).emit (.rsp 0 0 0) with
      deviceHandle := some handle, mode := .ready, seq := .idle, rsp := response 0 0 0 } := by
  simp only [State.openDevice, h]
  rfl

/-- `open` with the bus initialized, after `events` (R145). -/
def busOpened (s : State) (b : Bank) (bit ctx : Nat) (events : List Event) : State :=
  { openedTo s b bit events with busContext := some ctx }

/-- `open` with the TransferBuffer at hand too, after `events` (R146). -/
def bufferOpened (s : State) (b : Bank) (bit ctx base : Nat) (events : List Event) : State :=
  { busOpened s b bit ctx events with
    bufBase := bufferAddress s base
    bufAllocated := true
    buf := (List.range (2 * s.params.cap.val)).map Config.freshBufByte }

section Calls

variable {s : State} {b : Bank} {bit ctx base : Nat}

theorem openedTo_emit (events : List Event) (e : Event) :
    (openedTo s b bit events).emit e = openedTo s b bit (events ++ [e]) := by
  simp only [openedTo, State.emit, List.append_assoc]

theorem busOpened_emit (events : List Event) (e : Event) :
    (busOpened s b bit ctx events).emit e = busOpened s b bit ctx (events ++ [e]) := by
  simp only [busOpened, openedTo, State.emit, List.append_assoc]

theorem bufferOpened_emit (events : List Event) (e : Event) :
    (bufferOpened s b bit ctx base events).emit e = bufferOpened s b bit ctx base (events ++ [e]) := by
  simp only [bufferOpened, busOpened, openedTo, State.emit, List.append_assoc]

theorem execOpen_busInitFailed (hpin : GoodPin s b bit) (hbus : s.env.busInit = none) :
    execOpen s = .next ((openedTo s b bit [busEvent s]).initError .busInitFailed) := by
  rw [execOpen_goodPin hpin, openBus_err (s := openedTo s b bit []) hbus, openedTo_emit]
  rfl

theorem execOpen_busOpened (hpin : GoodPin s b bit) (hbus : s.env.busInit = some ctx) :
    execOpen s = .next (busOpened s b bit ctx [busEvent s]).openBuffer := by
  rw [execOpen_goodPin hpin, openBus_ok (s := openedTo s b bit []) hbus, openedTo_emit]
  rfl

theorem execOpen_allocFailed (hpin : GoodPin s b bit) (hbus : s.env.busInit = some ctx)
    (halloc : s.env.alloc = none) :
    execOpen s = .next ((busOpened s b bit ctx [busEvent s, allocEvent s]).initError .allocFailed) := by
  rw [execOpen_busOpened hpin hbus, openBuffer_err (s := busOpened s b bit ctx [busEvent s]) halloc, busOpened_emit]
  rfl

theorem execOpen_bufferOpened (hpin : GoodPin s b bit) (hbus : s.env.busInit = some ctx)
    (halloc : s.env.alloc = some base) :
    execOpen s = .next (bufferOpened s b bit ctx base [busEvent s, allocEvent s]).openDevice := by
  rw [execOpen_busOpened hpin hbus, openBuffer_ok (s := busOpened s b bit ctx [busEvent s]) halloc,
    busOpened_emit, State.holdBuffer, freshBuf_eq_map]
  rfl

end Calls

/-- Settles O17: no call fails, and the last one makes the engine READY. -/
theorem openBindsAndBecomesReady : Obligations.OpenBindsAndBecomesReady := by
  unfold Obligations.OpenBindsAndBecomesReady
  intro s b bit ctx base handle hpin hbus halloc hdevice
  rw [exec, execOpen_bufferOpened hpin hbus halloc, openDevice_ok (s := bufferOpened s b bit ctx base _) hdevice,
    bufferOpened_emit, bufferOpened_emit]
  rfl

/-- Settles O18: each call's Err ends `open` where the calls before it have brought it. -/
theorem openStopsAtTheFirstFailedCall : Obligations.OpenStopsAtTheFirstFailedCall := by
  unfold Obligations.OpenStopsAtTheFirstFailedCall
  intro s b bit hpin
  refine ⟨fun hbus => ?_, fun ctx hbus halloc => ?_, fun ctx base hbus halloc hdevice => ?_⟩
  · rw [exec, execOpen_busInitFailed hpin hbus, initError_eq, openedTo_emit]
    rfl
  · rw [exec, execOpen_allocFailed hpin hbus halloc, initError_eq, busOpened_emit]
    rfl
  · rw [exec, execOpen_bufferOpened hpin hbus halloc, openDevice_err (s := bufferOpened s b bit ctx base _) hdevice,
      initError_eq, bufferOpened_emit, bufferOpened_emit]
    rfl

end Sys2Proof.Machine
end

section
/-! PROOFS. `writeCommand16` with the command byte in its high half (O22). -/

namespace Sys2Proof.Machine

/-- A byte shifted into the high half of a word loses no bit, so the wide form has the address of the byte form
(R170, R171). -/
theorem cmdAddr16_shifted (c : Byte) : cmdAddr16 (c.setWidth 16 <<< 8) = cmdAddr8 c := by
  have := c.isLt
  apply BitVec.eq_of_toNat_eq
  simp only [cmdAddr16, cmdAddr8, BitVec.toNat_setWidth, BitVec.toNat_shiftLeft, Nat.shiftLeft_eq]
  omega

/-- Settles O22: the two requests are one single-shot procedure on one address. -/
theorem shiftedWideCommandIsTheByteCommand : Obligations.ShiftedWideCommandIsTheByteCommand := by
  unfold Obligations.ShiftedWideCommandIsTheByteCommand
  intro c s
  calc exec (.writeCommand16 (c.setWidth 16 <<< 8)) s
    _ = singleShot opcCmd (cmdAddr16 (c.setWidth 16 <<< 8)) [] s := rfl
    _ = singleShot opcCmd (cmdAddr8 c) [] s := by rw [cmdAddr16_shifted]
    _ = exec (.writeCommand c) s := rfl

end Sys2Proof.Machine
end

section
/-! PROOFS. Streamed requests that send nothing: an empty one (O23), and one whose source lies over the
TransferBuffer (O25). -/

namespace Sys2Proof.Machine

open Sys2Proof.Statements

section Empty

variable {s : State} (ready : s.mode = .ready)

include ready

theorem exec_writeRepeated_empty (value : Half) : exec (.writeRepeated value 0) s = .next (s.respond .ok 0 0) := by
  simp only [exec, execWriteRepeated, whenReady_ready ready, if_true]

theorem exec_writePixelStream_empty (ptr : Word) : exec (.writePixelStream ptr 0) s = .next (s.respond .ok 0 0) := by
  simp only [exec, execWritePixelStream, whenReady_ready ready, if_true]

theorem exec_writeByteStream_empty (ptr : Word) : exec (.writeByteStream ptr 0) s = .next (s.respond .ok 0 0) := by
  simp only [exec, execWriteByteStream, whenReady_ready ready, if_true]

theorem exec_writePattern_empty (ptr : Word) {len reps : Word} (h : reps = 0 ∨ len = 0) :
    exec (.writePattern ptr len reps) s = .next (s.respond .ok 0 reps) := by
  simp only [exec, execWritePattern, whenReady_ready ready, if_pos h]

end Empty

/-- Settles O23: the count is looked at before anything else, the pointer never. -/
theorem emptyStreamOnlyResponds : Obligations.EmptyStreamOnlyResponds := by
  unfold Obligations.EmptyStreamOnlyResponds
  intro s value ptr n m ready
  refine ⟨fun i hi => ?_, fun hempty => exec_writePattern_empty ready ptr hempty.symm⟩
  have hresponds : exec i s = .next (s.respond .ok 0 0) := by
    simp only [List.mem_cons, List.not_mem_nil, or_false] at hi
    rcases hi with rfl | rfl | rfl
    · exact exec_writeRepeated_empty ready value
    · exact exec_writePixelStream_empty ready ptr
    · exact exec_writeByteStream_empty ready ptr
  exact hresponds

/-! ### A source over the TransferBuffer (R206) -/

theorem sourceFault_alias {s : State} {aligned : Bool} {ptr : Word} {len : Nat} (hlen : len ≠ 0)
    (heven : aligned = true → ptr.toNat % 2 = 0) (hlow : ptr.toNat < s.bufBase + capBytes s.params)
    (hhigh : s.bufBase < ptr.toNat + len) : s.sourceFault aligned ptr len = some .srcAlias := by
  rcases sourceFault_cases s aligned ptr len hlen with ⟨ha, hodd, -⟩ | ⟨-, -, -, halias⟩ | ⟨-, hadmitted, -⟩
  · have := heven ha; omega
  · exact halias
  · omega

section Faulted

variable {s : State} {ptr n : Word} {c : FaultCode} (ready : s.mode = .ready) (hn : n ≠ 0)

include ready hn

theorem exec_writePixelStream_faulted (h : s.sourceFault true ptr (2 * n.toNat) = some c) :
    exec (.writePixelStream ptr n) s = .next (s.raiseFault c) := by
  simp only [exec, execWritePixelStream, whenReady_ready ready, if_neg hn, h]

theorem exec_writeByteStream_faulted (h : s.sourceFault false ptr n.toNat = some c) :
    exec (.writeByteStream ptr n) s = .next (s.raiseFault c) := by
  simp only [exec, execWriteByteStream, whenReady_ready ready, if_neg hn, h]

theorem exec_writePattern_faulted {m : Word} (hm : m ≠ 0) (h : s.sourceFault false ptr n.toNat = some c) :
    exec (.writePattern ptr n m) s = .next (s.raiseFault c) := by
  simp only [exec, execWritePattern, whenReady_ready ready, if_neg (not_or.mpr ⟨hm, hn⟩), h]

end Faulted

/-- Settles O25: the range is not empty, so its overlap with the buffer is looked at; alignment is the pixel
stream's alone. -/
theorem sourceOverTheBufferTakesAlias : Obligations.SourceOverTheBufferTakesAlias := by
  unfold Obligations.SourceOverTheBufferTakesAlias
  intro s ptr n m ready hn
  have hpos : n.toNat ≠ 0 := BitVec.toNat_ne.mp hn
  refine ⟨fun heven hlow hhigh => ?_, fun hlow hhigh => ?_, fun hm hlow hhigh => ?_⟩
  · exact exec_writePixelStream_faulted ready hn (sourceFault_alias (by omega) (fun _ => heven) hlow hhigh)
  · exact exec_writeByteStream_faulted ready hn (sourceFault_alias hpos nofun hlow hhigh)
  · exact exec_writePattern_faulted ready hn hm (sourceFault_alias hpos nofun hlow hhigh)

end Sys2Proof.Machine
end

section
/-! PROOFS. `writePattern` with an Err in one of its repetitions (O32). -/

namespace Sys2Proof.Machine

open Sys2Proof.Statements

section Pattern

variable {s : State} {ptr len : Word} {bytes : List Byte} {last m j n : Nat} {rest : List SubmitAnswer}

/-- The bracket of a byte stream whose submission `j` answers Err: chip select is deasserted all the same. -/
theorem bracket_bytes_failed (hj : j < ceilDiv len.toNat (capBytes s.params)) (hle : bytes.length ≤ len.toNat)
    (hread : min len.toNat ((j + 1) * capBytes s.params) ≤ bytes.length) (hbytes : SourceBytes s ptr bytes)
    (hdraws : s.env.submits = oks j ++ .err n :: rest) :
    bracket (.bytes ptr len) s =
      .err ((sourceStreaming .byte s ptr len bytes).failed s j n rest).deassertSelect := by
  have hrun := byteStreaming_isRunOf s ptr len bytes
  have hfills := Streaming.fills_through (byteStreaming_supplied hle hbytes)
    (mul_lt_of_lt_ceilDiv (Fill.byte.capElems_pos s.params) hj) hread
  rw [Streaming.IsRunOf, hdraws, Streaming.streamLoop_failed hfills] at hrun
  exact bracket_err hrun

/-- A pattern of `chunks` chunks, begun in `s`, whose chunk `j` of repetition `m` answers Err, after the bracket's
end: chunk `j` failed in a bracket of its own, but for `repDone` and the events of the repetitions before. -/
def patternFailed (s : State) (ptr len : Word) (bytes : List Byte) (chunks m j n : Nat)
    (rest : List SubmitAnswer) : State :=
  let failed := (sourceStreaming .byte s ptr len bytes).failed s j n rest
  { failed with
    cs := .deasserted
    plan := { failed.plan with repDone := BitVec.ofNat 32 m }
    platform := toggledPlatform s
    trace := s.trace ++ (List.replicate m (patternEvents s bytes chunks)).flatten ++ selectEvents s
      ++ okEvents (capBytes s.params) bytes j ++ [.txn (recordAt (capBytes s.params) bytes j) (some (.err n))]
      ++ deselectEvents s }

/-- The chunk written last leaves the buffer as if the repetitions before it had not been. -/
theorem bufferThrough_patternSent_restart (hlast : m ≠ 0 → last * capBytes s.params ≤ bytes.length)
    (hj : j * capBytes s.params ≤ bytes.length) (draws : List SubmitAnswer) :
    bufferThrough (patternSent s ptr len bytes (last + 1) m draws).buf (capBytes s.params) bytes (j + 1) =
      bufferThrough s.buf (capBytes s.params) bytes (j + 1) := by
  cases m with
  | zero => rfl
  | succ m => exact bufferThrough_restart (hlast (Nat.succ_ne_zero m)) hj

theorem failed_patternSent (hlast : m ≠ 0 → last * capBytes s.params ≤ bytes.length)
    (hj : j * capBytes s.params ≤ bytes.length) (draws : List SubmitAnswer) :
    ((sourceStreaming .byte (patternSent s ptr len bytes (last + 1) m draws) ptr len bytes).failed
        (patternSent s ptr len bytes (last + 1) m draws) j n rest).deassertSelect =
      patternFailed s ptr len bytes (last + 1) m j n rest := by
  rw [deassertSelect_eq]
  calc _ = { patternFailed s ptr len bytes (last + 1) m j n rest with
        platform := toggledPlatform (patternSent s ptr len bytes (last + 1) m draws)
        buf := bufferThrough (patternSent s ptr len bytes (last + 1) m draws).buf (capBytes s.params) bytes (j + 1)
        trace := (patternSent s ptr len bytes (last + 1) m draws).trace ++ selectEvents s
          ++ okEvents (capBytes s.params) bytes j ++ [.txn (recordAt (capBytes s.params) bytes j) (some (.err n))]
          ++ deselectEvents s } := by cases m <;> rfl
    _ = patternFailed s ptr len bytes (last + 1) m j n rest := by
      rw [patternSent_trace, toggledPlatform_patternSent, bufferThrough_patternSent_restart hlast hj]
      rfl

/-- Repetition `m` is reached, and ends with its submission `j`. -/
theorem patternLoop_failed (hread : bytes.length = patternThrough s len m j) (hbytes : SourceBytes s ptr bytes)
    (hj : j < ceilDiv len.toNat (capBytes s.params)) (hn : ceilDiv len.toNat (capBytes s.params) = last + 1)
    (left : Nat) :
    patternLoop ptr len (left + 1 + m)
        (patternSent s ptr len bytes (last + 1) 0 (oks (m * (last + 1)) ++ (oks j ++ .err n :: rest))) =
      .err (patternFailed s ptr len bytes (last + 1) m j n rest) := by
  obtain ⟨hle, hthrough, hwhole⟩ := patternThrough_bounds s len m j
  rw [← hread] at hle hthrough hwhole
  have hbracket :
      bracket (.bytes ptr len) (patternSent s ptr len bytes (last + 1) m (oks j ++ .err n :: rest)) =
        .err ((sourceStreaming .byte (patternSent s ptr len bytes (last + 1) m (oks j ++ .err n :: rest)) ptr len
          bytes).failed (patternSent s ptr len bytes (last + 1) m (oks j ++ .err n :: rest)) j n
            rest).deassertSelect := by
    cases m <;> exact bracket_bytes_failed hj hle hthrough hbytes rfl
  rw [patternLoop_reaches hwhole hbytes hn, patternLoop, hbracket,
    failed_patternSent (fun hne => last_chunk_le (hwhole hne) hn) (chunk_start_le hj hthrough)]

end Pattern

/-- Settles O32: the repetitions before it answered Ok, repetition `m` is a bracket of the byte stream that ends
with its submission `j`, and no repetition follows. -/
theorem patternStopsAtTheFirstError : Obligations.PatternStopsAtTheFirstError := by
  unfold Obligations.PatternStopsAtTheFirstError
  intro s ptr len reps bytes m j n rest ready hlen hm hsource hread hbytes hj hdraws
  obtain ⟨last, hlast⟩ := Nat.exists_eq_succ_of_ne_zero (Nat.ne_zero_of_lt hj)
  obtain ⟨left, hleft⟩ : ∃ left, reps.toNat = left + 1 + m := ⟨reps.toNat - m - 1, by omega⟩
  have hreps : reps ≠ 0 := by
    rintro rfl
    exact absurd hm (Nat.not_lt_zero _)
  have hstart : { s with plan := { s.plan with repDone := 0 } } =
      patternSent s ptr len bytes (last + 1) 0 (oks (m * (last + 1)) ++ (oks j ++ .err n :: rest)) := by
    rw [← oks_add_append, ← Nat.succ_eq_add_one, ← hlast, ← hdraws]
    rfl
  have hexec := exec_writePattern ready hreps hlen hsource
  rw [hstart, hleft, patternLoop_failed hread hbytes hj hlast] at hexec
  obtain ⟨-, hthrough, -⟩ := patternThrough_bounds s len m j
  rw [← hread] at hthrough
  have hremaining := (sourceStreaming .byte s ptr len bytes).remaining_toNat s j []
  have hchunk := ((sourceStreaming .byte s ptr len bytes).chunk_toNat s j).trans
    (congrArg (min · (capBytes s.params)) hremaining.symm)
  rw [hlast]
  exact ⟨_, hexec, rfl, rfl, rfl, rfl, rfl, rfl, hremaining, rfl, congrArg (ptr.toNat + ·) (Nat.mul_one _),
    hchunk, rfl, rfl, bufferAfter_of_bufferThrough (chunk_start_le hj hthrough) rfl, rfl, rfl, rfl, rfl, rfl,
    by constructor <;> intros <;> rfl⟩

end Sys2Proof.Machine
end

section
/-! PROOFS. A request never sees the TransferBuffer's old bytes (O35): run on any other buffer, each part of its
meaning ends as before but for the buffer. A chunk takes from the buffer only what its fill has just written, or
for `writeRepeated` what the one fill before the loop wrote. -/

namespace Sys2Proof.Machine

/-! ### Other buffer contents -/

/-- The state with other buffer contents. -/
def State.withBuf (s : State) (buf : List Byte) : State := { s with buf := buf }

/-- The run that ends as `r` does, but for the buffer. -/
def Run.withBuf (r : Run) (buf : List Byte) : Run :=
  match r with
  | .ok s => .ok (s.withBuf buf)
  | .err s => .err (s.withBuf buf)
  | .blocked s => .blocked (s.withBuf buf)

theorem submit_withBuf (s : State) (buf : List Byte) : (s.withBuf buf).submit = s.submit.withBuf buf := by
  rcases submit_cases s with ⟨rest, hdraws, h⟩ | ⟨n, rest, hdraws, h⟩ | ⟨hdraws, h⟩
  · exact (submit_ok (s := s.withBuf buf) hdraws).trans (congrArg (·.withBuf buf) h).symm
  · exact (submit_err (s := s.withBuf buf) hdraws).trans (congrArg (·.withBuf buf) h).symm
  · exact (submit_blocked (s := s.withBuf buf) hdraws).trans (congrArg (·.withBuf buf) h).symm

/-- A record holds the buffer's first bytes only. -/
theorem loadChunk_withBuf {f : Fill} {s : State} {buf : List Byte} {n : Nat}
    (h : buf.take (n * f.elemBytes) = s.buf.take (n * f.elemBytes)) :
    (s.withBuf buf).loadChunk f n = (s.loadChunk f n).withBuf buf := by
  have hbytes : (s.withBuf buf).bufB (n * f.elemBytes) = s.bufB (n * f.elemBytes) := h
  rw [State.loadChunk, hbytes]
  rfl

/-! ### Fills -/

theorem sourceBytes_withBuf (f : Fill) (s : State) (buf : List Byte) (n : Nat) :
    f.sourceBytes (s.withBuf buf) n = f.sourceBytes s n := by cases f <;> rfl

theorem fromSource_withBuf (f : Fill) (s : State) (buf : List Byte) (n : Nat) :
    Fill.fromSource f (s.withBuf buf) n = (Fill.fromSource f s n).withBuf (overwrite buf (f.sourceBytes s n)) := by
  have hsame := sourceBytes_withBuf f s buf n
  by_cases h : (f.sourceBytes s n).length = n * f.elemBytes
  · rw [fromSource_ok h, fromSource_ok (by rw [hsame, h]), hsame]
    rfl
  · rw [fromSource_blocked h, fromSource_blocked (by rwa [hsame]), hsame]
    rfl

/-- A source fill that ends leaves its whole chunk at the buffer's front (R221, R231). -/
theorem fromSource_buf_take {f : Fill} {s t : State} {n : Nat} (h : Fill.fromSource f s n = .ok t) :
    t.buf.take (n * f.elemBytes) = f.sourceBytes s n := by
  by_cases hlen : (f.sourceBytes s n).length = n * f.elemBytes
  · cases (fromSource_ok hlen).symm.trans h
    rw [← hlen]
    exact List.take_left
  · cases (fromSource_blocked hlen).symm.trans h

/-- A fill of `n` elements on another buffer, the same in these elements where the fill writes none: it ends
alike, and with the same record to submit. -/
theorem fill_withBuf {f : Fill} {s : State} {buf : List Byte} {n : Nat}
    (h : f = .reuse → buf.take (n * f.elemBytes) = s.buf.take (n * f.elemBytes)) :
    ∃ buf', f.run (s.withBuf buf) n = (f.run s n).withBuf buf' ∧ (f = .reuse → buf' = buf) ∧
      ∀ t, f.run s n = .ok t → (t.withBuf buf').loadChunk f n = (t.loadChunk f n).withBuf buf' := by
  by_cases hf : f = .reuse
  · subst hf
    refine ⟨buf, rfl, fun _ => rfl, fun t ht => ?_⟩
    cases ht
    exact loadChunk_withBuf (h rfl)
  · rw [fill_eq_fromSource hf, fill_eq_fromSource hf]
    have hrun := fromSource_withBuf f s buf n
    refine ⟨_, hrun, fun hreuse => absurd hreuse hf, fun t ht => loadChunk_withBuf ?_⟩
    rw [ht] at hrun
    exact (fromSource_buf_take hrun).trans ((sourceBytes_withBuf f s buf n).trans (fromSource_buf_take ht).symm)

/-! ### The chunk loop -/

/-- Where the loop fills nothing, `buf` holds the elements that a chunk may still take (R210, R214). -/
def HoldsFilled (f : Fill) (s : State) (buf : List Byte) : Prop :=
  f = .reuse → ∀ n ≤ min s.plan.remaining.toNat (f.capElems s.params),
    buf.take (n * f.elemBytes) = s.buf.take (n * f.elemBytes)

theorem HoldsFilled.chunk {f : Fill} {s : State} {buf : List Byte} (h : HoldsFilled f s buf)
    (hremaining : s.plan.remaining ≠ 0) : f = .reuse →
      buf.take ((s.setChunk f).plan.chunk.toNat * f.elemBytes) =
        s.buf.take ((s.setChunk f).plan.chunk.toNat * f.elemBytes) :=
  fun hf => h hf _ (setChunk_bounds f s hremaining).1.le

theorem submit_ok_keeps {s t : State} (h : s.submit = .ok t) :
    t.params = s.params ∧ t.plan = s.plan ∧ t.buf = s.buf := by
  rcases submit_cases s with ⟨rest, -, hs⟩ | ⟨n, rest, -, hs⟩ | ⟨-, hs⟩ <;> cases hs.symm.trans h
  exact ⟨rfl, rfl, rfl⟩

/-- After an iteration answered Ok less remains, and `writeRepeated` has not touched the buffer. -/
theorem HoldsFilled.chunkDone {f : Fill} {s filled answered : State} {buf buf' : List Byte}
    (h : HoldsFilled f s buf) (hbuf : f = .reuse → buf' = buf) (hremaining : s.plan.remaining ≠ 0)
    (hf : f.run (s.setChunk f) (s.setChunk f).plan.chunk.toNat = .ok filled)
    (hs : (filled.loadChunk f filled.plan.chunk.toNat).submit = .ok answered) :
    HoldsFilled f answered.chunkDone buf' := by
  intro hreuse n hn
  subst hreuse
  cases hf
  obtain ⟨hparams, hplan, hsame⟩ := submit_ok_keeps hs
  obtain ⟨-, -, hle⟩ := setChunk_bounds .reuse s hremaining
  have hless : answered.chunkDone.plan.remaining.toNat ≤ s.plan.remaining.toNat := by
    have hsub : answered.chunkDone.plan.remaining =
        s.plan.remaining - (s.setChunk .reuse).plan.chunk := by
      simp only [State.chunkDone_plan, hplan]
      rfl
    rw [hsub, BitVec.toNat_sub_of_le hle]
    exact Nat.sub_le _ _
  have hcap : Fill.reuse.capElems answered.chunkDone.params = Fill.reuse.capElems s.params :=
    congrArg Fill.reuse.capElems hparams
  have hbuffer : answered.chunkDone.buf = s.buf := hsame
  rw [hbuf rfl, hbuffer]
  exact h rfl n (by omega)

theorem streamLoop_withBuf (f : Fill) (bound : Nat) (s : State) (buf : List Byte) (h : HoldsFilled f s buf) :
    ∃ buf', streamLoop f bound (s.withBuf buf) = (streamLoop f bound s).withBuf buf' := by
  induction bound generalizing s buf with
  | zero => exact ⟨buf, rfl⟩
  | succ bound ih =>
    by_cases hz : s.plan.remaining = 0
    · exact ⟨buf, by rw [streamLoop_zero f _ s hz, streamLoop_zero f _ (s.withBuf buf) hz]; rfl⟩
    obtain ⟨buf', hfill, hreuse, hload⟩ := fill_withBuf (s := s.setChunk f) (h.chunk hz)
    cases hf : f.run (s.setChunk f) (s.setChunk f).plan.chunk.toNat with
    | err filled => exact absurd hf (fill_ne_err f _ _ _)
    | blocked stuck =>
      rw [hf] at hfill
      exact ⟨buf', by rw [streamLoop_stuck hz hf, streamLoop_stuck (s := s.withBuf buf) hz hfill]; rfl⟩
    | ok filled =>
      have hchunk : filled.plan.chunk = (s.setChunk f).plan.chunk := by
        obtain ⟨-, a, hplan⟩ := fill_framing_plan f (s.setChunk f) (s.setChunk f).plan.chunk.toNat
        rw [hf] at hplan
        exact (congrArg Planner.chunk hplan :)
      have hsubmit : ((filled.withBuf buf').loadChunk f (filled.withBuf buf').plan.chunk.toNat).submit =
          (filled.loadChunk f filled.plan.chunk.toNat).submit.withBuf buf' := by
        have hrecord := hload filled hf
        rw [← hchunk] at hrecord
        exact (congrArg State.submit hrecord).trans (submit_withBuf _ buf')
      rw [hf] at hfill
      cases hs : (filled.loadChunk f filled.plan.chunk.toNat).submit with
      | ok answered =>
        rw [hs] at hsubmit
        rw [streamLoop_ok hz hf hs, streamLoop_ok (s := s.withBuf buf) hz hfill hsubmit]
        exact ih answered.chunkDone buf' (h.chunkDone hreuse hz hf hs)
      | err answered =>
        rw [hs] at hsubmit
        exact ⟨buf', by rw [streamLoop_err hz hf hs, streamLoop_err (s := s.withBuf buf) hz hfill hsubmit]; rfl⟩
      | blocked waiting =>
        rw [hs] at hsubmit
        exact ⟨buf', by rw [streamLoop_hang hz hf hs, streamLoop_hang (s := s.withBuf buf) hz hfill hsubmit]; rfl⟩

theorem stream_withBuf {f : Fill} {total : Word} {s : State} {buf : List Byte}
    (h : HoldsFilled f { s with plan := { s.plan with remaining := total } } buf) :
    ∃ buf', stream f total (s.withBuf buf) = (stream f total s).withBuf buf' :=
  streamLoop_withBuf f total.toNat _ buf h

/-! ### Bodies, brackets and repetitions -/

/-- The one fill of `writeRepeated` writes every element that a chunk takes (R210, R211). -/
theorem holdsFilled_fillRepeated (s : State) (buf : List Byte) (value : Half) (count : Word) :
    HoldsFilled .reuse { s.fillRepeated value count with
        plan := { (s.fillRepeated value count).plan with remaining := count } }
      ((s.withBuf buf).fillRepeated value count).buf := by
  intro _ n hn
  have hlen : n * Fill.reuse.elemBytes ≤
      (wordsLE (List.replicate (min count.toNat (capWords s.params)) (normalize value))).length := by
    rw [wordsLE_length, List.length_replicate, Nat.mul_comm]
    exact Nat.mul_le_mul_left 2 hn
  exact (overwrite_take _ _ _ hlen).trans (overwrite_take _ _ _ hlen).symm

theorem body_withBuf (b : Body) (s : State) (buf : List Byte) :
    ∃ buf', b.run (s.withBuf buf) = (b.run s).withBuf buf' := by
  cases b with
  | single cv av payload =>
    have hsubmit := submit_withBuf { s with txn := framedTxn cv av payload } buf
    refine ⟨buf, ?_⟩
    cases hs : State.submit { s with txn := framedTxn cv av payload } with rw [hs] at hsubmit
    | ok answered => rw [body_single_ok hs, body_single_ok (s := s.withBuf buf) hsubmit]; rfl
    | err answered => rw [body_single_err hs, body_single_err (s := s.withBuf buf) hsubmit]; rfl
    | blocked waiting => rw [body_single_blocked hs, body_single_blocked (s := s.withBuf buf) hsubmit]; rfl
  | repeated value count => exact stream_withBuf (holdsFilled_fillRepeated s buf value count)
  | pixels ptr count => exact stream_withBuf (s := s.setSource ptr) (buf := buf) nofun
  | bytes ptr count => exact stream_withBuf (s := s.setSource ptr) (buf := buf) nofun

theorem bracket_withBuf (b : Body) (s : State) (buf : List Byte) :
    ∃ buf', bracket b (s.withBuf buf) = (bracket b s).withBuf buf' := by
  obtain ⟨buf', hbody⟩ := body_withBuf b s.enterBracket buf
  refine ⟨buf', ?_⟩
  cases hs : b.run s.enterBracket with rw [hs] at hbody
  | ok ended => rw [bracket_ok hs, bracket_ok (s := s.withBuf buf) hbody]; rfl
  | err ended => rw [bracket_err hs, bracket_err (s := s.withBuf buf) hbody]; rfl
  | blocked waiting => rw [bracket_blocked hs, bracket_blocked (s := s.withBuf buf) hbody]; rfl

theorem patternLoop_withBuf (ptr len : Word) (left : Nat) (s : State) (buf : List Byte) :
    ∃ buf', patternLoop ptr len left (s.withBuf buf) = (patternLoop ptr len left s).withBuf buf' := by
  induction left generalizing s buf with
  | zero => exact ⟨buf, rfl⟩
  | succ left ih =>
    obtain ⟨buf', hbracket⟩ := bracket_withBuf (.bytes ptr len) s buf
    cases hs : bracket (.bytes ptr len) s with rw [hs] at hbracket
    | ok ended =>
      rw [patternLoop_succ hs, patternLoop_succ (s := s.withBuf buf) hbracket]
      exact ih ended.repetitionDone buf'
    | err ended => exact ⟨buf', by simp only [patternLoop, hs, hbracket]; rfl⟩
    | blocked waiting => exact ⟨buf', by simp only [patternLoop, hs, hbracket]; rfl⟩

theorem finishWrite_withBuf (r : Run) (buf : List Byte) :
    finishWrite (r.withBuf buf) = (finishWrite r).withBuf buf := by cases r <;> rfl

theorem finishPattern_withBuf (r : Run) (buf : List Byte) :
    finishPattern (r.withBuf buf) = (finishPattern r).withBuf buf := by cases r <;> rfl

/-! ### Requests -/

/-- On every state and any other buffer contents `run` ends alike, but for the buffer. -/
def BlindToBuf (run : State → State) : Prop := ∀ s buf, ∃ buf', run (s.withBuf buf) = (run s).withBuf buf'

theorem blind_bracket (b : Body) : BlindToBuf fun s => finishWrite (bracket b s) := fun s buf => by
  obtain ⟨buf', h⟩ := bracket_withBuf b s buf
  exact ⟨buf', (congrArg finishWrite h).trans (finishWrite_withBuf _ _)⟩

theorem blind_pattern (ptr len : Word) (left : Nat) : BlindToBuf fun s =>
    finishPattern (patternLoop ptr len left { s with plan := { s.plan with repDone := 0 } }) := fun s buf => by
  obtain ⟨buf', h⟩ := patternLoop_withBuf ptr len left { s with plan := { s.plan with repDone := 0 } } buf
  exact ⟨buf', (congrArg finishPattern h).trans (finishPattern_withBuf _ _)⟩

/-- The source checks look at the buffer's place only (R206). -/
theorem BlindToBuf.sourceChecked {aligned : Bool} {ptr : Word} {len : Nat} {run : State → State}
    (h : BlindToBuf run) : BlindToBuf fun s =>
      match s.sourceFault aligned ptr len with
      | some c => s.raiseFault c
      | none => run s := fun s buf => by
  have hsame : (s.withBuf buf).sourceFault aligned ptr len = s.sourceFault aligned ptr len := rfl
  cases hfault : s.sourceFault aligned ptr len with
  | some c => exact ⟨buf, by simp only [hsame, hfault]; rfl⟩
  | none => simpa only [hsame, hfault] using h s buf

/-- A request that sends nothing only responds (R204). -/
theorem BlindToBuf.unlessEmpty {empty : Prop} [Decidable empty] {i1 : Word} {run : State → State}
    (h : BlindToBuf run) : BlindToBuf fun s => if empty then s.respond .ok 0 i1 else run s := fun s buf => by
  by_cases hempty : empty
  · exact ⟨buf, by simp only [if_pos hempty]; rfl⟩
  · simpa only [if_neg hempty] using h s buf

theorem whenReady_withBuf {run : State → State} (h : BlindToBuf run) (s : State) (buf : List Byte) :
    ∃ t buf', whenReady s run = .next t ∧ whenReady (s.withBuf buf) run = .next (t.withBuf buf') := by
  by_cases hm : s.mode = .ready
  · obtain ⟨buf', hrun⟩ := h s buf
    exact ⟨_, buf', whenReady_ready hm run, (whenReady_ready (s := s.withBuf buf) hm run).trans (congrArg _ hrun)⟩
  · exact ⟨_, buf, whenReady_notReady hm run, whenReady_notReady (s := s.withBuf buf) hm run⟩

theorem singleShot_withBuf (cv : Byte) (av : BitVec 24) (p : List Byte) (s : State) (buf : List Byte) :
    ∃ t buf', singleShot cv av p s = .next t ∧ singleShot cv av p (s.withBuf buf) = .next (t.withBuf buf') :=
  whenReady_withBuf (blind_bracket (.single cv av p)) s buf

/-! ### `open` -/

theorem openDevice_withBuf (s : State) (buf : List Byte) :
    (s.withBuf buf).openDevice = s.openDevice.withBuf buf := by
  cases h : s.env.devReg with
  | none => rw [openDevice_err h, openDevice_err (s := s.withBuf buf) h]; rfl
  | some handle => rw [openDevice_ok h, openDevice_ok (s := s.withBuf buf) h]; rfl

/-- The allocated buffer replaces the one before it (R146). -/
theorem blind_openBuffer : BlindToBuf State.openBuffer := fun s buf => by
  cases h : s.env.alloc with
  | none => exact ⟨buf, by rw [openBuffer_err h, openBuffer_err (s := s.withBuf buf) h]; rfl⟩
  | some base => exact ⟨s.openBuffer.buf, by rw [openBuffer_ok h, openBuffer_ok (s := s.withBuf buf) h]; rfl⟩

theorem blind_openBus : BlindToBuf State.openBus := fun s buf => by
  cases h : s.env.busInit with
  | none => exact ⟨buf, by rw [openBus_err h, openBus_err (s := s.withBuf buf) h]; rfl⟩
  | some ctx =>
    rw [openBus_ok h, openBus_ok (s := s.withBuf buf) h]
    exact blind_openBuffer { s.emit (.busInit s.busInitArgs s.env.busInit) with busContext := some ctx } buf

theorem execOpen_pinAccepted {s : State} (hm : s.mode = .uninit) (hpos : 0 ≤ s.cfg.cs.toInt)
    (hpin : ¬ (s.params.numPins ≤ s.cfg.cs.toNat ∨ 32 ≤ pinBit s.params s.cfg.cs.toNat)) :
    execOpen s = .next s.bindPins.configureCsPin.resolveTransferConfig.openBus := by
  simp only [execOpen, if_neg (not_not.mpr hm), if_neg (negative8_ne_true hpos), if_neg hpin]

theorem execOpen_withBuf (s : State) (buf : List Byte) :
    ∃ t buf', execOpen s = .next t ∧ execOpen (s.withBuf buf) = .next (t.withBuf buf') := by
  by_cases hm : s.mode = .uninit
  case neg => exact ⟨_, buf, execOpen_reopen hm, execOpen_reopen (s := s.withBuf buf) hm⟩
  by_cases hneg : s.cfg.cs.toInt < 0
  · exact ⟨_, buf, execOpen_pinInvalid hm hneg, execOpen_pinInvalid (s := s.withBuf buf) hm hneg⟩
  have hpos : 0 ≤ s.cfg.cs.toInt := not_lt.mp hneg
  by_cases hpin : s.params.numPins ≤ s.cfg.cs.toNat ∨ 32 ≤ pinBit s.params s.cfg.cs.toNat
  · exact ⟨_, buf, execOpen_badPin hm hpos hpin, execOpen_badPin (s := s.withBuf buf) hm hpos hpin⟩
  · obtain ⟨buf', hbus⟩ := blind_openBus s.bindPins.configureCsPin.resolveTransferConfig buf
    exact ⟨_, buf', execOpen_pinAccepted hm hpos hpin,
      (execOpen_pinAccepted (s := s.withBuf buf) hm hpos hpin).trans (congrArg _ hbus)⟩

/-! ### Every request (O35) -/

theorem exec_withBuf (i : Instr) (s : State) (buf : List Byte) :
    ∃ t buf', exec i s = .next t ∧ exec i (s.withBuf buf) = .next (t.withBuf buf') := by
  cases i with
  | openEngine => exact execOpen_withBuf s buf
  | writeCommand c => exact singleShot_withBuf _ _ _ s buf
  | writeCommand16 w => exact singleShot_withBuf _ _ _ s buf
  | writeByte b => exact singleShot_withBuf _ _ _ s buf
  | writeWord w => exact singleShot_withBuf _ _ _ s buf
  | writeCommandWithBytes c b => exact singleShot_withBuf _ _ _ s buf
  | writeCommandWithWords c w1 w2 => exact singleShot_withBuf _ _ _ s buf
  | writeRepeated value count => exact whenReady_withBuf (blind_bracket (.repeated value count)).unlessEmpty s buf
  | writePixelStream ptr count =>
    exact whenReady_withBuf (blind_bracket (.pixels ptr count)).sourceChecked.unlessEmpty s buf
  | writeByteStream ptr count =>
    exact whenReady_withBuf (blind_bracket (.bytes ptr count)).sourceChecked.unlessEmpty s buf
  | writePattern ptr len reps =>
    exact whenReady_withBuf (blind_pattern ptr len reps.toNat).sourceChecked.unlessEmpty s buf
  | reservedB low => exact ⟨_, buf, rfl, rfl⟩
  | reservedCtoF low => exact ⟨_, buf, rfl, rfl⟩

/-- Settles O35: on any other buffer the request ends alike, but for the buffer. -/
theorem oldBufferContentsAreNeverSeen : Obligations.OldBufferContentsAreNeverSeen := by
  unfold Obligations.OldBufferContentsAreNeverSeen
  intro i s other
  obtain ⟨t, buf, hexec, hother⟩ := exec_withBuf i s other
  exact ⟨t, t.withBuf buf, hexec, hother, rfl, rfl, rfl, rfl, rfl, rfl, rfl, rfl⟩

end Sys2Proof.Machine
end

section
/-! PROOFS. The Byte-Order Normalizer: its wires (O38) and its laws (O37). Its effect on the two bytes is
`le16_normalize`; both statements come from there. -/

namespace Sys2Proof.Machine

/-! ### The two bytes (R240, R242) -/

theorem bytes_normalize (v : Half) : loByte (normalize v) = hiByte v ∧ hiByte (normalize v) = loByte v := by
  have hbytes : [loByte (normalize v), hiByte (normalize v)] = [hiByte v, loByte v] := le16_normalize v
  simpa using hbytes

@[simp] theorem loByte_normalize (v : Half) : loByte (normalize v) = hiByte v := (bytes_normalize v).1

@[simp] theorem hiByte_normalize (v : Half) : hiByte (normalize v) = loByte v := (bytes_normalize v).2

theorem eq_iff_bytes_eq {v w : Half} : v = w ↔ loByte v = loByte w ∧ hiByte v = hiByte w := by
  rw [← half_eq_iff, half_bytes]

theorem normalize_normalize (v : Half) : normalize (normalize v) = v :=
  eq_iff_bytes_eq.mpr ⟨by simp, by simp⟩

theorem normalize_eq_self_iff (v : Half) : normalize v = v ↔ hiByte v = loByte v := by
  rw [eq_iff_bytes_eq, loByte_normalize, hiByte_normalize, eq_comm (a := loByte v), and_self]

/-! ### The wires (R244) -/

theorem loByte_getLsbD (v : Half) {i : Nat} (hi : i < 8) : (loByte v).getLsbD i = v.getLsbD i := by
  simp [loByte, hi]

theorem hiByte_getLsbD (v : Half) {i : Nat} (hi : i < 8) : (hiByte v).getLsbD i = v.getLsbD (8 + i) := by
  simp [hiByte, hi]

theorem normalize_getLsbD (v : Half) {i : Nat} (hi : i < 16) :
    (normalize v).getLsbD i = v.getLsbD ((i + 8) % 16) := by
  rcases Nat.lt_or_ge i 8 with hlow | hhigh
  · have hwire : (i + 8) % 16 = 8 + i := by omega
    rw [hwire, ← loByte_getLsbD _ hlow, loByte_normalize, hiByte_getLsbD v hlow]
  · obtain ⟨j, rfl⟩ := Nat.exists_eq_add_of_le hhigh
    have hj : j < 8 := by omega
    have hwire : (8 + j + 8) % 16 = j := by omega
    rw [hwire, ← hiByte_getLsbD _ hj, hiByte_normalize, loByte_getLsbD v hj]

/-- A permutation of the wires commutes with an operation that acts on each bit alone. -/
theorem normalize_bitwise {op : Half → Half → Half} {f : Bool → Bool → Bool}
    (hop : ∀ a b i, (op a b).getLsbD i = f (a.getLsbD i) (b.getLsbD i)) (a b : Half) :
    normalize (op a b) = op (normalize a) (normalize b) := by
  apply BitVec.eq_of_getLsbD_eq
  intro i hi
  rw [normalize_getLsbD _ hi, hop, hop, normalize_getLsbD a hi, normalize_getLsbD b hi]

/-! ### The obligations (O37, O38) -/

/-- Settles O38, from where the two bytes go. -/
theorem normalizeIsAPermutationOfWires : Obligations.NormalizeIsAPermutationOfWires := by
  unfold Obligations.NormalizeIsAPermutationOfWires
  exact fun v _ hi => normalize_getLsbD v hi

/-- Settles O37: the first laws hold byte by byte, the distribution laws bit by bit. -/
theorem normalizeSwapsTheBytes : Obligations.NormalizeSwapsTheBytes := by
  unfold Obligations.NormalizeSwapsTheBytes
  intro v a b
  exact ⟨normalize_normalize v, hiByte_normalize v, loByte_normalize v, normalize_eq_self_iff v,
    normalize_bitwise (fun _ _ _ => BitVec.getLsbD_xor) a b,
    normalize_bitwise (fun _ _ _ => BitVec.getLsbD_and) a b,
    normalize_bitwise (fun _ _ _ => BitVec.getLsbD_or) a b⟩

end Sys2Proof.Machine
end

section
/-! PROOFS. Requests in the wrong mode: a write outside READY (O13), and a second `open` (O14). -/

namespace Sys2Proof.Machine

/-- Settles O13: a write runs only under `whenReady`, which looks at the mode before anything else. -/
theorem writeOutsideReadyTakesNotReady : Obligations.WriteOutsideReadyTakesNotReady := by
  unfold Obligations.WriteOutsideReadyTakesNotReady
  intro i s hwrite hmode
  exact exec_write_notReady hwrite hmode

/-- Settles O14: the mode is looked at before the pin and before any external call. -/
theorem secondOpenTakesReopen : Obligations.SecondOpenTakesReopen := by
  unfold Obligations.SecondOpenTakesReopen
  intro s hmode
  exact execOpen_reopen hmode

end Sys2Proof.Machine
end

section
/-! PROOFS. What power-on reset leaves (O43). -/

namespace Sys2Proof.Machine

/-- `req_ready` is raised exactly in IDLE (R50). -/
theorem State.reqReady_iff {s : State} : s.reqReady = true ↔ s.seq = .idle := by
  unfold State.reqReady
  exact beq_iff_eq

/-- Settles O43: every register has its value in the fixed state of reset, and `req_ready` follows from IDLE. -/
theorem resetLeavesTheSpecsValues : Obligations.ResetLeavesTheSpecsValues := by
  unfold Obligations.ResetLeavesTheSpecsValues
  have idle : State.reset.seq = .idle := rfl
  exact ⟨rfl, idle, rfl, rfl, rfl, rfl, rfl, rfl, rfl, rfl, rfl, rfl, rfl, rfl, rfl,
    State.reqReady_iff.mpr idle⟩

end Sys2Proof.Machine
end
